-- ==== Sys2Proof/Word.lean ====
section
/-! DEFINITION. The fixed-width values of the block and the shape of its stores (00_scope.md R6 to R9). -/

namespace Sys2Proof

/-- A host register or a SYM word: 32 bits, bit 0 least significant (R6, R8). -/
abbrev Word := BitVec 32

/-- An ART byte (R6). -/
abbrev Byte := BitVec 8

/-- A Unicode scalar value as the datapath keeps it: 21 bits (10_state.md R35). -/
abbrev Scalar := BitVec 21

/-- A frequency count or a node weight: `COUNT_W = 32` bits (R6). -/
abbrev Count := BitVec 32

/-- A bit string, its first bit at the head (R9). -/
abbrev Bits := List Bool

/-- A store: keys with their values. Its canonical form and its operations are in Machine/Table.lean. -/
abbrev Table (κ α : Type) := List (κ × α)

end Sys2Proof
end

