-- ==== Sys2Proof/Config.lean ====
section
/-! DEFINITION. What an implementation of the block fixes (the capacities of 00_scope.md R6 and PLATFORM_MAP of
20_memory.md R71), and the draws of 93_implementation_defined.md U1 to U3 for words and bytes nobody has written.
The draw for hidden state (U4) is `Config.freeHidden`, beside its type in Machine/State.lean. -/

namespace Sys2Proof

/-- The four capacities, with the constraints R6 puts on them (93_implementation_defined.md U10). -/
structure Caps where
  /-- `SYM_CAP`: 32-bit words of the SYM memory. -/
  symCap : Nat
  /-- `ART_CAP`: bytes of the ART memory. -/
  artCap : Nat
  /-- `LEAF_CAP`: most distinct symbols one ENCODE may count. -/
  leafCap : Nat
  /-- `NODE_CAP`: entries of the node store. -/
  nodeCap : Nat
  symCap_pos : 1 ≤ symCap
  symCap_le : symCap ≤ 4294967295
  artCap_ge : 4 ≤ artCap
  artCap_le : artCap ≤ 4294967295
  leafCap_ge : 2 ≤ leafCap
  leafCap_le : leafCap ≤ 1112064
  nodeCap_ge : 2 * leafCap - 1 ≤ nodeCap
deriving DecidableEq, Repr

/-- Where the platform places the REG window, SYM and ART (`PLATFORM_MAP`, R71, decision D2). No rule reads it. -/
structure PlatformMap where
  regBase : Nat
  symBase : Nat
  artBase : Nat
deriving DecidableEq, Repr, Inhabited

namespace Config

/-- Unknown numbers from which `caps` makes four capacities that meet R6; nothing else is known of them. -/
opaque symCapSeed : Nat
opaque artCapSeed : Nat
opaque leafCapSeed : Nat
opaque nodeCapSeed : Nat

/-- The capacities of this block. Every choice R6 allows is the value for some seeds (log entry 1). -/
def caps : Caps where
  symCap := symCapSeed % 4294967295 + 1
  artCap := artCapSeed % 4294967292 + 4
  leafCap := leafCapSeed % 1112063 + 2
  nodeCap := nodeCapSeed + 2 * (leafCapSeed % 1112063) + 3
  symCap_pos := Nat.le_add_left ..
  symCap_le := Nat.mod_lt _ (by decide)
  artCap_ge := Nat.le_add_left ..
  artCap_le := by have := Nat.mod_lt artCapSeed (show 4294967292 > 0 by decide); omega
  leafCap_ge := Nat.le_add_left ..
  leafCap_le := by have := Nat.mod_lt leafCapSeed (show 1112063 > 0 by decide); omega
  nodeCap_ge := by omega

/-- The placement of the block; an open parameter no rule uses (U11, log entry 2). -/
opaque platformMap : PlatformMap

/-- The unspecified word at a SYM index nobody has written since the draw with this number (U1, U2, U3): a free value. -/
opaque freeSymWord : (draw index : Nat) → Word

/-- The unspecified byte at an ART index nobody has written since the draw with this number (U1, U2, U3): a free value. -/
opaque freeArtByte : (draw index : Nat) → Byte

end Config

end Sys2Proof
end

