-- ==== Sys2Proof/Syntax.lean ====
section
/-! DEFINITION. The encoded objects the block decodes: one constructor per row of spec/opcode_table.json, its operands
the row's fields (30_encoding.md R116). -/

namespace Sys2Proof

/-- The four formats of R116. Which one the next bits are read in is the sequencer's stage, not the bits themselves. -/
inductive Format where
  /-- A 32-bit command word, written by the host to CMD (R101). -/
  | command
  /-- The 32-bit artifact header (R103). -/
  | artifactHeader
  /-- A token of the serialized tree, 1, 9, 17, 25 or 33 bits (R104). -/
  | treeToken
  /-- One bit of the serialized text (R106). -/
  | textBit
deriving DecidableEq, Repr

/-- One constructor per row of the opcode table. -/
inductive Instr where
  /-- ENCODE, command word 0x00000001 (R101, R242). -/
  | encode
  /-- DECODE, command word 0x00000002 (R101, R247). -/
  | decode
  /-- ILLEGAL, any other command word (R101, R252). -/
  | illegal (opword : BitVec 32)
  /-- HEADER, the symbol count (R103, R248). -/
  | header (symbolCount : BitVec 32)
  /-- TREE_INTERNAL, `"0"` (R104, R185). -/
  | treeInternal
  /-- TREE_LEAF1, `"1" ++ "0xxxxxxx"` (R116, R186). -/
  | treeLeaf1 (x : BitVec 7)
  /-- TREE_LEAF2, `"1" ++ "110yyyyy" ++ "10xxxxxx"` (R116, R186). -/
  | treeLeaf2 (y : BitVec 5) (x : BitVec 6)
  /-- TREE_LEAF3, `"1" ++ "1110zzzz" ++ "10yyyyyy" ++ "10xxxxxx"` (R116, R186). -/
  | treeLeaf3 (z : BitVec 4) (y x : BitVec 6)
  /-- TREE_LEAF4, `"1" ++ "11110uuu" ++ "10uuzzzz" ++ "10yyyyyy" ++ "10xxxxxx"` (R116, R186). -/
  | treeLeaf4 (u : BitVec 5) (z : BitVec 4) (y x : BitVec 6)
  /-- TREE_LEAF_INVALID, `"1"` and 32 bits that begin no well-formed sequence (R116, R186). -/
  | treeLeafInvalid (b : BitVec 32)
  /-- TEXT_LEFT, `"0"` (R116, R213). -/
  | textLeft
  /-- TEXT_RIGHT, `"1"` (R116, R213). -/
  | textRight
deriving DecidableEq, Repr

/-- The format of each row (R116). -/
def Instr.format : Instr → Format
  | .encode => .command
  | .decode => .command
  | .illegal _ => .command
  | .header _ => .artifactHeader
  | .treeInternal => .treeToken
  | .treeLeaf1 _ => .treeToken
  | .treeLeaf2 _ _ => .treeToken
  | .treeLeaf3 _ _ _ => .treeToken
  | .treeLeaf4 _ _ _ _ => .treeToken
  | .treeLeafInvalid _ => .treeToken
  | .textLeft => .textBit
  | .textRight => .textBit

end Sys2Proof
end

