-- ==== Sys2Proof/Machine/State.lean ====
section
/-! DEFINITION. Everything the spec gives the machine, as plain data (10_state.md R20): the host-visible registers, the
two memories, the hidden datapath state, and beside them what the model itself needs (the pending inputs, the last value
a host read returned, the number of the next draw, the capacities). INVENTORY.md lists every field. -/

namespace Sys2Proof.Machine

/-- The sequencer stage `seq` (R31). -/
inductive Seq where
  | idle | count | build | codes | size | serTree | encText | pad | hdr | deserTree | decText
deriving DecidableEq, Repr, Inhabited

/-- The errors of 60_exceptions.md R280, codes 1 to 6 in this order. IOFailure is none of the block's (R287). -/
inductive CommandError where
  | truncatedInput | invalidSymbolEncoding | degenerateAlphabet | capacityExceeded | invalidInputSymbol | illegalCommand
deriving DecidableEq, Repr

/-- The output memory of a command: ART for ENCODE, SYM for DECODE (R61, R62, R291). -/
inductive OutputMemory where
  | art | sym
deriving DecidableEq, Repr

/-- A NODES entry (R36); the weight it also has during BUILD is in the store `weights`. -/
inductive Node where
  /-- A LEAF entry with its symbol. -/
  | leaf (sym : Scalar)
  /-- An INTERNAL entry with its two children, by index. -/
  | internal (left right : Nat)
deriving DecidableEq, Repr

/-- What DESER_TREE still owes the node `parent` (R185): one entry of its traversal stack (R39). -/
inductive Frame where
  /-- Its left child is being read. -/
  | awaitLeft (parent : Nat)
  /-- Its left child is `left`, its right child is being read. -/
  | awaitRight (parent left : Nat)
deriving DecidableEq, Repr

/-- A memory of `w`-bit cells. A listed cell holds the value written to it; an unlisted cell holds an unspecified value,
the one the draw numbered `epoch` gives its index (93_implementation_defined.md U1, U2; log entry 6). -/
structure Memory (w : Nat) where
  epoch : Nat
  cells : Table Nat (BitVec w)
deriving DecidableEq, Repr

/-- The hidden datapath state (R20 (c)) but for `seq`: the working registers of R33, the stores of R35 to R38, and the
traversal stacks and loop index of the implementation (R39). None of it survives a command. -/
structure Hidden where
  /-- `lat_op`: the accepted command word. -/
  latOp : Word
  /-- `lat_len`: copy of IN_LEN. -/
  latLen : Word
  /-- `n`: symbol count of ENCODE. -/
  n : Nat
  /-- `k`: number of distinct symbols. -/
  k : Nat
  /-- `wpos`: bits emitted so far. -/
  wpos : Nat
  /-- `rpos`: the read bit cursor. -/
  rpos : Nat
  /-- `count`: the header's symbol count. -/
  count : Word
  /-- `root`: the tree's root, or NONE. -/
  root : Option Nat
  /-- `cur`: the current-node pointer. -/
  cur : Nat
  /-- `remain`: the remaining-symbol countdown. -/
  remain : Word
  /-- `outidx`: next SYM index to write. -/
  outidx : Nat
  /-- `ncount`: number of allocated NODES entries. -/
  ncount : Nat
  /-- `total_bits`: bit length of the artifact before padding. -/
  totalBits : Nat
  /-- FREQ: symbol to occurrence count (R35). -/
  freq : Table Scalar Count
  /-- NODES: index to entry (R36). -/
  nodes : Table Nat Node
  /-- The `weight` of the NODES entries, by index, during BUILD (R36). -/
  weights : Table Nat Count
  /-- PQ: a set of NODES indices, listed in increasing order (R37). -/
  pq : List Nat
  /-- CODES: symbol to code (R38). -/
  codes : Table Scalar Bits
  /-- The index `i` of the loops of COUNT and ENC_TEXT (R140, R210). -/
  idx : Nat
  /-- Traversal stack of CODES: nodes still to walk, each with its path (R148). -/
  walk : List (Nat × Bits)
  /-- Traversal stack of SER_TREE: nodes still to serialize (R180). -/
  ser : List Nat
  /-- Traversal stack of DESER_TREE (R184, R185). -/
  deser : List Frame
deriving DecidableEq, Repr, Inhabited

/-- A host bus transaction (30_encoding.md R117). `size` is the access width in bytes, so that the accesses R69 refuses
can be written down. -/
inductive HostTx where
  /-- `WR reg, v`: write the register at this byte offset. -/
  | regWrite (offset size : Nat) (v : Word)
  /-- `RD reg`. -/
  | regRead (offset size : Nat)
  /-- `SYMW i, v`. -/
  | symWrite (i : Nat) (v : Word)
  /-- `SYMR i`. -/
  | symRead (i : Nat)
  /-- `ARTW a, b`. -/
  | artWrite (a : Nat) (b : Byte)
  /-- `ARTR a`. -/
  | artRead (a : Nat)
deriving DecidableEq, Repr

/-- One pending input: whose turn it is and what it does (log entry 3). -/
inductive Input where
  /-- The host performs one transaction. -/
  | host (tx : HostTx)
  /-- The core takes one step of the running command, if there is one. -/
  | core
  /-- The host polls: `POLL` of R118. -/
  | poll
  /-- The platform asserts reset (70_reset_and_hazards.md R320). -/
  | reset
deriving DecidableEq, Repr

/-- The data a host read returned. -/
inductive BusData where
  /-- 32 bits from REG or SYM (R70). -/
  | word (v : Word)
  /-- 8 bits from ART (R70). -/
  | byte (b : Byte)
deriving DecidableEq, Repr

/-- The state of the block and of the model around it. -/
structure State where
  /-- STATUS (R23). -/
  status : Word
  /-- IN_LEN (R28). -/
  inLen : Word
  /-- OUT_LEN (R29). -/
  outLen : Word
  /-- The sequencer stage (R31). -/
  seq : Seq
  /-- SYM (R61): words by index. -/
  sym : Memory 32
  /-- ART (R62): bytes by index. -/
  art : Memory 8
  /-- The hidden datapath state (R33 to R39). -/
  hid : Hidden
  /-- Model: what the host and the platform will do, and when the core moves, first entry next. -/
  inputs : List Input
  /-- Model: what the host's last read returned. -/
  busData : Option BusData
  /-- The host's side: since the last command word was accepted, a read of STATUS has returned `BUSY = 0` and `DONE = 1`
  (20_memory.md R73; log entry 24). True before any command. -/
  endShown : Bool
  /-- Model: the number of the next draw of unspecified values. -/
  draws : Nat
  /-- The capacities (00_scope.md R6): a parameter, which no step writes. -/
  caps : Caps
deriving DecidableEq, Repr

/-- Why the machine stops with a fault. Each is an assertion about the core's own working that no run from an accepted
command breaks; to stop is safe (log entry 13). -/
inductive Fault where
  /-- ENC_TEXT or SIZE finds a symbol with no CODES entry (42_text_codec.md R210, U8). Raised by `encTextStep`,
  `sizeStep`. Safe. -/
  | codeMissing
  /-- A stage follows a node number to an entry that is not there or has no child to give (42_text_codec.md R213).
  Raised by BUILD, CODES, SER_TREE, DESER_TREE and the text steps. Safe. -/
  | nodeMissing
  /-- BUILD takes a node from an empty queue (R144). Raised by `buildStep`. Safe. -/
  | queueEmpty
  /-- The core would reach an ART index at or above `ART_CAP` (20_memory.md R64). Raised by `emit` and `fetchToken`.
  Safe. -/
  | artOutside
  /-- The core would reach a SYM index at or above `SYM_CAP` (20_memory.md R64). Raised by `encTextStep` and
  `emitSymbol`. Safe. -/
  | symOutside
deriving DecidableEq, Repr

/-- Why a step has no meaning. -/
inductive Refusal where
  /-- An instruction this model has no meaning for; raised by `exec` only. Safe. -/
  | notModelled (mnemonic : String)
  /-- A register access at another offset, or narrower, wider or misaligned (R69, U6); raised by `hostAccess`. Safe. -/
  | registerAccess
  /-- A host access to SYM or ART while BUSY (70_reset_and_hazards.md R324, U5); raised by `hostAccess`. Safe. -/
  | accessWhileBusy
  /-- A host access to SYM or ART after a command's end but before a STATUS read has shown that end (20_memory.md R73,
  point 3); raised by `hostAccess`. Safe. -/
  | accessBeforeEndShown
  /-- A host access to a SYM index at or above `SYM_CAP` (R64, U7); raised by `hostAccess`. Safe. -/
  | symIndex
  /-- A host access to an ART index at or above `ART_CAP` (R64, U7); raised by `hostAccess`. Safe. -/
  | artIndex
deriving DecidableEq, Repr

/-- What a step gives. -/
abbrev Outcome := Host.Outcome State Fault Refusal

/-- Hidden state with every working register 0, `root` NONE and every store empty: its value at `State.reset`, where the
spec gives none (DESIGN CHOICE, log entry 5). -/
def Hidden.zero : Hidden where
  latOp := 0#32
  latLen := 0#32
  n := 0
  k := 0
  wpos := 0
  rpos := 0
  count := 0#32
  root := none
  cur := 0
  remain := 0#32
  outidx := 0
  ncount := 0
  totalBits := 0
  freq := []
  nodes := []
  weights := []
  pq := []
  codes := []
  idx := 0
  walk := []
  ser := []
  deser := []

/-- The block right after reset (10_state.md R41, 70_reset_and_hazards.md R320): the registers 0, the sequencer idle, no
SYM word and no ART byte specified. Nothing is pending: the host's inputs come from outside (log entry 16). -/
def State.reset : State where
  status := 0x00000000#32
  inLen := 0x00000000#32
  outLen := 0x00000000#32
  seq := .idle
  sym := { epoch := 0, cells := [] }
  art := { epoch := 0, cells := [] }
  hid := Hidden.zero
  inputs := []
  busData := none
  endShown := true
  draws := 1
  caps := Config.caps

end Sys2Proof.Machine

namespace Sys2Proof.Config

/-- The unspecified hidden state after the end of a command or a reset, by draw number (93_implementation_defined.md U4):
a free value (log entry 8). -/
opaque freeHidden : (draw : Nat) → Machine.Hidden

end Sys2Proof.Config
end

