-- ==== Sys2Proof/Machine/Flags.lean ====
section
/-! DEFINITION. The STATUS word: its fields and every value a command writes to it (10_state.md R23 to R26). The block
has no other flag (R30). -/

namespace Sys2Proof.Machine

/-- STATUS.BUSY, bit 0 (R23). -/
def State.busy (s : State) : Bool := s.status.getLsbD 0

/-- STATUS.DONE, bit 1 (R23). -/
def State.done (s : State) : Bool := s.status.getLsbD 1

/-- STATUS.ERR, bits 7:4 (R23). -/
def State.err (s : State) : BitVec 4 := s.status.extractLsb' 4 4

/-- The ERR code of an error (60_exceptions.md R280). -/
def CommandError.code : CommandError → BitVec 4
  | .truncatedInput => 1#4
  | .invalidSymbolEncoding => 2#4
  | .degenerateAlphabet => 3#4
  | .capacityExceeded => 4#4
  | .invalidInputSymbol => 5#4
  | .illegalCommand => 6#4

/-- STATUS while a command runs: BUSY 1, DONE 0, ERR 0 (43_commands.md R241). -/
def statusRunning : Word := 0x00000001#32

/-- STATUS after `succeed`: BUSY 0, DONE 1, ERR 0 (R251). -/
def statusSucceeded : Word := 0x00000002#32

/-- STATUS after an error: BUSY 0, DONE 1, ERR its code (R290). -/
def statusFailed (e : CommandError) : Word := 0x00000002#32 ||| (e.code.setWidth 32 <<< 4)

/-- The values STATUS can hold (R23). -/
def legalStatus : List Word :=
  [0x00#32, 0x01#32, 0x02#32, 0x12#32, 0x22#32, 0x32#32, 0x42#32, 0x52#32, 0x62#32]

end Sys2Proof.Machine
end

