-- ==== Sys2Proof/Machine/Utf8.lean ====
section
/-! DEFINITION. Bit strings of numbers (00_scope.md R9, 20_memory.md R67), scalar values and UTF-8 (30_encoding.md R107
to R110; the spec marks those tables as general knowledge, 93_implementation_defined.md G2 to G6). -/

namespace Sys2Proof

/-- `bits_k(v)`: the `k` low bits of `v`, most significant first (R9). -/
def natBits : Nat → Nat → Bits
  | 0, _ => []
  | k + 1, v => v.testBit k :: natBits k v

/-- `bits_k` of a value `k` bits wide (R9). -/
def bitsOf {k : Nat} (v : BitVec k) : Bits := natBits k v.toNat

/-- The unsigned number whose first bit is the most significant, as `ReadBits` assembles it (R67). -/
def bitsValue (bits : Bits) : Nat := bits.foldl (fun v b => 2 * v + b.toNat) 0

/-- `IsScalar(v)` (R107). -/
def isScalar (v : Nat) : Bool :=
  decide (v ≤ 0xD7FF) || (decide (0xE000 ≤ v) && decide (v ≤ 0x10FFFF))

/-- The continuation byte `0x80 + v` of a 6-bit field (R108). -/
def contByte (v : BitVec 6) : Byte := 0b10#2 ++ v

/-- `Utf8Encode(s)` (R108), one line per row of its table. -/
def utf8Encode (s : Scalar) : List Byte :=
  if s.toNat ≤ 0x7F then [s.extractLsb' 0 8]
  else if s.toNat ≤ 0x7FF then [0b110#3 ++ s.extractLsb' 6 5, contByte (s.extractLsb' 0 6)]
  else if s.toNat ≤ 0xFFFF then
    [0b1110#4 ++ s.extractLsb' 12 4, contByte (s.extractLsb' 6 6), contByte (s.extractLsb' 0 6)]
  else
    [0b11110#5 ++ s.extractLsb' 18 3, contByte (s.extractLsb' 12 6), contByte (s.extractLsb' 6 6),
      contByte (s.extractLsb' 0 6)]

/-- A byte in the range `lo .. hi` of a column of R109. -/
def inRange (lo hi : Nat) (b : Byte) : Bool := decide (lo ≤ b.toNat) && decide (b.toNat ≤ hi)

/-- `Utf8ValidSingle(bytes)` (R109): some row of its table matches the length and every byte. -/
def utf8ValidSingle : List Byte → Bool
  | [b1] => inRange 0x00 0x7F b1
  | [b1, b2] => inRange 0xC2 0xDF b1 && inRange 0x80 0xBF b2
  | [b1, b2, b3] =>
    (inRange 0xE0 0xE0 b1 && inRange 0xA0 0xBF b2 && inRange 0x80 0xBF b3)
    || (inRange 0xE1 0xEC b1 && inRange 0x80 0xBF b2 && inRange 0x80 0xBF b3)
    || (inRange 0xED 0xED b1 && inRange 0x80 0x9F b2 && inRange 0x80 0xBF b3)
    || (inRange 0xEE 0xEF b1 && inRange 0x80 0xBF b2 && inRange 0x80 0xBF b3)
  | [b1, b2, b3, b4] =>
    (inRange 0xF0 0xF0 b1 && inRange 0x90 0xBF b2 && inRange 0x80 0xBF b3 && inRange 0x80 0xBF b4)
    || (inRange 0xF1 0xF3 b1 && inRange 0x80 0xBF b2 && inRange 0x80 0xBF b3 && inRange 0x80 0xBF b4)
    || (inRange 0xF4 0xF4 b1 && inRange 0x80 0x8F b2 && inRange 0x80 0xBF b3 && inRange 0x80 0xBF b4)
  | _ => false

/-- The arithmetic of R110, by the number of bytes. -/
def utf8Value : List Byte → Nat
  | [b1] => b1.toNat
  | [b1, b2] => (b1.toNat - 0xC0) * 2 ^ 6 + (b2.toNat - 0x80)
  | [b1, b2, b3] => (b1.toNat - 0xE0) * 2 ^ 12 + (b2.toNat - 0x80) * 2 ^ 6 + (b3.toNat - 0x80)
  | [b1, b2, b3, b4] =>
    (b1.toNat - 0xF0) * 2 ^ 18 + (b2.toNat - 0x80) * 2 ^ 12 + (b3.toNat - 0x80) * 2 ^ 6 + (b4.toNat - 0x80)
  | _ => 0

/-- `Utf8Decode(bytes)`, defined when `Utf8ValidSingle(bytes)` (R110). -/
def utf8Decode (bytes : List Byte) : Option Scalar :=
  if utf8ValidSingle bytes then some (BitVec.ofNat 21 (utf8Value bytes)) else none

end Sys2Proof
end

