-- ==== Sys2Proof/WellFormed.lean ====
section
/-! DEFINITION. Which operands a row of the opcode table admits: the constraints of spec/opcode_table.json and of
30_encoding.md R101, R109, R111. -/

namespace Sys2Proof

/-- The four bytes of a TREE_LEAF_INVALID payload, first byte first (R104: most significant bit first). -/
def payloadBytes (b : BitVec 32) : List Byte :=
  [b.extractLsb' 24 8, b.extractLsb' 16 8, b.extractLsb' 8 8, b.extractLsb' 0 8]

/-- No prefix of one to four bytes is a well-formed sequence (R111). -/
def noPrefixValid (bytes : List Byte) : Bool :=
  !utf8ValidSingle (bytes.take 1) && !utf8ValidSingle (bytes.take 2)
    && !utf8ValidSingle (bytes.take 3) && !utf8ValidSingle (bytes.take 4)

/-- The operands are ones the row's encoding admits. -/
def Instr.wellFormed : Instr → Bool
  | .encode => true
  | .decode => true
  | .illegal w => decide (w ≠ 1#32) && decide (w ≠ 2#32)
  | .header _ => true
  | .treeInternal => true
  | .treeLeaf1 _ => true
  | .treeLeaf2 y _ => decide (2 ≤ y.toNat)                      -- byte 1 in C2..DF
  | .treeLeaf3 z y _ =>
    (decide (z ≠ 0x0#4) || decide (0x20 ≤ y.toNat))              -- byte 1 E0 needs byte 2 A0..BF
    && (decide (z ≠ 0xD#4) || decide (y.toNat ≤ 0x1F))           -- byte 1 ED needs byte 2 80..9F
  | .treeLeaf4 u _ _ _ => decide (1 ≤ u.toNat) && decide (u.toNat ≤ 0x10)   -- byte 1 F0..F4, byte 2 90..BF after F0, 80..8F after F4
  | .treeLeafInvalid b => noPrefixValid (payloadBytes b)
  | .textLeft => true
  | .textRight => true

end Sys2Proof
end

