-- ==== Sys2Proof/Decode.lean ====
section
/-! DEFINITION. The decoder of the four formats of 30_encoding.md (R101, R103, R104, R106, R111), total on any bits, and
the encoder written from the same tables. A bit string that ends before the token it begins is rejected by name. -/

namespace Sys2Proof

/-- Why bits do not decode. -/
inductive DecodeError where
  /-- The bit string ends inside the token (20_memory.md R66: the reader needs a bit past the last one). -/
  | endOfStream
deriving DecidableEq, Repr

/-- What reading a leaf's bytes one at a time gives (41_tree_codec.md R186). -/
inductive LeafRead where
  /-- The first byte count that validates: its bytes. -/
  | valid (bytes : List Byte)
  /-- Four bytes read and no count validated. -/
  | invalid (bytes : List Byte)
  /-- The bit string ended inside a byte the loop needs. -/
  | endOfStream
deriving DecidableEq, Repr

/-- The command word, compared whole (R101). -/
def decodeCommand (w : Word) : Instr :=
  if w = 0x00000001#32 then .encode else if w = 0x00000002#32 then .decode else .illegal w

/-- `ReadBits(8)` from the front of a bit string. -/
def takeByte (bits : Bits) : Option (Byte × Bits) :=
  if 8 ≤ bits.length then some (BitVec.ofNat 8 (bitsValue (bits.take 8)), bits.drop 8) else none

/-- The loop of R186: one more byte, then the test of all bytes so far, while `fuel` bytes may still be read. -/
def readLeaf : (fuel : Nat) → (sofar : List Byte) → Bits → LeafRead
  | 0, sofar, _ => .invalid sofar
  | fuel + 1, sofar, bits =>
    match takeByte bits with
    | none => .endOfStream
    | some (b, rest) =>
      if utf8ValidSingle (sofar ++ [b]) then .valid (sofar ++ [b]) else readLeaf fuel (sofar ++ [b]) rest

/-- Four bytes as one 32-bit payload, first byte most significant (R104). -/
def payloadWord (bytes : List Byte) : BitVec 32 :=
  BitVec.ofNat 32 (bytes.foldl (fun v b => 256 * v + b.toNat) 0)

/-- The leaf token whose payload is these well-formed bytes: the fields of its opcode-table row (R116). -/
def leafInstr : List Byte → Instr
  | [b1] => .treeLeaf1 (b1.extractLsb' 0 7)
  | [b1, b2] => .treeLeaf2 (b1.extractLsb' 0 5) (b2.extractLsb' 0 6)
  | [b1, b2, b3] => .treeLeaf3 (b1.extractLsb' 0 4) (b2.extractLsb' 0 6) (b3.extractLsb' 0 6)
  | [b1, b2, b3, b4] =>
    .treeLeaf4 (b1.extractLsb' 0 3 ++ b2.extractLsb' 4 2) (b2.extractLsb' 0 4) (b3.extractLsb' 0 6) (b4.extractLsb' 0 6)
  | bytes => .treeLeafInvalid (payloadWord bytes)

/-- A tree token: the first bit, then R111 (R116). The number is the token's length in bits. -/
def decodeTree : Bits → Except DecodeError (Instr × Nat)
  | [] => .error .endOfStream
  | false :: _ => .ok (.treeInternal, 1)
  | true :: rest =>
    match readLeaf 4 [] rest with
    | .valid bytes => .ok (leafInstr bytes, 1 + 8 * bytes.length)
    | .invalid bytes => .ok (.treeLeafInvalid (payloadWord bytes), 1 + 8 * bytes.length)
    | .endOfStream => .error .endOfStream

/-- One text bit (R106: 0 selects left, 1 selects right). -/
def decodeText : Bits → Except DecodeError (Instr × Nat)
  | [] => .error .endOfStream
  | false :: _ => .ok (.textLeft, 1)
  | true :: _ => .ok (.textRight, 1)

/-- The first 32 bits as an unsigned number (R67, R103). -/
def takeWord (bits : Bits) : Except DecodeError Word :=
  if 32 ≤ bits.length then .ok (BitVec.ofNat 32 (bitsValue (bits.take 32))) else .error .endOfStream

/-- The decoder: the instruction at the front of the bits, read in this format, and its length in bits. -/
def decode (f : Format) (bits : Bits) : Except DecodeError (Instr × Nat) :=
  match f with
  | .command =>
    match takeWord bits with
    | .ok w => .ok (decodeCommand w, 32)
    | .error e => .error e
  | .artifactHeader =>
    match takeWord bits with
    | .ok w => .ok (.header w, 32)
    | .error e => .error e
  | .treeToken => decodeTree bits
  | .textBit => decodeText bits

/-- The longest token of a format (R100). -/
def Format.maxLength : Format → Nat
  | .command => 32
  | .artifactHeader => 32
  | .treeToken => 33
  | .textBit => 1

/-- The command word of a command (R101). -/
def commandWord : Instr → Option Word
  | .encode => some 0x00000001#32
  | .decode => some 0x00000002#32
  | .illegal w => some w
  | _ => none

/-- The payload bytes of a leaf token, from the bit patterns of R116; the other rows have none. -/
def leafBytes : Instr → List Byte
  | .treeLeaf1 x => [0b0#1 ++ x]
  | .treeLeaf2 y x => [0b110#3 ++ y, 0b10#2 ++ x]
  | .treeLeaf3 z y x => [0b1110#4 ++ z, 0b10#2 ++ y, 0b10#2 ++ x]
  | .treeLeaf4 u z y x =>
    [0b11110#5 ++ u.extractLsb' 2 3, 0b10#2 ++ u.extractLsb' 0 2 ++ z, 0b10#2 ++ y, 0b10#2 ++ x]
  | .treeLeafInvalid b => payloadBytes b
  | _ => []

/-- The bits of a leaf token: the tag `"1"`, then each byte most significant bit first (R104). -/
def leafBits (bytes : List Byte) : Bits := true :: bytes.flatMap bitsOf

/-- The encoder: the bits of an instruction, first bit first (R101, R103, R104, R106). -/
def encode : Instr → Bits
  | .encode => bitsOf 0x00000001#32
  | .decode => bitsOf 0x00000002#32
  | .illegal w => bitsOf w
  | .header c => bitsOf c
  | .treeInternal => [false]
  | .treeLeaf1 x => leafBits (leafBytes (.treeLeaf1 x))
  | .treeLeaf2 y x => leafBits (leafBytes (.treeLeaf2 y x))
  | .treeLeaf3 z y x => leafBits (leafBytes (.treeLeaf3 z y x))
  | .treeLeaf4 u z y x => leafBits (leafBytes (.treeLeaf4 u z y x))
  | .treeLeafInvalid b => leafBits (leafBytes (.treeLeafInvalid b))
  | .textLeft => [false]
  | .textRight => [true]

/-- The length R100 and R105 give each row, in bits. -/
def Instr.bitLength : Instr → Nat
  | .encode => 32
  | .decode => 32
  | .illegal _ => 32
  | .header _ => 32
  | .treeInternal => 1
  | .treeLeaf1 _ => 9
  | .treeLeaf2 _ _ => 17
  | .treeLeaf3 _ _ _ => 25
  | .treeLeaf4 _ _ _ _ => 33
  | .treeLeafInvalid _ => 33
  | .textLeft => 1
  | .textRight => 1

/-- The format and the bit string of a table word. A table row's pattern is read as one number, its last bit bit 0, so
the token's first bit is bit `length - 1`. The block tells the format from its stage; a bare word has none, so the
number of bits chooses: 32 bits are a command word; 1 bit `"0"` is a tree token and `"1"` a text bit; 9, 17, 25 and 33
bits, given exactly or in whole bytes, are leaf tokens (log entry 15). -/
def tableToken (nbits w : Nat) : Option (Format × Bits) :=
  match nbits with
  | 1 => if w % 2 = 0 then some (.treeToken, [false]) else some (.textBit, [true])
  | 8 => if w % 2 = 0 then some (.treeToken, [false]) else some (.textBit, [true])
  | 9 => some (.treeToken, natBits 9 w)
  | 16 => some (.treeToken, natBits 9 w)
  | 17 => some (.treeToken, natBits 17 w)
  | 24 => some (.treeToken, natBits 17 w)
  | 25 => some (.treeToken, natBits 25 w)
  | 32 => some (.command, natBits 32 w)
  | 33 => some (.treeToken, natBits 33 w)
  | 40 => some (.treeToken, natBits 33 w)
  | _ => none

/-- The instruction the decoder reads from a table word: the whole word must be one token. -/
def decodeTableWord (nbits w : Nat) : Option Instr :=
  match tableToken nbits w with
  | none => none
  | some (f, bits) =>
    match decode f bits with
    | .ok (i, n) => if n = bits.length then some i else none
    | .error _ => none

end Sys2Proof
end

