-- ==== Sys2Proof/Machine/Operands.lean ====
section
/-! DEFINITION. Operand forms: the symbol of a leaf token, the form of a symbol in a SYM word, the host registers. -/

namespace Sys2Proof.Machine

/-- TREE_LEAF1: `x` is scalar[6:0] (spec/opcode_table.json). -/
def leaf1Symbol (x : BitVec 7) : Scalar := 0#14 ++ x

/-- TREE_LEAF2: `y` is scalar[10:6], `x` is scalar[5:0]. -/
def leaf2Symbol (y : BitVec 5) (x : BitVec 6) : Scalar := 0#10 ++ y ++ x

/-- TREE_LEAF3: `z` is scalar[15:12], `y` is scalar[11:6], `x` is scalar[5:0]. -/
def leaf3Symbol (z : BitVec 4) (y x : BitVec 6) : Scalar := 0#5 ++ z ++ y ++ x

/-- TREE_LEAF4: `u` is scalar[20:16], `z` is scalar[15:12], `y` is scalar[11:6], `x` is scalar[5:0]. -/
def leaf4Symbol (u : BitVec 5) (z : BitVec 4) (y x : BitVec 6) : Scalar := u ++ z ++ y ++ x

/-- `zext_32(s)`: a symbol as a SYM word (30_encoding.md R114). -/
def symbolWord (s : Scalar) : Word := s.setWidth 32

/-- The symbol a SYM word holds, where the whole word is a scalar value (R114). -/
def wordSymbol (w : Word) : Option Scalar := if isScalar w.toNat then some (w.setWidth 21) else none

/-- What the host reads at a register offset: CMD reads 0 at all times (10_state.md R22), STATUS, IN_LEN and OUT_LEN
their word; no other offset belongs to the block (R21). -/
def registerRead (s : State) (offset : Nat) : Option Word :=
  match offset with
  | 0x00 => some 0x00000000#32
  | 0x04 => some s.status
  | 0x08 => some s.inLen
  | 0x0C => some s.outLen
  | _ => none

end Sys2Proof.Machine
end

