-- ==== Sys2Proof/Machine/Table.lean ====
section
/-! DEFINITION. The operations of a store: a list of keys and values whose keys rise strictly in `rank`, so that equal
maps are equal lists. FREQ, CODES, NODES, SYM and ART are all held this way (10_state.md R35, R36, R38; 20_memory.md
R61, R62). `rank` is the key's number: the key itself for an index, the scalar value for a symbol. -/

namespace Sys2Proof

variable {κ α : Type}

/-- `M[key]` where `key in M`, nothing otherwise (00_scope.md R9). -/
def Table.get (rank : κ → Nat) (k : κ) : Table κ α → Option α
  | [] => none
  | (a, v) :: rest => if rank a = rank k then some v else Table.get rank k rest

/-- `M[key] <- v`, keeping the keys in strictly rising order. -/
def Table.put (rank : κ → Nat) (k : κ) (v : α) : Table κ α → Table κ α
  | [] => [(k, v)]
  | (a, u) :: rest =>
    if rank k < rank a then (k, v) :: (a, u) :: rest
    else if rank k = rank a then (k, v) :: rest
    else (a, u) :: Table.put rank k v rest

/-- The canonical form: keys strictly rising. -/
abbrev Table.Sorted (rank : κ → Nat) (t : Table κ α) : Prop :=
  t.Pairwise fun p q => rank p.1 < rank q.1

end Sys2Proof
end

