-- ==== Sys2Proof/Machine/Ops.lean ====
section
/-! DEFINITION. The shared operations: memory cells, the bit reader and writer of 20_memory.md, the start of a command,
its end by success or by error (the block's only exception), reset. The block has no return from an error
(60_exceptions.md R292): the next accepted command clears its trace. -/

namespace Sys2Proof.Machine

/-! ### Memory cells (20_memory.md R64) -/

/-- The value written to a cell, if any. -/
def Memory.written {w : Nat} (m : Memory w) (i : Nat) : Option (BitVec w) := Table.get id i m.cells

/-- Write a cell. -/
def Memory.write {w : Nat} (m : Memory w) (i : Nat) (v : BitVec w) : Memory w :=
  { m with cells := Table.put id i v m.cells }

/-- No cell specified any more: every cell takes the value of the draw with this number. -/
def Memory.unspecified {w : Nat} (draw : Nat) : Memory w := { epoch := draw, cells := [] }

/-- The canonical form: addresses strictly rising. An unlisted cell has no specified value, so no entry can equal it. -/
abbrev Memory.wf {w : Nat} (m : Memory w) : Prop := Table.Sorted id m.cells

/-- `MemRead(SYM, i, 1)` (R64); a word nobody has written reads as its draw (U2). -/
def readSym (s : State) (i : Nat) : Word := (s.sym.written i).getD (Config.freeSymWord s.sym.epoch i)

/-- `MemRead(ART, a, 1)` (R64); a byte nobody has written reads as its draw (U2). -/
def readArt (s : State) (a : Nat) : Byte := (s.art.written a).getD (Config.freeArtByte s.art.epoch a)

/-- `MemWrite(SYM, i, 1, v)` (R64). -/
def writeSym (i : Nat) (v : Word) (s : State) : State := { s with sym := s.sym.write i v }

/-- `MemWrite(ART, a, 1, b)` (R64). -/
def writeArt (a : Nat) (b : Byte) (s : State) : State := { s with art := s.art.write a b }

/-! ### The bit streams (20_memory.md R63, R65 to R67) -/

/-- Bit `p` of the stream stored in ART: bit `7 - (p mod 8)` of byte `p div 8` (R63). -/
def streamBit (s : State) (p : Nat) : Bool := (readArt s (p / 8)).getLsbD (7 - p % 8)

/-- `byte[j] <- b`. -/
def setBit (byte : Byte) (j : Nat) (b : Bool) : Byte :=
  if b then byte ||| (1#8 <<< j) else byte &&& ~~~(1#8 <<< j)

/-- `EmitBit(b)` (R65): a fresh byte starts at 0. -/
def emitBit (b : Bool) (s : State) : State :=
  let a := s.hid.wpos / 8
  let byte := if s.hid.wpos % 8 = 0 then 0x00#8 else readArt s a
  let t := writeArt a (setBit byte (7 - s.hid.wpos % 8) b) s
  { t with hid := { t.hid with wpos := t.hid.wpos + 1 } }

/-- `EmitBits(bits)`: each bit in turn, first bit first (R65). -/
def emitBits : Bits → State → State
  | [], s => s
  | b :: bits, s => emitBits bits (emitBit b s)

/-- `EmitBits` where every byte it fills is in ART, which SIZE guarantees (R64, R65). -/
def emit (bits : Bits) (s : State) : Outcome :=
  if s.hid.wpos + bits.length ≤ 8 * s.caps.artCap then .next (emitBits bits s) else .fault .artOutside

/-- `ReadBit()` (R66): the bit and the state with `rpos` moved on, or nothing where `rpos >= 8 * lat_len`. -/
def readBit (s : State) : Option (Bool × State) :=
  if 8 * s.hid.latLen.toNat ≤ s.hid.rpos then none
  else some (streamBit s s.hid.rpos, { s with hid := { s.hid with rpos := s.hid.rpos + 1 } })

/-- The bits that up to `k` calls of `ReadBit` deliver, fewer where the stream ends (R67). -/
def readAhead : Nat → State → Bits
  | 0, _ => []
  | k + 1, s =>
    match readBit s with
    | none => []
    | some (b, t) => b :: readAhead k t

/-- Move the read cursor past `len` bits (10_state.md R34). -/
def State.advance (len : Nat) (s : State) : State := { s with hid := { s.hid with rpos := s.hid.rpos + len } }

/-! ### Stores -/

/-- `NODES[i]`, where it has been written (R36). -/
def nodeAt (s : State) (i : Nat) : Option Node := Table.get id i s.hid.nodes

/-- `CODES[c]`, where there is one (R38). -/
def codeOf (s : State) (c : Scalar) : Option Bits := Table.get BitVec.toNat c s.hid.codes

/-! ### Start and end of a command -/

/-- The hidden state `Accept(v)` leaves (43_commands.md R241): the command word and IN_LEN copied, every store emptied
(10_state.md R41), `ncount` 0, `root` NONE. The other registers keep what they hold until the command writes them. -/
def acceptedHidden (v : Word) (s : State) : Hidden :=
  { s.hid with
    latOp := v
    latLen := s.inLen
    root := none
    ncount := 0
    freq := []
    nodes := []
    weights := []
    pq := []
    codes := []
    idx := 0
    walk := []
    ser := []
    deser := [] }

/-- `Accept(v)` (R241). The host has not seen this command's end yet (20_memory.md R73). -/
def accept (v : Word) (stage : Seq) (s : State) : State :=
  { s with
    status := statusRunning
    outLen := 0x00000000#32
    seq := stage
    hid := acceptedHidden v s
    endShown := false }

/-- A CMD write while `BUSY = 1` is ignored; otherwise the command word acts (R240). -/
def whileIdle (act : State → State) (s : State) : Outcome := if s.busy then .next s else .next (act s)

/-- Every cell of an output memory takes an unspecified value, a new draw (60_exceptions.md R291, U1). -/
def discardOutput (out : OutputMemory) (s : State) : State :=
  match out with
  | .art => { s with art := Memory.unspecified s.draws }
  | .sym => { s with sym := Memory.unspecified s.draws }

/-- `succeed` (43_commands.md R251), with the output length the command sets just before it. The hidden state is
discarded: nothing is specified about it until the next command writes it (10_state.md R33, U4). -/
def succeed (len : Word) (s : State) : State :=
  { s with
    status := statusSucceeded
    outLen := len
    seq := .idle
    hid := Config.freeHidden s.draws
    draws := s.draws + 1 }

/-- `raise E` (60_exceptions.md R290, R291): the block's one exception entry. STATUS takes the error's code, OUT_LEN is 0,
the sequencer is idle, the hidden state is discarded, and the command's output memory is unspecified. -/
def raise (out : OutputMemory) (e : CommandError) (s : State) : State :=
  { discardOutput out s with
    status := statusFailed e
    outLen := 0x00000000#32
    seq := .idle
    hid := Config.freeHidden s.draws
    draws := s.draws + 1 }

/-! ### Reset -/

/-- Reset as an event (70_reset_and_hazards.md R320, R321): the registers take their reset values, the sequencer is idle,
and the memories and the hidden state become unspecified. A running command is abandoned, so no end is left to be seen. -/
def resetEvent (s : State) : State :=
  { s with
    status := 0x00000000#32
    inLen := 0x00000000#32
    outLen := 0x00000000#32
    seq := .idle
    sym := Memory.unspecified s.draws
    art := Memory.unspecified s.draws
    hid := Config.freeHidden s.draws
    endShown := true
    draws := s.draws + 1 }

end Sys2Proof.Machine
end

