-- ==== Sys2Proof/Machine/Command.lean ====
section
/-! DEFINITION. What a host write of CMD does: the meanings of ENCODE, DECODE and ILLEGAL (43_commands.md R240, R241,
R252). An accepted command then runs stage by stage: Machine/EncodeStages.lean, Machine/Fetch.lean. -/

namespace Sys2Proof.Machine

/-- ENCODE: `Accept(0x00000001)`, from which the core goes on at COUNT (R241, R242). -/
def execEncode (s : State) : Outcome := whileIdle (accept 0x00000001#32 .count) s

/-- DECODE: `Accept(0x00000002)`, from which the core goes on at HDR (R241, R247). -/
def execDecode (s : State) : Outcome := whileIdle (accept 0x00000002#32 .hdr) s

/-- `IllegalCommand()` (R252): only STATUS and OUT_LEN change. -/
def illegalCommand (s : State) : State :=
  { s with status := statusFailed .illegalCommand, outLen := 0x00000000#32 }

/-- ILLEGAL: any other command word (R240, R252). -/
def execIllegal (_opword : Word) (s : State) : Outcome := whileIdle illegalCommand s

end Sys2Proof.Machine
end

