-- ==== Sys2Proof/Machine/Header.lean ====
section
/-! DEFINITION. The artifact header of a DECODE: the meaning of HEADER (43_commands.md R247 to R249). -/

namespace Sys2Proof.Machine

/-- HEADER: `count` is stored; 0 ends the command with an empty output (R249), a count above `SYM_CAP` is
CapacityExceeded (R248), any other goes on with the tree. -/
def execHeader (symbolCount : Word) (s : State) : Outcome :=
  if symbolCount = 0#32 then .next (succeed 0x00000000#32 s)
  else if s.caps.symCap < symbolCount.toNat then .next (raise .sym .capacityExceeded s)
  else .next { s with seq := .deserTree, hid := { s.hid with count := symbolCount } }

end Sys2Proof.Machine
end

