-- ==== Sys2Proof/Machine/Text.lean ====
section
/-! DEFINITION. DEC_TEXT, the bit-serial tree walker: the meanings of TEXT_LEFT and TEXT_RIGHT (42_text_codec.md R213,
R214) and the end of its loop (R215). -/

namespace Sys2Proof.Machine

/-- `EmitSymbol()` (R214): the leaf's symbol to SYM, the countdown one less, the pointer back to the root. -/
def emitSymbol (sym : Scalar) (s : State) : Outcome :=
  if s.caps.symCap ≤ s.hid.outidx then .fault .symOutside
  else
    match s.hid.root with
    | none => .fault .nodeMissing
    | some root =>
      let t := writeSym s.hid.outidx (symbolWord sym) s
      .next { t with
        hid := { t.hid with outidx := t.hid.outidx + 1, remain := t.hid.remain - 1#32, cur := root } }

/-- The pointer has moved to node `i` (R213): a LEAF emits its symbol, an INTERNAL node waits for the next bit. -/
def moveTo (i : Nat) (s : State) : Outcome :=
  match nodeAt s i with
  | some (.leaf sym) => emitSymbol sym { s with hid := { s.hid with cur := i } }
  | some (.internal _ _) => .next { s with hid := { s.hid with cur := i } }
  | none => .fault .nodeMissing

/-- TEXT_LEFT (R213): bit 0 selects the left child. -/
def execTextLeft (s : State) : Outcome :=
  match nodeAt s s.hid.cur with
  | some (.internal left _) => moveTo left s
  | _ => .fault .nodeMissing

/-- TEXT_RIGHT (R213): bit 1 selects the right child. -/
def execTextRight (s : State) : Outcome :=
  match nodeAt s s.hid.cur with
  | some (.internal _ right) => moveTo right s
  | _ => .fault .nodeMissing

/-- The countdown is 0: DECODE ends at once with `OUT_LEN = count` (R215, 43_commands.md R247). -/
def textDone (s : State) : State := succeed s.hid.count s

end Sys2Proof.Machine
end

