-- ==== Sys2Proof/Machine/Tree.lean ====
section
/-! DEFINITION. DESER_TREE, one token at a time: the meanings of TREE_INTERNAL, TREE_LEAF1 to TREE_LEAF4 and
TREE_LEAF_INVALID (41_tree_codec.md R184 to R188). The recursion of `Deser` is the stack `deser` (10_state.md R39). -/

namespace Sys2Proof.Machine

/-- `Deser` once the tag bit is read (R184): CapacityExceeded on a full store, else the next node number goes to `use`. -/
def allocNode (use : Nat → State → Outcome) (s : State) : Outcome :=
  if s.hid.ncount = s.caps.nodeCap then .next (raise .sym .capacityExceeded s)
  else use s.hid.ncount { s with hid := { s.hid with ncount := s.hid.ncount + 1 } }

/-- `NODES[i] <- node`. -/
def writeNode (i : Nat) (node : Node) (s : State) : State :=
  { s with hid := { s.hid with nodes := Table.put id i node s.hid.nodes } }

/-- The tree is complete with this root: a single leaf is DegenerateAlphabet (43_commands.md R247), an INTERNAL root
starts DEC_TEXT (42_text_codec.md R212). -/
def startText (root : Nat) (s : State) : Outcome :=
  match nodeAt s root with
  | some (.leaf _) => .next (raise .sym .degenerateAlphabet s)
  | some (.internal _ _) =>
    .next { s with
      seq := .decText
      hid := { s.hid with root := some root, cur := root, remain := s.hid.count, outidx := 0 } }
  | none => .fault .nodeMissing

/-- `Deser` returns node `i` to its caller (R184, R185): the waiting parent takes it as its left child and reads on, or
as its right child and is itself complete; with no parent waiting, `i` is the root. -/
def returnNode : List Frame → Nat → State → Outcome
  | [], i, s => startText i { s with hid := { s.hid with deser := [] } }
  | .awaitLeft p :: rest, i, s => .next { s with hid := { s.hid with deser := .awaitRight p i :: rest } }
  | .awaitRight p l :: rest, i, s => returnNode rest p (writeNode p (.internal l i) s)

/-- `ParseInternal(i)` (R185): the left child is read next. -/
def parseInternal (i : Nat) (s : State) : Outcome :=
  .next { s with hid := { s.hid with deser := .awaitLeft i :: s.hid.deser } }

/-- `ParseLeaf(i)` on bytes that validate (R186): a LEAF with their symbol. -/
def parseLeaf (sym : Scalar) (i : Nat) (s : State) : Outcome :=
  returnNode s.hid.deser i (writeNode i (.leaf sym) s)

/-- TREE_INTERNAL (R185). -/
def execTreeInternal (s : State) : Outcome := allocNode parseInternal s

/-- TREE_LEAF1 (R186): U+0000..U+007F. -/
def execTreeLeaf1 (x : BitVec 7) (s : State) : Outcome := allocNode (parseLeaf (leaf1Symbol x)) s

/-- TREE_LEAF2 (R186): U+0080..U+07FF. -/
def execTreeLeaf2 (y : BitVec 5) (x : BitVec 6) (s : State) : Outcome := allocNode (parseLeaf (leaf2Symbol y x)) s

/-- TREE_LEAF3 (R186): U+0800..U+FFFF but the surrogates. -/
def execTreeLeaf3 (z : BitVec 4) (y x : BitVec 6) (s : State) : Outcome := allocNode (parseLeaf (leaf3Symbol z y x)) s

/-- TREE_LEAF4 (R186): U+10000..U+10FFFF. -/
def execTreeLeaf4 (u : BitVec 5) (z : BitVec 4) (y x : BitVec 6) (s : State) : Outcome :=
  allocNode (parseLeaf (leaf4Symbol u z y x)) s

/-- TREE_LEAF_INVALID (R186): InvalidSymbolEncoding after the fourth byte; on a full store the tag bit has already raised
CapacityExceeded (R187). -/
def execTreeLeafInvalid (_payload : BitVec 32) (s : State) : Outcome :=
  allocNode (fun _ t => .next (raise .sym .invalidSymbolEncoding t)) s

end Sys2Proof.Machine
end

