-- ==== Sys2Proof/Machine/Dispatch.lean ====
section
/-! DEFINITION. The one dispatch: each instruction's meaning. -/

namespace Sys2Proof.Machine

def exec (i : Instr) (s : State) : Host.Outcome State Fault Refusal :=
  match i with
  | .encode => Sys2Proof.Machine.execEncode s
  | .decode => Sys2Proof.Machine.execDecode s
  | .illegal opword => Sys2Proof.Machine.execIllegal opword s
  | .header symbolCount => Sys2Proof.Machine.execHeader symbolCount s
  | .treeInternal => Sys2Proof.Machine.execTreeInternal s
  | .treeLeaf1 x => Sys2Proof.Machine.execTreeLeaf1 x s
  | .treeLeaf2 y x => Sys2Proof.Machine.execTreeLeaf2 y x s
  | .treeLeaf3 z y x => Sys2Proof.Machine.execTreeLeaf3 z y x s
  | .treeLeaf4 u z y x => Sys2Proof.Machine.execTreeLeaf4 u z y x s
  | .treeLeafInvalid payload => Sys2Proof.Machine.execTreeLeafInvalid payload s
  | .textLeft => Sys2Proof.Machine.execTextLeft s
  | .textRight => Sys2Proof.Machine.execTextRight s

end Sys2Proof.Machine
end

