-- ==== Sys2Proof/Machine/EncodeStages.lean ====
section
/-! DEFINITION. The stages of an ENCODE, one core step each call: COUNT, BUILD, CODES (40_frequency_and_tree.md), SIZE,
SER_TREE, ENC_TEXT and PAD (41_tree_codec.md, 42_text_codec.md, 43_commands.md R242 to R245). The recursions of the
rules are explicit stacks (10_state.md R39). How much one core step does is the model's choice (log entry 4). -/

namespace Sys2Proof.Machine

/-! ### COUNT (R140) -/

/-- `EncodeEmpty()` (43_commands.md R243): the four header bytes 0, `OUT_LEN = 4`, success. -/
def encodeEmpty (s : State) : State :=
  succeed 4#32 (writeArt 3 0x00#8 (writeArt 2 0x00#8 (writeArt 1 0x00#8 (writeArt 0 0x00#8 s))))

/-- `FREQ[c]` and the loop index move on. -/
def tally (c : Scalar) (count : Count) (s : State) : State :=
  { s with hid := { s.hid with freq := Table.put BitVec.toNat c count s.hid.freq, idx := s.hid.idx + 1 } }

/-- One turn of COUNT's loop, at index `idx` (R140): the scalar check comes before the capacity check. -/
def countSymbol (s : State) : State :=
  match wordSymbol (readSym s s.hid.idx) with
  | none => raise .art .invalidInputSymbol s
  | some c =>
    match Table.get BitVec.toNat c s.hid.freq with
    | some count => tally c (count + 1#32) s
    | none =>
      if s.hid.freq.length = s.caps.leafCap then raise .art .capacityExceeded s else tally c 1#32 s

/-- The start of ENCODE and the loop of COUNT (43_commands.md R242, R140). The tests of `lat_len` stand before the loop;
neither it nor `SYM_CAP` changes in COUNT, so making them again at each turn decides nothing new (log entry 19). -/
def countStep (s : State) : Outcome :=
  let s := { s with hid := { s.hid with n := s.hid.latLen.toNat } }
  if s.caps.symCap < s.hid.n then .next (raise .art .capacityExceeded s)
  else if s.hid.n = 0 then .next (encodeEmpty s)
  else if s.hid.idx < s.hid.n then .next (countSymbol s)
  else .next { s with seq := .build, hid := { s.hid with k := s.hid.freq.length } }

/-! ### BUILD (R142 to R146) -/

/-- The NODES entries and weights of the leaves, numbered from `j` in the order of FREQ's keys, increasing scalar value
(R142). -/
def leavesFrom : Nat → Table Scalar Count → Table Nat Node × Table Nat Count
  | _, [] => ([], [])
  | j, (c, count) :: rest =>
    ((j, .leaf c) :: (leavesFrom (j + 1) rest).1, (j, count) :: (leavesFrom (j + 1) rest).2)

/-- BUILD's first part after the degenerate check (R142). -/
def makeLeaves (s : State) : State :=
  { s with
    hid := { s.hid with
      nodes := (leavesFrom 0 s.hid.freq).1
      weights := (leavesFrom 0 s.hid.freq).2
      pq := List.range s.hid.k
      ncount := s.hid.k } }

/-- `NODES[i].weight`; every index in PQ has one. -/
def weightAt (s : State) (i : Nat) : Count := (Table.get id i s.hid.weights).getD 0#32

/-- The key of `i` is below the key of `j`: weight first, then index (R143). -/
def keyBelow (s : State) (i j : Nat) : Bool :=
  (weightAt s i).ult (weightAt s j) || (decide (weightAt s i = weightAt s j) && decide (i < j))

/-- The index with the smallest key (R143). -/
def smallest (s : State) : List Nat → Option Nat
  | [] => none
  | i :: rest =>
    match smallest s rest with
    | none => some i
    | some j => if keyBelow s i j then some i else some j

/-- `PQ.extract_min()` (R143). -/
def extractMin (s : State) : Option (Nat × State) :=
  match smallest s s.hid.pq with
  | none => none
  | some i => some (i, { s with hid := { s.hid with pq := s.hid.pq.filter (fun j => decide (j ≠ i)) } })

/-- One merge, of the two nodes just removed: the first is `left`, the second `right`, the new node's weight the sum
(R144). -/
def mergeNodes (a b : Nat) (s : State) : State :=
  { s with
    hid := { s.hid with
      nodes := Table.put id s.hid.ncount (.internal a b) s.hid.nodes
      weights := Table.put id s.hid.ncount (weightAt s a + weightAt s b) s.hid.weights
      pq := s.hid.pq ++ [s.hid.ncount]
      ncount := s.hid.ncount + 1 } }

/-- One turn of the merge loop (R144). -/
def mergeStep (s : State) : Outcome :=
  match extractMin s with
  | none => .fault .queueEmpty
  | some (a, t) =>
    match extractMin t with
    | none => .fault .queueEmpty
    | some (b, u) => .next (mergeNodes a b u)

/-- BUILD's end: the one node left is the root (R144); CODES starts its walk there (R148). -/
def takeRoot (s : State) : Outcome :=
  match extractMin s with
  | none => .fault .queueEmpty
  | some (r, t) => .next { t with seq := .codes, hid := { t.hid with root := some r, codes := [], walk := [(r, [])] } }

/-- One step of BUILD. `ncount` is 0 exactly until the leaves are made. -/
def buildStep (s : State) : Outcome :=
  if s.hid.ncount = 0 then
    if s.hid.k < 2 then .next (raise .art .degenerateAlphabet s) else .next (makeLeaves s)
  else if 2 ≤ s.hid.pq.length then mergeStep s
  else takeRoot s

/-! ### CODES (R148) -/

/-- One node of the walk: a LEAF's path is its symbol's code; an INTERNAL node's children follow, the left first. -/
def codesStep (s : State) : Outcome :=
  match s.hid.walk with
  | [] => .next { s with seq := .size }
  | (i, path) :: rest =>
    match nodeAt s i with
    | none => .fault .nodeMissing
    | some (.leaf c) =>
      .next { s with hid := { s.hid with walk := rest, codes := Table.put BitVec.toNat c path s.hid.codes } }
    | some (.internal l r) =>
      .next { s with hid := { s.hid with walk := (l, path ++ [false]) :: (r, path ++ [true]) :: rest } }

/-! ### SIZE (43_commands.md R244) -/

/-- `sum over keys s of FREQ of len(Utf8Encode(s))`. -/
def payloadLength : Table Scalar Count → Nat
  | [] => 0
  | (c, _) :: rest => (utf8Encode c).length + payloadLength rest

/-- `X = sum over keys s of FREQ of FREQ[s] * len(CODES[s])`, where every key has a code. -/
def textLength (s : State) : Table Scalar Count → Option Nat
  | [] => some 0
  | (c, count) :: rest =>
    match codeOf s c, textLength s rest with
    | some code, some x => some (count.toNat * code.length + x)
    | _, _ => none

/-- `B = ceil(bits / 8)`. -/
def bytesFor (bits : Nat) : Nat := (bits + 7) / 8

/-- SIZE (R244): the exact length, checked before any ART byte is written; then emission starts (R245). -/
def sizeStep (s : State) : Outcome :=
  match textLength s s.hid.freq, s.hid.root with
  | none, _ => .fault .codeMissing
  | some _, none => .fault .nodeMissing
  | some x, some root =>
    let total := 32 + (2 * s.hid.k - 1 + 8 * payloadLength s.hid.freq) + x
    if s.caps.artCap < bytesFor total then .next (raise .art .capacityExceeded s)
    else .next { s with seq := .serTree, hid := { s.hid with totalBits := total, wpos := 0, ser := [root] } }

/-! ### SER_TREE (R180 to R183) -/

/-- The bits of `EmitInternal` before its two subtrees (R181). -/
def internalToken : Bits := encode .treeInternal

/-- The bits of `EmitLeaf` (R182). -/
def leafToken (c : Scalar) : Bits := leafBits (utf8Encode c)

/-- The header first (43_commands.md R245), then one node of the preorder traversal a step (R180). -/
def serStep (s : State) : Outcome :=
  if s.hid.wpos = 0 then emit (natBits 32 s.hid.n) s
  else
    match s.hid.ser with
    | [] => .next { s with seq := .encText, hid := { s.hid with idx := 0 } }
    | i :: rest =>
      match nodeAt s i with
      | none => .fault .nodeMissing
      | some (.leaf c) => emit (leafToken c) { s with hid := { s.hid with ser := rest } }
      | some (.internal l r) => emit internalToken { s with hid := { s.hid with ser := l :: r :: rest } }

/-! ### ENC_TEXT (R210) and PAD (43_commands.md R245) -/

/-- One symbol of the text: its code is emitted (R210). -/
def encTextStep (s : State) : Outcome :=
  if s.hid.n ≤ s.hid.idx then .next { s with seq := .pad }
  else if s.caps.symCap ≤ s.hid.idx then .fault .symOutside
  else
    match (wordSymbol (readSym s s.hid.idx)).bind (codeOf s) with
    | none => .fault .codeMissing
    | some code => emit code { s with hid := { s.hid with idx := s.hid.idx + 1 } }

/-- PAD (R245): nothing to write; `OUT_LEN = B`, success. -/
def padStep (s : State) : State := succeed (BitVec.ofNat 32 (bytesFor s.hid.totalBits)) s

end Sys2Proof.Machine
end

