-- ==== Sys2Proof/Machine/HostBus.lean ====
section
/-! DEFINITION. The host's bus transactions but for CMD writes, and its program notation (10_state.md R21 to R29,
20_memory.md R64, R69, R70, R73, 30_encoding.md R117, R118, 70_reset_and_hazards.md R324 to R327). -/

namespace Sys2Proof.Machine

/-- The host has read `v` from the register at this offset. A STATUS read that returns `BUSY = 0` and `DONE = 1` shows it
the command's end (20_memory.md R73). Nothing in the block changes (R27). -/
def noteRead (offset : Nat) (v : Word) (s : State) : State :=
  { s with
    busData := some (.word v)
    endShown := s.endShown || (decide (offset = 0x04) && s.done && !s.busy) }

/-- `RD reg` (R21, R27): a whole word at one of the four offsets. -/
def hostRegRead (offset size : Nat) (s : State) : Outcome :=
  if size = 4 then
    match registerRead s offset with
    | some v => .next (noteRead offset v s)
    | none => .refused .registerAccess
  else .refused .registerAccess

/-- `WR reg, v` at an offset other than CMD's: IN_LEN takes the word at any time (R28, R325), STATUS and OUT_LEN ignore
it (R27). -/
def hostRegWrite (offset : Nat) (v : Word) (s : State) : Outcome :=
  match offset with
  | 0x04 => .next s
  | 0x08 => .next { s with inLen := v }
  | 0x0C => .next s
  | _ => .refused .registerAccess

/-- The host moves one cell of SYM or ART, where it may (20_memory.md R64, R73, 70_reset_and_hazards.md R324): not while
BUSY, not before a STATUS read has shown it the end of the last command, and not outside the memory. -/
def hostMemory (inside : Prop) [Decidable inside] (outside : Refusal) (moved s : State) : Outcome :=
  if s.busy then .refused .accessWhileBusy
  else if s.endShown = false then .refused .accessBeforeEndShown
  else if inside then .next moved
  else .refused outside

/-- `SYMW i, v` (R61). -/
def hostSymWrite (i : Nat) (v : Word) (s : State) : Outcome :=
  hostMemory (i < s.caps.symCap) .symIndex (writeSym i v s) s

/-- `SYMR i` (R61). -/
def hostSymRead (i : Nat) (s : State) : Outcome :=
  hostMemory (i < s.caps.symCap) .symIndex { s with busData := some (.word (readSym s i)) } s

/-- `ARTW a, b` (R62). -/
def hostArtWrite (a : Nat) (b : Byte) (s : State) : Outcome :=
  hostMemory (a < s.caps.artCap) .artIndex (writeArt a b s) s

/-- `ARTR a` (R62). -/
def hostArtRead (a : Nat) (s : State) : Outcome :=
  hostMemory (a < s.caps.artCap) .artIndex { s with busData := some (.byte (readArt s a)) } s

/-- `POLL` (R118): the host reads STATUS; while it shows BUSY the core takes a step and the host polls again. -/
def hostPoll (rest : List Input) (s : State) : State :=
  { noteRead 0x04 s.status s with
    inputs := if s.busy then .core :: .poll :: rest else rest }

/-- `WR IN_LEN, v`. -/
def wrInLen (v : Word) : Input := .host (.regWrite 0x08 4 v)

/-- `WR CMD, v`. -/
def wrCmd (v : Word) : Input := .host (.regWrite 0x00 4 v)

/-- `RUN op, len` (R118). -/
def runProgram (op len : Word) : List Input := [wrInLen len, wrCmd op, .poll]

/-- `SYMS i, "text"` (R118). -/
def symsProgram : Nat → List Scalar → List Input
  | _, [] => []
  | i, c :: rest => .host (.symWrite i (symbolWord c)) :: symsProgram (i + 1) rest

/-- `ARTS a, b0 b1 ...` (R118). -/
def artsProgram : Nat → List Byte → List Input
  | _, [] => []
  | a, b :: rest => .host (.artWrite a b) :: artsProgram (a + 1) rest

end Sys2Proof.Machine
end

