-- ==== Sys2Proof/Machine/Fetch.lean ====
section
/-! DEFINITION. What the next step is: which agent moves, and for the core which instruction or which stage of ENCODE.
The block fetches no instruction from memory (20_memory.md R76): a command word comes with the host's CMD write, and the
header, the tree tokens and the text bits come from the bit stream in ART at `rpos`. -/

namespace Sys2Proof.Machine

/-- What a step is found to be. -/
inductive Fetched where
  /-- Run this instruction at this state. -/
  | run (i : Instr) (s : State)
  /-- The step is not an instruction of the opcode table: its outcome. -/
  | done (o : Outcome)

/-- The stream ends inside the token (R66): TruncatedInput; but a tree token whose tag bit was read finds the node store
full first (41_tree_codec.md R187). -/
def streamEnd (f : Format) (s : State) : State :=
  if f = .treeToken ∧ readAhead 1 s ≠ [] ∧ s.hid.ncount = s.caps.nodeCap then raise .sym .capacityExceeded s
  else raise .sym .truncatedInput s

/-- Read the next token of the stream in this format and move `rpos` past it (R66, R67). Every byte `ReadBit` can reach
is in ART, which the test of `lat_len` in HDR guarantees (R64). -/
def fetchToken (f : Format) (s : State) : Fetched :=
  if s.caps.artCap < s.hid.latLen.toNat then .done (.fault .artOutside)
  else
    match decode f (readAhead f.maxLength s) with
    | .ok (i, len) => .run i (s.advance len)
    | .error .endOfStream => .done (.next (streamEnd f s))

/-- The start of DECODE (43_commands.md R247): the length check, `rpos <- 0`, the header. -/
def headerFetch (s : State) : Fetched :=
  if s.caps.artCap < s.hid.latLen.toNat then .done (.next (raise .sym .capacityExceeded s))
  else fetchToken .artifactHeader { s with hid := { s.hid with rpos := 0 } }

/-- The loop of DEC_TEXT (42_text_codec.md R215). -/
def textFetch (s : State) : Fetched :=
  if s.hid.remain = 0#32 then .done (.next (textDone s)) else fetchToken .textBit s

/-- The core's next step, by stage (10_state.md R31). An idle core has nothing to do. -/
def coreTurn (s : State) : Fetched :=
  match s.seq with
  | .idle => .done (.next s)
  | .count => .done (countStep s)
  | .build => .done (buildStep s)
  | .codes => .done (codesStep s)
  | .size => .done (sizeStep s)
  | .serTree => .done (serStep s)
  | .encText => .done (encTextStep s)
  | .pad => .done (.next (padStep s))
  | .hdr => headerFetch s
  | .deserTree => fetchToken .treeToken s
  | .decText => textFetch s

/-- One host transaction. A whole-word write of CMD is a command word to run (43_commands.md R240). -/
def hostAccess (tx : HostTx) (s : State) : Fetched :=
  match tx with
  | .regWrite offset size v =>
    if size = 4 then if offset = 0x00 then .run (decodeCommand v) s else .done (hostRegWrite offset v s)
    else .done (.refused .registerAccess)
  | .regRead offset size => .done (hostRegRead offset size s)
  | .symWrite i v => .done (hostSymWrite i v s)
  | .symRead i => .done (hostSymRead i s)
  | .artWrite a b => .done (hostArtWrite a b s)
  | .artRead a => .done (hostArtRead a s)

/-- The next input, or with none pending the core's turn (log entry 3). -/
def nextEvent (s : State) : Fetched :=
  match s.inputs with
  | [] => coreTurn s
  | .core :: rest => coreTurn { s with inputs := rest }
  | .host tx :: rest => hostAccess tx { s with inputs := rest }
  | .poll :: rest => .done (.next (hostPoll rest s))
  | .reset :: rest => .done (.next (resetEvent { s with inputs := rest }))

/-! ### Placing one instruction as the next one (log entry 15) -/

/-- A DECODE is running at this stage, and its stream is exactly these bits from ART byte 0 on. -/
def placeStream (stage : Seq) (bits : Bits) (s : State) : State :=
  let t := emitBits bits { s with hid := { s.hid with wpos := 0 } }
  { t with
    status := statusRunning
    seq := stage
    endShown := false
    inputs := .core :: s.inputs
    hid := { t.hid with
      wpos := s.hid.wpos
      rpos := 0
      latOp := 0x00000002#32
      latLen := BitVec.ofNat 32 (bytesFor bits.length) } }

/-- A walk stands at an INTERNAL node: the state's own if it does, else at the root of the tree with the two leaves
U+0061 and U+0062, with one symbol to go. -/
def placeWalk (s : State) : State :=
  match nodeAt s s.hid.cur with
  | some (.internal _ _) => s
  | _ =>
    { s with
      hid := { s.hid with
        nodes := [(0, .internal 1 2), (1, .leaf 0x61#21), (2, .leaf 0x62#21)]
        ncount := 3
        root := some 0
        cur := 0
        count := 1#32
        remain := 1#32
        outidx := 0 } }

/-- The state whose next step fetches and runs this token. -/
def placeToken (f : Format) (bits : Bits) (s : State) : State :=
  match f with
  | .command => { s with inputs := wrCmd (BitVec.ofNat 32 (bitsValue bits)) :: s.inputs }
  | .artifactHeader => placeStream .hdr bits s
  | .treeToken => placeStream .deserTree bits s
  | .textBit => placeStream .decText bits (placeWalk s)

end Sys2Proof.Machine
end

