-- ==== Sys2Proof/Machine/Step.lean ====
section
/-! DEFINITION. One step: the next event, and the instruction it runs if it runs one. -/

namespace Sys2Proof.Machine

/-- One step of the block and the agents around it (00_scope.md R5). -/
def step (s : State) : Host.Outcome State Fault Refusal :=
  match nextEvent s with
  | .run i t => exec i t
  | .done o => o

/-- `s` with the instruction of this table word where the next step fetches it: a command word as the host's next CMD
write, an artifact token in ART at the read cursor of a running DECODE (log entry 15). A word that is no table token
changes nothing. -/
def State.withFetchWord (s : State) (nbits w : Nat) : State :=
  match tableToken nbits w with
  | none => s
  | some (f, bits) => placeToken f bits s

end Sys2Proof.Machine
end

