-- ==== Sys2Proof/Safety.lean ====
section
/-! DEFINITION. The terms claims are stated in: what a sound state is at each stage, how a command ends, and the trees
and traces the rules speak of. -/

namespace Sys2Proof.Machine

/-! ### How a command ends -/

/-- The command ended without error (43_commands.md R251): STATUS, OUT_LEN, the idle sequencer, IN_LEN untouched. -/
structure Succeeded (len : Word) (s t : State) : Prop where
  status : t.status = 0x00000002#32
  outLen : t.outLen = len
  seq : t.seq = .idle
  inLen : t.inLen = s.inLen

/-- The command ended with this STATUS word (60_exceptions.md R290). -/
structure Failed (word : Word) (s t : State) : Prop where
  status : t.status = word
  outLen : t.outLen = 0x00000000#32
  seq : t.seq = .idle
  inLen : t.inLen = s.inLen

/-- A DECODE failed: its input memory, ART, is unchanged, and no word of its output memory, SYM, is specified any more
(R291). -/
structure DecodeFailed (word : Word) (s t : State) : Prop extends Failed word s t where
  art : t.art = s.art
  sym : ∀ i, t.sym.written i = none

/-- An ENCODE failed: SYM is unchanged, and no byte of ART is specified any more (R291). -/
structure EncodeFailed (word : Word) (s t : State) : Prop extends Failed word s t where
  sym : t.sym = s.sym
  art : ∀ a, t.art.written a = none

/-- What no step of a command changes: the host's side, the capacities. -/
structure OutsideKept (s t : State) : Prop where
  inputs : t.inputs = s.inputs
  busData : t.busData = s.busData
  endShown : t.endShown = s.endShown
  caps : t.caps = s.caps

/-! ### Sound states -/

/-- The host-visible registers hang together (10_state.md R23, R29, R31), and the end of a running command has not been seen
(20_memory.md R73). -/
structure RegistersOk (s : State) : Prop where
  status_legal : s.status ∈ legalStatus
  idle_iff : s.seq = .idle ↔ s.busy = false
  outLen_zero : s.busy = true → s.outLen = 0x00000000#32
  end_unseen : s.busy = true → s.endShown = false

/-- The memories are in canonical form, inside their address space, and every draw is an earlier one than the next. -/
structure MemoriesOk (s : State) : Prop where
  sym_wf : s.sym.wf
  art_wf : s.art.wf
  sym_below : ∀ c ∈ s.sym.cells, c.1 < s.caps.symCap
  art_below : ∀ c ∈ s.art.cells, c.1 < s.caps.artCap
  sym_epoch : s.sym.epoch < s.draws
  art_epoch : s.art.epoch < s.draws

/-- NODES `i` has been written. -/
def Present (s : State) (i : Nat) : Prop := (nodeAt s i).isSome = true

/-- The children of every INTERNAL entry have been written. -/
def Closed (s : State) : Prop :=
  ∀ i l r, nodeAt s i = some (.internal l r) → Present s l ∧ Present s r

/-- The node a frame of DESER_TREE's stack waits to complete. -/
def Frame.parent : Frame → Nat
  | .awaitLeft p => p
  | .awaitRight p _ => p

/-- DESER_TREE between two tokens (41_tree_codec.md R184, R185). -/
structure TreeReading (s : State) : Prop where
  closed : Closed s
  present_lt : ∀ i, Present s i → i < s.hid.ncount
  parent_lt : ∀ f ∈ s.hid.deser, f.parent < s.hid.ncount
  written : ∀ i, i < s.hid.ncount → Present s i ∨ ∃ f ∈ s.hid.deser, f.parent = i
  left_present : ∀ p l, Frame.awaitRight p l ∈ s.hid.deser → Present s l
  pending : s.hid.ncount = 0 ∨ s.hid.deser ≠ []

/-- DEC_TEXT between two bits (42_text_codec.md R212 to R216): the walk stands at an INTERNAL node of a full tree. -/
structure TextWalking (s : State) : Prop where
  closed : Closed s
  all_present : ∀ i, Present s i ↔ i < s.hid.ncount
  root_internal : ∃ root l r, s.hid.root = some root ∧ nodeAt s root = some (.internal l r)
  cur_internal : ∃ l r, nodeAt s s.hid.cur = some (.internal l r)
  countdown : s.hid.remain.toNat + s.hid.outidx = s.hid.count.toNat

/-- The stream and the counts of a DECODE past its header (20_memory.md R66, 43_commands.md R247, R248). -/
structure StreamOk (s : State) : Prop where
  input_fits : s.hid.latLen.toNat ≤ s.caps.artCap
  cursor_le : s.hid.rpos ≤ 8 * s.hid.latLen.toNat
  count_pos : 1 ≤ s.hid.count.toNat
  count_le : s.hid.count.toNat ≤ s.caps.symCap
  nodes_le : s.hid.ncount ≤ s.caps.nodeCap

/-- A DECODE at each of its stages. -/
structure DecodeOk (s : State) : Prop where
  header : s.seq = .hdr → s.hid.ncount = 0 ∧ s.hid.nodes = [] ∧ s.hid.deser = []
  stream : s.seq = .deserTree ∨ s.seq = .decText → StreamOk s
  tree : s.seq = .deserTree → TreeReading s
  text : s.seq = .decText → TextWalking s

/-- How many of the SYM indices `0 .. m-1` hold the symbol `c`. -/
def occurrences (s : State) (m : Nat) (c : Scalar) : Nat :=
  ((List.range m).filter fun i => decide (readSym s i = symbolWord c)).length

/-- COUNT between two indices (40_frequency_and_tree.md R140, R141): FREQ counts the words read so far. -/
structure Counting (s : State) : Prop where
  sorted : Table.Sorted BitVec.toNat s.hid.freq
  size_le : s.hid.freq.length ≤ s.caps.leafCap
  idx_le : s.hid.idx ≤ s.hid.latLen.toNat
  in_range : s.hid.idx = 0 ∨ s.hid.latLen.toNat ≤ s.caps.symCap
  scalars : ∀ i, i < s.hid.idx → isScalar (readSym s i).toNat = true
  counts : ∀ c : Scalar, isScalar c.toNat = true → Table.get BitVec.toNat c s.hid.freq =
    if occurrences s s.hid.idx c = 0 then none else some (BitVec.ofNat 32 (occurrences s s.hid.idx c))
  keys : ∀ e ∈ s.hid.freq, isScalar e.1.toNat = true

/-- COUNT is sound while it runs. -/
def CountOk (s : State) : Prop := s.seq = .count → Counting s

/-- Node `p` is INTERNAL and `c` is one of its children. -/
def ParentOf (s : State) (p c : Nat) : Prop := ∃ l r, nodeAt s p = some (.internal l r) ∧ (c = l ∨ c = r)

/-- The nodes of an ENCODE once its leaves are made (40_frequency_and_tree.md R142, R145): exactly the indices below
`ncount`, the first `k` of them the leaves of FREQ's keys in rising order, the rest INTERNAL with two different children
made earlier, and no node the child of two parents (10_state.md R36). -/
structure NodesBuilt (s : State) : Prop where
  two_symbols : 2 ≤ s.hid.k
  keys_counted : s.hid.k = s.hid.freq.length
  keys_rising : Table.Sorted BitVec.toNat s.hid.freq
  leaf_keys : ∀ j (h : j < s.hid.freq.length), nodeAt s j = some (.leaf (s.hid.freq[j]).1)
  leaves_made : s.hid.k ≤ s.hid.ncount
  present_iff : ∀ i, Present s i ↔ i < s.hid.ncount
  leaf_iff : ∀ i, i < s.hid.ncount → (i < s.hid.k ↔ ∃ c, nodeAt s i = some (.leaf c))
  children_below : ∀ i l r, nodeAt s i = some (.internal l r) → l < i ∧ r < i ∧ l ≠ r
  one_parent : ∀ p q c, ParentOf s p c → ParentOf s q c → p = q

/-- BUILD between two merges: each merge takes one entry from PQ on balance and adds one node (R144, R145), and PQ holds
exactly the nodes without a parent. -/
structure Merging (s : State) : Prop where
  built : NodesBuilt s
  balance : s.hid.ncount + s.hid.pq.length = 2 * s.hid.k
  pq_rising : s.hid.pq.Pairwise (· < ·)
  pq_below : ∀ i ∈ s.hid.pq, i < s.hid.ncount
  newest : s.hid.ncount - 1 ∈ s.hid.pq
  parentless : ∀ c, c < s.hid.ncount → (c ∈ s.hid.pq ↔ ∀ p, ¬ ParentOf s p c)

/-- The tree BUILD leaves (R145), the root the only node without a parent, and the traversals over it. -/
structure TreeBuilt (s : State) : Prop where
  built : NodesBuilt s
  node_count : s.hid.ncount = 2 * s.hid.k - 1
  root_last : s.hid.root = some (2 * s.hid.k - 2)
  parentless : ∀ c, c < s.hid.ncount → (s.hid.root = some c ↔ ∀ p, ¬ ParentOf s p c)
  walk_below : ∀ e ∈ s.hid.walk, e.1 < s.hid.ncount
  ser_below : ∀ i ∈ s.hid.ser, i < s.hid.ncount

/-- BUILD and the stages after it are sound while they run. -/
structure BuildOk (s : State) : Prop where
  count : s.seq = .count → s.hid.ncount = 0 ∧ s.hid.nodes = [] ∧ s.hid.walk = [] ∧ s.hid.ser = []
    ∧ Table.Sorted BitVec.toNat s.hid.freq
  build : s.seq = .build → s.hid.walk = [] ∧ s.hid.ser = []
    ∧ (s.hid.ncount = 0 ∧ s.hid.k = s.hid.freq.length ∧ Table.Sorted BitVec.toNat s.hid.freq ∨ Merging s)
  tree : s.seq = .codes ∨ s.seq = .size ∨ s.seq = .serTree ∨ s.seq = .encText ∨ s.seq = .pad → TreeBuilt s

/-- No bit string of the list is a prefix of another (00_scope.md R11). -/
def PrefixFree (l : List Bits) : Prop := l.Pairwise fun a b => ¬ a <+: b ∧ ¬ b <+: a

/-- From CODES on, the codes made so far and the paths still to walk are prefix-free together (R149). -/
def CodesOk (s : State) : Prop :=
  s.seq = .codes ∨ s.seq = .size ∨ s.seq = .serTree ∨ s.seq = .encText ∨ s.seq = .pad →
    PrefixFree (s.hid.codes.map Prod.snd ++ s.hid.walk.map Prod.snd)

/-! ### Trees and leaf tokens -/

/-- A full binary tree of symbols (00_scope.md R11). -/
inductive SymTree where
  | leaf (c : Scalar)
  | node (left right : SymTree)
deriving DecidableEq, Repr

/-- The serialized tree, preorder (30_encoding.md R104). -/
def SymTree.bits : SymTree → Bits
  | .leaf c => leafToken c
  | .node l r => false :: (l.bits ++ r.bits)

/-- The number of nodes. -/
def SymTree.size : SymTree → Nat
  | .leaf _ => 1
  | .node l r => 1 + l.size + r.size

/-- Every leaf carries a scalar value (R107). -/
def SymTree.scalars : SymTree → Prop
  | .leaf c => isScalar c.toNat = true
  | .node l r => l.scalars ∧ r.scalars

/-- NODES holds this tree from index `i` down. -/
def HoldsTree (s : State) : Nat → SymTree → Prop
  | i, .leaf c => nodeAt s i = some (.leaf c)
  | i, .node l r => ∃ a b, nodeAt s i = some (.internal a b) ∧ HoldsTree s a l ∧ HoldsTree s b r

/-- The symbol a leaf token carries. -/
def tokenSymbol : Instr → Option Scalar
  | .treeLeaf1 x => some (leaf1Symbol x)
  | .treeLeaf2 y x => some (leaf2Symbol y x)
  | .treeLeaf3 z y x => some (leaf3Symbol z y x)
  | .treeLeaf4 u z y x => some (leaf4Symbol u z y x)
  | _ => none

/-- The first `j` bytes after the tag bit at `rpos`, as `ReadBits(8)` reads them (41_tree_codec.md R186). -/
def leafPrefix (s : State) (j : Nat) : List Byte :=
  (List.range j).map fun m =>
    BitVec.ofNat 8 (bitsValue ((List.range 8).map fun q => streamBit s (s.hid.rpos + 1 + 8 * m + q)))

/-- The bits of the byte being filled that are not emitted yet are 0 (20_memory.md R65, 30_encoding.md R112). -/
def ZeroPadded (s : State) : Prop :=
  ∀ p, s.hid.wpos ≤ p → p < 8 * bytesFor s.hid.wpos → streamBit s p = false

/-- The stages of an ENCODE (10_state.md R31). -/
def encodeStages : List Seq := [.count, .build, .codes, .size, .serTree, .encText, .pad]

/-- The stages of a DECODE (10_state.md R31). -/
def decodeStages : List Seq := [.hdr, .deserTree, .decText]

/-! ### Hidden state that matters -/

/-- The hidden state with every register and store put to a fixed value that the stage writes before it reads it (10_state.md
R33, R40): what is left can still influence the command. -/
def liveHidden (stage : Seq) (h : Hidden) : Hidden :=
  match stage with
  | .idle => Hidden.zero
  | .count =>
    { Hidden.zero with
      latLen := h.latLen, idx := h.idx, freq := h.freq, ncount := h.ncount, nodes := h.nodes, weights := h.weights,
      pq := h.pq }
  | .build =>
    { Hidden.zero with
      n := h.n, k := h.k, freq := h.freq, ncount := h.ncount, nodes := h.nodes, weights := h.weights, pq := h.pq }
  | .codes =>
    { Hidden.zero with
      n := h.n, k := h.k, freq := h.freq, root := h.root, nodes := h.nodes, codes := h.codes, walk := h.walk }
  | .size =>
    { Hidden.zero with n := h.n, k := h.k, freq := h.freq, root := h.root, nodes := h.nodes, codes := h.codes }
  | .serTree =>
    { Hidden.zero with
      n := h.n, totalBits := h.totalBits, wpos := h.wpos, nodes := h.nodes, codes := h.codes, ser := h.ser }
  | .encText => { Hidden.zero with n := h.n, totalBits := h.totalBits, wpos := h.wpos, codes := h.codes, idx := h.idx }
  | .pad => { Hidden.zero with totalBits := h.totalBits }
  | .hdr => { Hidden.zero with latLen := h.latLen, ncount := h.ncount, nodes := h.nodes, deser := h.deser }
  | .deserTree =>
    { Hidden.zero with
      latLen := h.latLen, rpos := h.rpos, count := h.count, ncount := h.ncount, nodes := h.nodes, deser := h.deser }
  | .decText =>
    { Hidden.zero with
      latLen := h.latLen, rpos := h.rpos, count := h.count, root := h.root, cur := h.cur, remain := h.remain,
      outidx := h.outidx, nodes := h.nodes }

/-- The state with only the hidden state that matters at its stage. -/
def State.live (s : State) : State := { s with hid := liveHidden s.seq s.hid }

/-- Two outcomes that differ at most in hidden state that does not matter. -/
def sameOutcome : Outcome → Outcome → Prop
  | .next t, .next u => t.live = u.live
  | .fault f, .fault g => f = g
  | .refused r, .refused q => r = q
  | _, _ => False

end Sys2Proof.Machine
end

