-- ==== Sys2Proof/Certificates/Slice0/Obligations.lean ====
section
/-! DEFINITION. The statements for the provers. Each docstring names the rules of spec/ it formalises; where a clause
rests on the model's own choice it names the log entry. `s.inputs = []` says that the core moves next (log entry 3), and how
much of a stage one core step does is the model's choice (log entry 4). -/

open Sys2Proof Sys2Proof.Machine

/-! ### Encodings -/

/-- Some words written out from 30_encoding.md R101, R103, R106, R116 and the worked examples of 41_tree_codec.md R182, R185,
R186 decode to the instructions they stand for. -/
def Obligations.KnownWordsDecode : Prop :=
  decodeCommand 0x00000001#32 = .encode
  ∧ decodeCommand 0x00000002#32 = .decode
  ∧ decodeCommand 0x80000001#32 = .illegal 0x80000001#32
  ∧ decode .artifactHeader (natBits 32 0x0000000B) = .ok (.header 11#32, 32)
  ∧ decode .treeToken [false] = .ok (.treeInternal, 1)
  ∧ decode .treeToken (natBits 9 0b101100001) = .ok (.treeLeaf1 0x61#7, 9)
  ∧ decode .treeToken (natBits 17 0b11100001110101001) = .ok (.treeLeaf2 0b00011#5 0b101001#6, 17)
  ∧ decode .treeToken (natBits 25 0b1111000101000001010101100) = .ok (.treeLeaf3 0b0010#4 0b000010#6 0b101100#6, 25)
  ∧ decode .treeToken (natBits 33 0b111110000100111111001100010000000)
      = .ok (.treeLeaf4 0b00001#5 0b1111#4 0b011000#6 0b000000#6, 33)
  ∧ decode .treeToken (natBits 33 0x1FFFFFFFF) = .ok (.treeLeafInvalid 0xFFFFFFFF#32, 33)
  ∧ decode .textBit [false] = .ok (.textLeft, 1)
  ∧ decode .textBit [true] = .ok (.textRight, 1)

/-- Decode and encode agree for every well-formed instruction, whatever bits follow (30_encoding.md R101, R103, R104, R106,
R111). -/
def Obligations.EncodeThenDecode : Prop :=
  ∀ (i : Instr) (rest : Bits), i.wellFormed = true → decode i.format (encode i ++ rest) = .ok (i, i.bitLength)

/-- What the decoder accepts is a well-formed instruction of the format asked for, and re-encodes to the bits it was read
from (R101 to R111): no two encodings share a meaning. -/
def Obligations.DecodeThenEncode : Prop :=
  ∀ (f : Format) (bits : Bits) (i : Instr) (n : Nat), decode f bits = .ok (i, n) →
    i.wellFormed = true ∧ i.format = f ∧ n = i.bitLength ∧ encode i = bits.take n

/-- R110: the decode arithmetic by the number of bytes, and it inverts `Utf8Encode`. -/
def Obligations.Utf8DecodeRule : Prop :=
  (∀ bytes : List Byte, utf8ValidSingle bytes = true →
    ∃ s : Scalar, utf8Decode bytes = some s ∧ isScalar s.toNat = true ∧ utf8Encode s = bytes)
  ∧ (∀ bytes : List Byte, utf8ValidSingle bytes = false → utf8Decode bytes = none)
  ∧ (∀ (b1 : Byte) (s : Scalar), utf8Decode [b1] = some s → s.toNat = b1.toNat)
  ∧ (∀ (b1 b2 : Byte) (s : Scalar), utf8Decode [b1, b2] = some s →
      s.toNat = (b1.toNat - 0xC0) * 2 ^ 6 + (b2.toNat - 0x80))
  ∧ (∀ (b1 b2 b3 : Byte) (s : Scalar), utf8Decode [b1, b2, b3] = some s →
      s.toNat = (b1.toNat - 0xE0) * 2 ^ 12 + (b2.toNat - 0x80) * 2 ^ 6 + (b3.toNat - 0x80))
  ∧ (∀ (b1 b2 b3 b4 : Byte) (s : Scalar), utf8Decode [b1, b2, b3, b4] = some s →
      s.toNat = (b1.toNat - 0xF0) * 2 ^ 18 + (b2.toNat - 0x80) * 2 ^ 12 + (b3.toNat - 0x80) * 2 ^ 6
        + (b4.toNat - 0x80))

/-- R109 and R111: every scalar's encoding validates; a valid sequence has the length its first byte fixes, one to four, so two
valid sequences with one first byte are equally long; and no shorter prefix of a valid sequence validates. All but the first
clause is what R111 derives from R109. -/
def Obligations.LeadByteFixesLength : Prop :=
  (∀ c : Scalar, isScalar c.toNat = true → utf8ValidSingle (utf8Encode c) = true)
  ∧ (∀ bytes : List Byte, utf8ValidSingle bytes = true →
      1 ≤ bytes.length ∧ bytes.length ≤ 4 ∧ ∀ j, j < bytes.length → utf8ValidSingle (bytes.take j) = false)
  ∧ (∀ (b : Byte) (rest : List Byte), utf8ValidSingle (b :: rest) = true →
      b.toNat ≤ 0x7F ∧ rest.length = 0
      ∨ 0xC2 ≤ b.toNat ∧ b.toNat ≤ 0xDF ∧ rest.length = 1
      ∨ 0xE0 ≤ b.toNat ∧ b.toNat ≤ 0xEF ∧ rest.length = 2
      ∨ 0xF0 ≤ b.toNat ∧ b.toNat ≤ 0xF4 ∧ rest.length = 3)
  ∧ ∀ (b : Byte) (rest other : List Byte), utf8ValidSingle (b :: rest) = true → utf8ValidSingle (b :: other) = true →
      rest.length = other.length

/-- R182 and R186: a well-formed leaf token carries a scalar value and its payload is that value's UTF-8 encoding; and
every scalar value has such a token. -/
def Obligations.LeafTokensCarryScalars : Prop :=
  (∀ (i : Instr) (c : Scalar), i.wellFormed = true → tokenSymbol i = some c →
    isScalar c.toNat = true ∧ encode i = true :: (utf8Encode c).flatMap bitsOf)
  ∧ ∀ c : Scalar, isScalar c.toNat = true → ∃ i : Instr, i.wellFormed = true ∧ tokenSymbol i = some c

/-! ### What a step runs -/

/-- R240: a host write of a whole word to CMD changes nothing while BUSY, and otherwise runs ENCODE, DECODE or ILLEGAL. -/
def Obligations.StepRunsCommandWord : Prop :=
  ∀ (s : State) (v : Word) (rest : List Input), s.inputs = .host (.regWrite 0x00 4 v) :: rest →
    step s = exec (decodeCommand v) { s with inputs := rest }
    ∧ (s.busy = true → step s = .next { s with inputs := rest })
    ∧ (s.busy = false →
        (v = 0x00000001#32 → step s = exec .encode { s with inputs := rest })
        ∧ (v = 0x00000002#32 → step s = exec .decode { s with inputs := rest })
        ∧ (v ≠ 0x00000001#32 → v ≠ 0x00000002#32 → step s = exec (.illegal v) { s with inputs := rest }))

/-- At a stage of DECODE the core's step decodes the bits at `rpos` in the stage's format and runs the instruction they
stand for, `rpos` moved past it (R66, R184, R213, R247; the order of the agents is log entry 3). -/
def Obligations.StepRunsStreamToken : Prop :=
  ∀ (s t : State) (i : Instr) (len : Nat),
    (s.inputs = [] ∧ t = s ∨ ∃ rest, s.inputs = .core :: rest ∧ t = { s with inputs := rest }) →
    s.hid.latLen.toNat ≤ s.caps.artCap →
    (s.seq = .hdr → decode .artifactHeader (readAhead 32 { t with hid := { t.hid with rpos := 0 } }) = .ok (i, len) →
      step s = exec i { t with hid := { t.hid with rpos := len } })
    ∧ (s.seq = .deserTree → decode .treeToken (readAhead 33 t) = .ok (i, len) →
      step s = exec i { t with hid := { t.hid with rpos := t.hid.rpos + len } })
    ∧ (s.seq = .decText → s.hid.remain ≠ 0#32 → decode .textBit (readAhead 1 t) = .ok (i, len) →
      step s = exec i { t with hid := { t.hid with rpos := t.hid.rpos + len } })

/-! ### Command words -/

/-- R241: while idle, ENCODE and DECODE accept: the command word and IN_LEN are copied, STATUS is BUSY alone, OUT_LEN 0, the
stores are empty, and the stage is COUNT or HDR. That the model's own stacks, weights and loop index start empty too is log
entries 11 and 12; that the end is not seen yet is log entry 24. -/
def Obligations.AcceptRule : Prop :=
  ∀ s : State, s.busy = false →
    exec .encode s = .next { s with
      status := 0x00000001#32, outLen := 0x00000000#32, seq := .count, endShown := false,
      hid := { s.hid with
        latOp := 0x00000001#32, latLen := s.inLen, root := none, ncount := 0, freq := [], nodes := [], weights := [],
        pq := [], codes := [], idx := 0, walk := [], ser := [], deser := [] } }
    ∧ exec .decode s = .next { s with
      status := 0x00000001#32, outLen := 0x00000000#32, seq := .hdr, endShown := false,
      hid := { s.hid with
        latOp := 0x00000002#32, latLen := s.inLen, root := none, ncount := 0, freq := [], nodes := [], weights := [],
        pq := [], codes := [], idx := 0, walk := [], ser := [], deser := [] } }

/-- R252: an illegal command word while idle ends at once with STATUS 0x62 and OUT_LEN 0, and nothing else changes. -/
def Obligations.IllegalCommandRule : Prop :=
  ∀ (s : State) (opword : Word), s.busy = false →
    exec (.illegal opword) s = .next { s with status := 0x00000062#32, outLen := 0x00000000#32 }

/-- R240 and R326: while BUSY no command word does anything. -/
def Obligations.CommandsIgnoredWhileBusy : Prop :=
  ∀ (i : Instr) (s : State), i.format = .command → s.busy = true → exec i s = .next s

/-- The frame of the three command words: no memory word or byte, not IN_LEN, nothing outside the block, and no working
register but those Accept writes (R241, R252). Whether a command's end was seen stays but where a command is accepted (log
entry 24). -/
def Obligations.CommandFrame : Prop :=
  ∀ (i : Instr) (s t : State), i.format = .command → exec i s = .next t →
    (∀ j, readSym t j = readSym s j) ∧ (∀ a, readArt t a = readArt s a) ∧ t.inLen = s.inLen
    ∧ t.inputs = s.inputs ∧ t.busData = s.busData ∧ t.caps = s.caps
    ∧ (s.busy = true ∨ i ≠ .encode ∧ i ≠ .decode → t.endShown = s.endShown)
    ∧ t.draws = s.draws
    ∧ t.hid.n = s.hid.n ∧ t.hid.k = s.hid.k ∧ t.hid.wpos = s.hid.wpos ∧ t.hid.rpos = s.hid.rpos
    ∧ t.hid.count = s.hid.count ∧ t.hid.cur = s.hid.cur ∧ t.hid.remain = s.hid.remain
    ∧ t.hid.outidx = s.hid.outidx ∧ t.hid.totalBits = s.hid.totalBits

/-! ### The header of a DECODE -/

/-- R248 and R249: HEADER with count 0 succeeds with OUT_LEN 0, with a count above SYM_CAP fails with CapacityExceeded, and
with any other stores the count and goes on with the tree. -/
def Obligations.HeaderCompletes : Prop :=
  ∀ (s : State) (c : Word),
    (c = 0#32 → ∃ t, exec (.header c) s = .next t ∧ Succeeded 0x00000000#32 s t ∧ t.sym = s.sym ∧ t.art = s.art)
    ∧ (s.caps.symCap < c.toNat → ∃ t, exec (.header c) s = .next t ∧ DecodeFailed 0x00000042#32 s t)
    ∧ (c ≠ 0#32 → c.toNat ≤ s.caps.symCap →
      exec (.header c) s = .next { s with seq := .deserTree, hid := { s.hid with count := c } })

/-- The frame of HEADER: no ART byte; no SYM word but where the command fails; STATUS and OUT_LEN only where it ends. -/
def Obligations.HeaderFrame : Prop :=
  ∀ (s t : State) (c : Word), exec (.header c) s = .next t →
    (∀ a, readArt t a = readArt s a) ∧ t.inLen = s.inLen ∧ OutsideKept s t
    ∧ (c.toNat ≤ s.caps.symCap → ∀ j, readSym t j = readSym s j)
    ∧ (c ≠ 0#32 → c.toNat ≤ s.caps.symCap → t.status = s.status ∧ t.outLen = s.outLen ∧ t.draws = s.draws)

/-- R248 at the stage HDR, with the length check of R247: `count` is the four ART bytes, big-endian; fewer than four bytes
are TruncatedInput; a count above SYM_CAP is CapacityExceeded before the tree is read. The big-endian sum is also what R103
derives. -/
def Obligations.HeaderStageRule : Prop :=
  ∀ s : State, s.inputs = [] → s.seq = .hdr →
    (s.caps.artCap < s.hid.latLen.toNat → ∃ t, step s = .next t ∧ DecodeFailed 0x00000042#32 s t)
    ∧ (s.hid.latLen.toNat ≤ s.caps.artCap → s.hid.latLen.toNat < 4 →
      ∃ t, step s = .next t ∧ DecodeFailed 0x00000012#32 s t)
    ∧ (s.hid.latLen.toNat ≤ s.caps.artCap → 4 ≤ s.hid.latLen.toNat → ∀ c : Word,
      c.toNat = (readArt s 0).toNat * 2 ^ 24 + (readArt s 1).toNat * 2 ^ 16 + (readArt s 2).toNat * 2 ^ 8
        + (readArt s 3).toNat →
      step s = exec (.header c) { s with hid := { s.hid with rpos := 32 } }
      ∧ (c = 0#32 → ∃ t, step s = .next t ∧ Succeeded 0x00000000#32 s t ∧ t.sym = s.sym ∧ t.art = s.art)
      ∧ (s.caps.symCap < c.toNat → ∃ t, step s = .next t ∧ DecodeFailed 0x00000042#32 s t))

/-! ### Tree tokens -/

/-- R184 and R185: TREE_INTERNAL takes the next node number and reads its left child next; nothing else changes. The stack
is the model's form of the recursion (R39, log entry 11). -/
def Obligations.TreeInternalCompletes : Prop :=
  ∀ s : State, s.hid.ncount ≠ s.caps.nodeCap →
    exec .treeInternal s = .next { s with
      hid := { s.hid with ncount := s.hid.ncount + 1, deser := .awaitLeft s.hid.ncount :: s.hid.deser } }

/-- R184 to R186, 43_commands.md R247, 42_text_codec.md R212: TREE_LEAF1 to TREE_LEAF4 make the next node a LEAF with the
token's symbol and give it to the parent that waits: as its left child; as its right child, which completes the parent
and gives it to the next one; as the whole tree, which is DegenerateAlphabet; or as the last node, which starts DEC_TEXT
(log entry 11 for the stack). -/
def Obligations.LeafTokensComplete : Prop :=
  ∀ (i : Instr) (c : Scalar) (s : State), tokenSymbol i = some c → s.hid.ncount ≠ s.caps.nodeCap →
    (s.hid.deser = [] → ∃ t, exec i s = .next t ∧ DecodeFailed 0x00000032#32 s t)
    ∧ (∀ p rest, s.hid.deser = .awaitLeft p :: rest → exec i s = .next { s with
        hid := { s.hid with
          ncount := s.hid.ncount + 1
          nodes := Table.put id s.hid.ncount (.leaf c) s.hid.nodes
          deser := .awaitRight p s.hid.ncount :: rest } })
    ∧ (∀ p l q rest, s.hid.deser = .awaitRight p l :: .awaitLeft q :: rest → exec i s = .next { s with
        hid := { s.hid with
          ncount := s.hid.ncount + 1
          nodes := Table.put id p (.internal l s.hid.ncount) (Table.put id s.hid.ncount (.leaf c) s.hid.nodes)
          deser := .awaitRight q p :: rest } })
    ∧ (∀ p l, s.hid.deser = [.awaitRight p l] → exec i s = .next { s with
        seq := .decText
        hid := { s.hid with
          ncount := s.hid.ncount + 1
          nodes := Table.put id p (.internal l s.hid.ncount) (Table.put id s.hid.ncount (.leaf c) s.hid.nodes)
          deser := []
          root := some p
          cur := p
          remain := s.hid.count
          outidx := 0 } })

/-- R184 to R187: every tree token gives a next state in every state, none stops the machine; on a full node store it ends
the command with CapacityExceeded. -/
def Obligations.TreeTokensNeverStop : Prop :=
  ∀ (i : Instr) (s : State), i.format = .treeToken →
    ∃ t, exec i s = .next t ∧ (s.hid.ncount = s.caps.nodeCap → DecodeFailed 0x00000042#32 s t)

/-- R186 and 60_exceptions.md R282: TREE_LEAF_INVALID ends the command with InvalidSymbolEncoding. -/
def Obligations.InvalidLeafRule : Prop :=
  ∀ (s : State) (b : BitVec 32), s.hid.ncount ≠ s.caps.nodeCap →
    ∃ t, exec (.treeLeafInvalid b) s = .next t ∧ DecodeFailed 0x00000022#32 s t

/-- R187, at the stage DESER_TREE: a tag bit beyond the stream is TruncatedInput even on a full store; with the tag bit read
a full store is CapacityExceeded whatever follows; a leaf whose bytes so far never validate is TruncatedInput where the
next byte is missing, and InvalidSymbolEncoding where four bytes are there. R187 derives this order from R184 to R186. -/
def Obligations.DeserErrorOrder : Prop :=
  ∀ s : State, s.inputs = [] → s.seq = .deserTree → s.hid.latLen.toNat ≤ s.caps.artCap →
    (8 * s.hid.latLen.toNat ≤ s.hid.rpos → ∃ t, step s = .next t ∧ DecodeFailed 0x00000012#32 s t)
    ∧ (s.hid.rpos < 8 * s.hid.latLen.toNat → s.hid.ncount = s.caps.nodeCap →
      ∃ t, step s = .next t ∧ DecodeFailed 0x00000042#32 s t)
    ∧ (s.hid.ncount ≠ s.caps.nodeCap → s.hid.rpos < 8 * s.hid.latLen.toNat → streamBit s s.hid.rpos = true →
      (∀ j, j < 4 → s.hid.rpos + 1 + 8 * j ≤ 8 * s.hid.latLen.toNat →
        8 * s.hid.latLen.toNat < s.hid.rpos + 1 + 8 * (j + 1) →
        (∀ m, 1 ≤ m → m ≤ j → utf8ValidSingle (leafPrefix s m) = false) →
        ∃ t, step s = .next t ∧ DecodeFailed 0x00000012#32 s t)
      ∧ (s.hid.rpos + 33 ≤ 8 * s.hid.latLen.toNat →
        (∀ m, 1 ≤ m → m ≤ 4 → utf8ValidSingle (leafPrefix s m) = false) →
        ∃ t, step s = .next t ∧ DecodeFailed 0x00000022#32 s t))

/-- The frame of the tree tokens: no ART byte ever; while the command goes on no SYM word, not STATUS, not OUT_LEN, and of
the working registers only `ncount`, NODES, the stack and, where the tree is complete, the registers DEC_TEXT starts
from (R184 to R186, R212). -/
def Obligations.TreeFrame : Prop :=
  ∀ (i : Instr) (s t : State), i.format = .treeToken → exec i s = .next t →
    (∀ a, readArt t a = readArt s a) ∧ t.inLen = s.inLen ∧ OutsideKept s t
    ∧ (t.seq ≠ .idle →
      (∀ j, readSym t j = readSym s j) ∧ t.status = s.status ∧ t.outLen = s.outLen ∧ t.draws = s.draws
      ∧ t.hid.latOp = s.hid.latOp ∧ t.hid.latLen = s.hid.latLen ∧ t.hid.n = s.hid.n ∧ t.hid.k = s.hid.k
      ∧ t.hid.wpos = s.hid.wpos ∧ t.hid.rpos = s.hid.rpos ∧ t.hid.count = s.hid.count
      ∧ t.hid.totalBits = s.hid.totalBits ∧ t.hid.freq = s.hid.freq ∧ t.hid.codes = s.hid.codes
      ∧ t.hid.pq = s.hid.pq ∧ t.hid.weights = s.hid.weights
      ∧ t.hid.ncount = s.hid.ncount + 1
      ∧ (t.seq = .decText ∨ t.seq = s.seq ∧ t.hid.root = s.hid.root ∧ t.hid.cur = s.hid.cur
          ∧ t.hid.remain = s.hid.remain ∧ t.hid.outidx = s.hid.outidx))

/-! ### Text bits -/

/-- R213: a text bit whose child is INTERNAL only moves the current-node pointer there, 0 to the left, 1 to the right. -/
def Obligations.TextMoveCompletes : Prop :=
  ∀ (s : State) (l r : Nat), nodeAt s s.hid.cur = some (.internal l r) →
    (∀ a b, nodeAt s l = some (.internal a b) → exec .textLeft s = .next { s with hid := { s.hid with cur := l } })
    ∧ (∀ a b, nodeAt s r = some (.internal a b) → exec .textRight s = .next { s with hid := { s.hid with cur := r } })

/-- R213 and R214: a text bit whose child is a LEAF writes its symbol at `outidx`, counts down, and returns to the root. -/
def Obligations.TextLeafCompletes : Prop :=
  ∀ (s : State) (l r root : Nat) (c : Scalar), nodeAt s s.hid.cur = some (.internal l r) → s.hid.root = some root →
    s.hid.outidx < s.caps.symCap →
    (nodeAt s l = some (.leaf c) → exec .textLeft s = .next { s with
      sym := s.sym.write s.hid.outidx (c.setWidth 32)
      hid := { s.hid with outidx := s.hid.outidx + 1, remain := s.hid.remain - 1#32, cur := root } })
    ∧ (nodeAt s r = some (.leaf c) → exec .textRight s = .next { s with
      sym := s.sym.write s.hid.outidx (c.setWidth 32)
      hid := { s.hid with outidx := s.hid.outidx + 1, remain := s.hid.remain - 1#32, cur := root } })

/-- The frame of the text bits: of the memories at most the SYM word at `outidx`, which then reads as a scalar's word; of
the registers at most `cur`, `outidx` and `remain` (R213, R214). -/
def Obligations.TextFrame : Prop :=
  ∀ (i : Instr) (s t : State), i.format = .textBit → exec i s = .next t →
    (∀ a, readArt t a = readArt s a)
    ∧ (∀ j, j ≠ s.hid.outidx → readSym t j = readSym s j)
    ∧ (t.hid.outidx = s.hid.outidx → t.sym = s.sym ∧ t.hid.remain = s.hid.remain)
    ∧ (t.hid.outidx ≠ s.hid.outidx → ∃ j c, nodeAt s j = some (.leaf c) ∧ readSym t s.hid.outidx = c.setWidth 32)
    ∧ t = { s with
        sym := t.sym
        hid := { s.hid with cur := t.hid.cur, outidx := t.hid.outidx, remain := t.hid.remain } }

/-- R213 and R214, at the stage DEC_TEXT with symbols to go: TruncatedInput where no bit is left (R66, with the end R290 and R291
describe); else the bit at `rpos` selects the child, and a LEAF emits its symbol and returns to the root. That the core moves
with no input pending, and that one core step does all of this, is the model's choice (log entries 3 and 4). -/
def Obligations.TextStepRule : Prop :=
  ∀ (s : State) (l r root : Nat), s.inputs = [] → s.seq = .decText → s.hid.remain ≠ 0#32 →
    s.hid.latLen.toNat ≤ s.caps.artCap → nodeAt s s.hid.cur = some (.internal l r) → s.hid.root = some root →
    s.hid.outidx < s.caps.symCap →
    (8 * s.hid.latLen.toNat ≤ s.hid.rpos → ∃ t, step s = .next t ∧ DecodeFailed 0x00000012#32 s t)
    ∧ (s.hid.rpos < 8 * s.hid.latLen.toNat → ∀ child, child = (if streamBit s s.hid.rpos then r else l) →
      (∀ a b, nodeAt s child = some (.internal a b) →
        step s = .next { s with hid := { s.hid with rpos := s.hid.rpos + 1, cur := child } })
      ∧ (∀ c, nodeAt s child = some (.leaf c) → step s = .next { s with
          sym := s.sym.write s.hid.outidx (c.setWidth 32)
          hid := { s.hid with
            rpos := s.hid.rpos + 1, outidx := s.hid.outidx + 1, remain := s.hid.remain - 1#32, cur := root } }))

/-- R215 and 43_commands.md R250: with the countdown at 0 DECODE succeeds at once with `OUT_LEN = count`; no bit is read and
no memory changes. -/
def Obligations.TextDoneRule : Prop :=
  ∀ s : State, s.inputs = [] → s.seq = .decText → s.hid.remain = 0#32 →
    ∃ t, step s = .next t ∧ Succeeded s.hid.count s t ∧ t.sym = s.sym ∧ t.art = s.art

/-- The frame of a DECODE's steps: ART is never written; while the command goes on, SYM changes at most at `outidx` and
only in DEC_TEXT, STATUS and OUT_LEN stay, and past the header `rpos` only moves forward (20_memory.md R61, R62, 10_state.md
R34). -/
def Obligations.DecodeStageFrame : Prop :=
  ∀ s t : State, s.inputs = [] → s.seq ∈ decodeStages → step s = .next t →
    t.art = s.art ∧ t.inLen = s.inLen ∧ OutsideKept s t
    ∧ (t.seq ≠ .idle →
      t.status = s.status ∧ t.outLen = s.outLen ∧ t.draws = s.draws ∧ t.hid.latLen = s.hid.latLen
      ∧ (∀ j, j ≠ s.hid.outidx → readSym t j = readSym s j)
      ∧ (s.seq ≠ .decText → t.sym = s.sym)
      ∧ (s.seq ≠ .hdr → s.hid.rpos < t.hid.rpos))

/-! ### Bit streams and the end of a command -/

/-- R66: `ReadBit` fails at `8 * lat_len`, and otherwise gives bit `7 - (rpos mod 8)` of byte `rpos div 8` and moves on. -/
def Obligations.ReadBitRule : Prop :=
  ∀ s : State,
    (8 * s.hid.latLen.toNat ≤ s.hid.rpos → readBit s = none)
    ∧ (s.hid.rpos < 8 * s.hid.latLen.toNat → readBit s =
      some ((readArt s (s.hid.rpos / 8)).getLsbD (7 - s.hid.rpos % 8),
        { s with hid := { s.hid with rpos := s.hid.rpos + 1 } }))

/-- R65: emitted bits stand in the stream from `wpos` on, first bit first, earlier bits and later bytes stay; the bits behind
them are 0 in a last byte freshly begun and unchanged in a byte that was already being filled. -/
def Obligations.EmitBitsRule : Prop :=
  ∀ (bits : Bits) (s : State),
    (emitBits bits s).hid.wpos = s.hid.wpos + bits.length
    ∧ (∀ j (h : j < bits.length), streamBit (emitBits bits s) (s.hid.wpos + j) = bits[j])
    ∧ (∀ p, p < s.hid.wpos → streamBit (emitBits bits s) p = streamBit s p)
    ∧ (∀ p, s.hid.wpos + bits.length ≤ p → 8 * bytesFor s.hid.wpos ≤ p → p < 8 * bytesFor (s.hid.wpos + bits.length) →
      streamBit (emitBits bits s) p = false)
    ∧ (∀ p, s.hid.wpos + bits.length ≤ p → p < 8 * bytesFor s.hid.wpos →
      streamBit (emitBits bits s) p = streamBit s p)
    ∧ (∀ a, bytesFor (s.hid.wpos + bits.length) ≤ a → readArt (emitBits bits s) a = readArt s a)

/-- R290 and R291: `raise E` writes STATUS with E's code, OUT_LEN 0 and the idle stage; IN_LEN and the input memory stay, and
no cell of the output memory is specified any more (that all of it takes one new draw is log entry 7). -/
def Obligations.RaiseRule : Prop :=
  ∀ (s : State) (e : CommandError),
    (∀ out, (raise out e s).status = 0x00000002#32 ||| (e.code.setWidth 32 <<< 4)
      ∧ (raise out e s).outLen = 0x00000000#32 ∧ (raise out e s).seq = .idle ∧ (raise out e s).inLen = s.inLen
      ∧ OutsideKept s (raise out e s))
    ∧ (raise .art e s).sym = s.sym ∧ (∀ a, (raise .art e s).art.written a = none)
    ∧ (raise .sym e s).art = s.art ∧ (∀ j, (raise .sym e s).sym.written j = none)

/-! ### COUNT -/

/-- R243: an ENCODE of nothing writes four zero bytes and succeeds with OUT_LEN 4. -/
def Obligations.EncodeEmptyRule : Prop :=
  ∀ s : State, s.inputs = [] → s.seq = .count → s.hid.latLen = 0#32 →
    ∃ t, step s = .next t ∧ Succeeded 0x00000004#32 s t ∧ (∀ a, a < 4 → readArt t a = 0x00#8)
      ∧ (∀ a, 4 ≤ a → readArt t a = readArt s a) ∧ t.sym = s.sym

/-- R140, with the length check of 43_commands.md R242: one turn of COUNT's loop, its three errors in their order, and its
end. -/
def Obligations.CountTurnRule : Prop :=
  ∀ (s : State) (w : Word), s.inputs = [] → s.seq = .count → w = readSym s s.hid.idx →
    (s.caps.symCap < s.hid.latLen.toNat → ∃ t, step s = .next t ∧ EncodeFailed 0x00000042#32 s t)
    ∧ (s.hid.latLen.toNat ≤ s.caps.symCap → s.hid.idx < s.hid.latLen.toNat →
      (isScalar w.toNat = false → ∃ t, step s = .next t ∧ EncodeFailed 0x00000052#32 s t)
      ∧ (isScalar w.toNat = true →
        (∀ m, Table.get BitVec.toNat (w.setWidth 21) s.hid.freq = some m → step s = .next { s with
          hid := { s.hid with
            n := s.hid.latLen.toNat, idx := s.hid.idx + 1,
            freq := Table.put BitVec.toNat (w.setWidth 21) (m + 1#32) s.hid.freq } })
        ∧ (Table.get BitVec.toNat (w.setWidth 21) s.hid.freq = none → s.hid.freq.length = s.caps.leafCap →
          ∃ t, step s = .next t ∧ EncodeFailed 0x00000042#32 s t)
        ∧ (Table.get BitVec.toNat (w.setWidth 21) s.hid.freq = none → s.hid.freq.length ≠ s.caps.leafCap →
          step s = .next { s with
            hid := { s.hid with
              n := s.hid.latLen.toNat, idx := s.hid.idx + 1,
              freq := Table.put BitVec.toNat (w.setWidth 21) 1#32 s.hid.freq } })))
    ∧ (s.hid.latLen.toNat ≤ s.caps.symCap → s.hid.latLen ≠ 0#32 → s.hid.latLen.toNat ≤ s.hid.idx →
      step s = .next { s with
        seq := .build, hid := { s.hid with n := s.hid.latLen.toNat, k := s.hid.freq.length } })

/-- In COUNT, FREQ holds exactly the occurrences of the words read so far; every step keeps it: the loop invariant behind what
R141 derives from R140. -/
def Obligations.CountInvariant : Prop :=
  ∀ s t : State, RegistersOk s → CountOk s → step s = .next t → CountOk t

/-- R141: when COUNT ends without error every distinct word is a key exactly once with its number of occurrences, the
counts sum to `n`, and `1 <= k <= min(n, LEAF_CAP)`. R141 derives this from R140. -/
def Obligations.CountResult : Prop :=
  ∀ s t : State, s.inputs = [] → s.seq = .count → Counting s → step s = .next t → t.seq = .build →
    Table.Sorted BitVec.toNat t.hid.freq
    ∧ (∀ i, i < t.hid.n → ∃ c, readSym t i = symbolWord c ∧ (Table.get BitVec.toNat c t.hid.freq).isSome = true)
    ∧ (∀ (c : Scalar) (m : Count), Table.get BitVec.toNat c t.hid.freq = some m →
        m.toNat = occurrences t t.hid.n c ∧ 1 ≤ m.toNat)
    ∧ (t.hid.freq.map fun e => e.2.toNat).sum = t.hid.n
    ∧ t.hid.n = s.hid.latLen.toNat ∧ t.hid.k = t.hid.freq.length
    ∧ 1 ≤ t.hid.k ∧ t.hid.k ≤ min t.hid.n t.caps.leafCap

/-! ### BUILD and CODES -/

/-- R142: with fewer than two symbols BUILD fails with DegenerateAlphabet; otherwise leaf `j` is FREQ's `j`-th key in
increasing scalar value with its count as weight, and PQ holds exactly the leaves. -/
def Obligations.BuildStartRule : Prop :=
  ∀ s : State, s.inputs = [] → s.seq = .build → s.hid.ncount = 0 →
    (s.hid.k < 2 → ∃ t, step s = .next t ∧ EncodeFailed 0x00000032#32 s t)
    ∧ (2 ≤ s.hid.k → s.hid.k = s.hid.freq.length → Table.Sorted BitVec.toNat s.hid.freq →
      ∃ t, step s = .next t ∧ t.hid.ncount = s.hid.k ∧ t.hid.pq = List.range s.hid.k
        ∧ (∀ j (h : j < s.hid.freq.length),
            nodeAt t j = some (.leaf (s.hid.freq[j]).1) ∧ weightAt t j = (s.hid.freq[j]).2)
        ∧ (∀ j, s.hid.k ≤ j → nodeAt t j = none)
        ∧ (∀ i j (hi : i < s.hid.freq.length) (hj : j < s.hid.freq.length), i < j →
            (s.hid.freq[i]).1.toNat < (s.hid.freq[j]).1.toNat)
        ∧ t = { s with
            hid := { s.hid with
              ncount := t.hid.ncount, pq := t.hid.pq, nodes := t.hid.nodes, weights := t.hid.weights } })

/-- R144 with the key of R143: a merge removes the entry `a` with the smallest key and the entry `b` with the next one,
and makes the next node INTERNAL with `a` left, `b` right and their weights' sum. -/
def Obligations.MergeRule : Prop :=
  ∀ s : State, s.inputs = [] → s.seq = .build → s.hid.ncount ≠ 0 → 2 ≤ s.hid.pq.length → s.hid.pq.Nodup →
    ∃ a b, a ∈ s.hid.pq ∧ b ∈ s.hid.pq ∧ a ≠ b
      ∧ (∀ j ∈ s.hid.pq, j ≠ a → (weightAt s a).toNat < (weightAt s j).toNat
          ∨ ((weightAt s a).toNat = (weightAt s j).toNat ∧ a < j))
      ∧ (∀ j ∈ s.hid.pq, j ≠ a → j ≠ b → (weightAt s b).toNat < (weightAt s j).toNat
          ∨ ((weightAt s b).toNat = (weightAt s j).toNat ∧ b < j))
      ∧ step s = .next { s with
          hid := { s.hid with
            nodes := Table.put id s.hid.ncount (.internal a b) s.hid.nodes
            weights := Table.put id s.hid.ncount (weightAt s a + weightAt s b) s.hid.weights
            pq := (s.hid.pq.filter fun j => decide (j ≠ a ∧ j ≠ b)) ++ [s.hid.ncount]
            ncount := s.hid.ncount + 1 } }

/-- BUILD makes the tree R145 describes: `2k - 1` nodes, the leaves first and each with one of FREQ's keys, every INTERNAL node
with two different earlier children, every node the child of exactly one INTERNAL node but those in PQ, and in the end but the
root, which is the last; every step keeps it. R145 derives this from R142 and R144. -/
def Obligations.BuildInvariant : Prop :=
  ∀ s t : State, BuildOk s → step s = .next t → BuildOk t

/-- COUNT, BUILD and CODES never stop the machine: the queue is never empty and every node is there (R142 to R148). -/
def Obligations.BuildAndCodesNeverStop : Prop :=
  ∀ s : State, BuildOk s → s.inputs = [] → s.seq = .count ∨ s.seq = .build ∨ s.seq = .codes →
    ∃ t, step s = .next t

/-- R148, one node of the walk: a LEAF's path becomes its symbol's code; an INTERNAL node's children follow, the left with
`"0"` appended before the right with `"1"`; at the end of the walk SIZE follows. -/
def Obligations.CodesStepRule : Prop :=
  ∀ s : State, s.inputs = [] → s.seq = .codes →
    (s.hid.walk = [] → step s = .next { s with seq := .size })
    ∧ (∀ i path rest, s.hid.walk = (i, path) :: rest →
      (∀ c, nodeAt s i = some (.leaf c) → step s = .next { s with
        hid := { s.hid with walk := rest, codes := Table.put BitVec.toNat c path s.hid.codes } })
      ∧ (∀ l r, nodeAt s i = some (.internal l r) → step s = .next { s with
        hid := { s.hid with walk := (l, path ++ [false]) :: (r, path ++ [true]) :: rest } }))

/-- R149, which the spec derives from R145 and R148: no code is a prefix of another, at any time from CODES on; every step
keeps it. -/
def Obligations.CodesPrefixFree : Prop :=
  ∀ s t : State, CodesOk s → step s = .next t → CodesOk t

/-! ### SIZE, SER_TREE, ENC_TEXT, PAD -/

/-- R244: the length is `32 + T + X` bits; an artifact larger than ART is CapacityExceeded before any byte is written, any
other starts emission at bit 0 from the root. -/
def Obligations.SizeRule : Prop :=
  ∀ (s : State) (root total : Nat), s.inputs = [] → s.seq = .size → s.hid.root = some root →
    (∀ e ∈ s.hid.freq, (codeOf s e.1).isSome = true) →
    total = 32 + (2 * s.hid.k - 1 + 8 * (s.hid.freq.map fun e => (utf8Encode e.1).length).sum)
      + (s.hid.freq.map fun e => e.2.toNat * ((codeOf s e.1).getD []).length).sum →
    (s.caps.artCap < (total + 7) / 8 → ∃ t, step s = .next t ∧ EncodeFailed 0x00000042#32 s t)
    ∧ ((total + 7) / 8 ≤ s.caps.artCap →
      step s = .next { s with seq := .serTree, hid := { s.hid with totalBits := total, wpos := 0, ser := [root] } })

/-- R180 to R182 and 43_commands.md R245, one step of SER_TREE where ART has room: the header first; a LEAF emits `"1"` and its
UTF-8 bytes; an INTERNAL node emits `"0"` and its children follow, the left first; then ENC_TEXT. -/
def Obligations.SerTreeRule : Prop :=
  ∀ s : State, s.inputs = [] → s.seq = .serTree →
    (s.hid.wpos = 0 → step s = .next (emitBits (natBits 32 s.hid.n) s))
    ∧ (s.hid.wpos ≠ 0 → s.hid.ser = [] → step s = .next { s with seq := .encText, hid := { s.hid with idx := 0 } })
    ∧ (∀ i rest, s.hid.wpos ≠ 0 → s.hid.ser = i :: rest →
      (∀ c, nodeAt s i = some (.leaf c) → s.hid.wpos + (1 + 8 * (utf8Encode c).length) ≤ 8 * s.caps.artCap →
        step s = .next (emitBits (true :: (utf8Encode c).flatMap bitsOf) { s with hid := { s.hid with ser := rest } }))
      ∧ (∀ l r, nodeAt s i = some (.internal l r) → s.hid.wpos + 1 ≤ 8 * s.caps.artCap →
        step s = .next (emitBits [false] { s with hid := { s.hid with ser := l :: r :: rest } })))

/-- R183: over as many steps as the tree has nodes SER_TREE writes exactly the tree's bits in preorder from `wpos` on, and
nothing below them changes. R183 derives this; one node a step is log entry 4. -/
def Obligations.SerTreeWritesTree : Prop :=
  ∀ (tree : SymTree) (s : State) (i : Nat) (rest : List Nat), s.inputs = [] → s.seq = .serTree → s.hid.wpos ≠ 0 →
    s.hid.ser = i :: rest → HoldsTree s i tree → s.hid.wpos + tree.bits.length ≤ 8 * s.caps.artCap →
    ∃ u, core.run tree.size s = .next u ∧ u.seq = .serTree ∧ u.hid.ser = rest
      ∧ u.hid.wpos = s.hid.wpos + tree.bits.length
      ∧ (∀ j (h : j < tree.bits.length), streamBit u (s.hid.wpos + j) = tree.bits[j])
      ∧ (∀ p, p < s.hid.wpos → streamBit u p = streamBit s p)
      ∧ u.sym = s.sym ∧ u.hid.nodes = s.hid.nodes ∧ u.hid.codes = s.hid.codes

/-- R210: a step of ENC_TEXT emits the code of the symbol at the loop index; past the last index PAD follows; a symbol
without a code faults (93_implementation_defined.md U8). -/
def Obligations.EncTextRule : Prop :=
  ∀ s : State, s.inputs = [] → s.seq = .encText →
    (s.hid.n ≤ s.hid.idx → step s = .next { s with seq := .pad })
    ∧ (∀ c, s.hid.idx < s.hid.n → s.hid.idx < s.caps.symCap → isScalar c.toNat = true →
      readSym s s.hid.idx = symbolWord c →
      (∀ code, codeOf s c = some code → s.hid.wpos + code.length ≤ 8 * s.caps.artCap →
        step s = .next (emitBits code { s with hid := { s.hid with idx := s.hid.idx + 1 } }))
      ∧ (codeOf s c = none → step s = .fault .codeMissing))

/-- 43_commands.md R245 and R251: PAD writes nothing; ENCODE succeeds with the artifact's length in bytes. -/
def Obligations.PadRule : Prop :=
  ∀ s : State, s.inputs = [] → s.seq = .pad →
    ∃ t, step s = .next t ∧ Succeeded (BitVec.ofNat 32 ((s.hid.totalBits + 7) / 8)) s t ∧ t.sym = s.sym ∧ t.art = s.art

/-- The frame of an ENCODE's steps: SYM and IN_LEN never change; while the command goes on STATUS and OUT_LEN stay, and ART
changes only in SER_TREE and ENC_TEXT and only in the bytes from `wpos` to the new `wpos`; emission starts with no byte being
filled, and the bits of that byte behind `wpos` stay 0 from step to step, so that the artifact ends in zero padding
(20_memory.md R61, R62, R65, what R65 derives for the padding of 30_encoding.md R112). -/
def Obligations.EncodeStageFrame : Prop :=
  ∀ s t : State, s.inputs = [] → s.seq ∈ encodeStages → step s = .next t →
    t.sym = s.sym ∧ t.inLen = s.inLen ∧ OutsideKept s t
    ∧ (s.seq = .pad → t.art = s.art)
    ∧ (t.seq ≠ .idle →
      t.status = s.status ∧ t.outLen = s.outLen ∧ t.draws = s.draws ∧ t.hid.latLen = s.hid.latLen
      ∧ (s.seq ≠ .serTree → s.seq ≠ .encText → t.art = s.art)
      ∧ (∀ a, a < s.hid.wpos / 8 ∨ bytesFor t.hid.wpos ≤ a → readArt t a = readArt s a)
      ∧ (s.seq = .size → ZeroPadded t)
      ∧ (ZeroPadded s → ZeroPadded t))

/-! ### Invariants -/

/-- R23, R29, R31: STATUS holds only its legal values, the sequencer is idle exactly when BUSY is 0, OUT_LEN is 0 while BUSY, and
the host has not seen the end of a command that runs (log entry 24); every step keeps it. The list of STATUS's values and "idle exactly when" are what R23 and R31 derive. -/
def Obligations.RegistersInvariant : Prop :=
  ∀ s t : State, RegistersOk s → step s = .next t → RegistersOk t

/-- The memories stay canonical and inside their address spaces, and no draw is used twice: every draw used is below the next
one, the counter never falls, and a memory that changes its draw takes the next one, which is then spent; every step keeps it
(R60, R64; the form and the draws are log entries 6 and 9). -/
def Obligations.MemoriesInvariant : Prop :=
  ∀ s t : State, MemoriesOk s → step s = .next t →
    MemoriesOk t ∧ s.draws ≤ t.draws
    ∧ (t.sym.epoch = s.sym.epoch ∨ t.sym.epoch = s.draws ∧ s.draws < t.draws)
    ∧ (t.art.epoch = s.art.epoch ∨ t.art.epoch = s.draws ∧ s.draws < t.draws)

/-- A DECODE stays sound: the stream fits ART, the tree being read is whole but for the nodes that wait, and DEC_TEXT walks
a full tree from an INTERNAL node with `remain + outidx = count`; every step keeps it (R184 to R190, R212 to R216). The stack
that stands for the recursion is log entry 11. -/
def Obligations.DecodeInvariant : Prop :=
  ∀ s t : State, DecodeOk s → step s = .next t → DecodeOk t

/-- A sound DECODE never stops the machine: the walker's missing child cannot happen (R213, R216). -/
def Obligations.DecodeNeverStops : Prop :=
  ∀ s : State, DecodeOk s → s.inputs = [] → s.seq ∈ decodeStages → ∃ t, step s = .next t

/-- The state after reset: the registers are as 10_state.md R41 says and every invariant holds. -/
def Obligations.InvariantsAtReset : Prop :=
  State.reset.status = 0x00000000#32 ∧ State.reset.inLen = 0x00000000#32 ∧ State.reset.outLen = 0x00000000#32
  ∧ State.reset.seq = .idle ∧ (∀ i, State.reset.sym.written i = none) ∧ (∀ a, State.reset.art.written a = none)
  ∧ RegistersOk State.reset ∧ MemoriesOk State.reset ∧ DecodeOk State.reset ∧ CountOk State.reset
  ∧ BuildOk State.reset ∧ CodesOk State.reset

/-- No step changes the capacities: they are a parameter of the block (00_scope.md R6, 10_state.md R20; that State carries them
is log entry 1). -/
def Obligations.CapacitiesFixed : Prop :=
  ∀ s t : State, step s = .next t → t.caps = s.caps

/-- R40 and 43_commands.md R246: hidden state that a stage writes before it reads it influences nothing, so equal inputs have
equal outcomes whatever the hidden state held before. R40 derives this from R20 and R241; which registers a stage still reads is
`liveHidden`. -/
def Obligations.HiddenStateUnobserved : Prop :=
  ∀ s t : State, s.live = t.live → sameOutcome (step s) (step t)

/-! ### Whole commands -/

/-- R189, the reading half: from the serialized bits of a full binary tree DESER_TREE rebuilds that tree, root 0, in as many
steps as it has nodes, and stops exactly at its end (R184: preorder numbers). R189 derives this; one token a step is log entry 4. -/
def Obligations.DeserReadsTree : Prop :=
  ∀ (l r : SymTree) (s : State), l.scalars → r.scalars → s.inputs = [] → s.seq = .deserTree →
    s.hid.ncount = 0 → s.hid.nodes = [] → s.hid.deser = [] → s.hid.latLen.toNat ≤ s.caps.artCap →
    (SymTree.node l r).size ≤ s.caps.nodeCap →
    s.hid.rpos + (SymTree.node l r).bits.length ≤ 8 * s.hid.latLen.toNat →
    (∀ j (h : j < (SymTree.node l r).bits.length), streamBit s (s.hid.rpos + j) = (SymTree.node l r).bits[j]) →
    ∃ u, core.run (SymTree.node l r).size s = .next u ∧ u.seq = .decText
      ∧ u.hid.root = some 0 ∧ HoldsTree u 0 (.node l r) ∧ u.hid.ncount = (SymTree.node l r).size
      ∧ u.hid.rpos = s.hid.rpos + (SymTree.node l r).bits.length
      ∧ u.hid.cur = 0 ∧ u.hid.remain = s.hid.count ∧ u.hid.outidx = 0 ∧ u.sym = s.sym ∧ u.art = s.art

/-- R331 for ENCODE, which the spec derives from R330: from every idle state an ENCODE runs to its end, with no stop on the
way. -/
def Obligations.EncodeEnds : Prop :=
  ∀ s : State, s.busy = false → s.inputs = [wrCmd 0x00000001#32] →
    ∃ k u, core.run (k + 1) s = .next u ∧ u.seq = .idle ∧ u.busy = false ∧ u.done = true

/-- R331 for DECODE, with the bound of R330: from every idle state a DECODE runs to its end within `8L + 3` steps, with no
stop on the way. The spec derives both; that each step reads at least one bit is log entry 4. -/
def Obligations.DecodeEnds : Prop :=
  ∀ s : State, s.busy = false → s.inputs = [wrCmd 0x00000002#32] →
    ∃ k u, k ≤ 8 * s.inLen.toNat + 2 ∧ core.run (k + 1) s = .next u
      ∧ u.seq = .idle ∧ u.busy = false ∧ u.done = true

/-- R253: where an ENCODE succeeds, a DECODE of what it wrote, with ART unchanged and whatever SYM then holds, runs to success and
writes the input back, at the same place and of the same length. The spec derives R253 from R242 to R250, R189 and R149. -/
def Obligations.RoundTrip : Prop :=
  ∀ (s t : State) (k : Nat) (sym : Memory 32), s.busy = false → s.inputs = [wrCmd 0x00000001#32] →
    core.run (k + 1) s = .next t → t.status = 0x00000002#32 →
    ∃ m u, core.run (m + 1) { t with inLen := t.outLen, sym := sym, inputs := [wrCmd 0x00000002#32] } = .next u
      ∧ u.status = 0x00000002#32 ∧ u.outLen = s.inLen
      ∧ ∀ i, i < s.inLen.toNat → readSym u i = readSym s i

/-! ### The host's side -/

/-- R27, with R21, R22, R28 and R69: whole-word register reads return the register and change nothing in the block, a CMD read
returns 0, writes to STATUS and OUT_LEN do nothing, a write to IN_LEN writes it at any time, any other access is refused,
and STATUS's reserved bits read 0. What the host has read, and that a STATUS read with BUSY 0 and DONE 1 shows it a command's
end, is kept on its side, the model's choice (log entries 3, 10 and 24). -/
def Obligations.HostRegisterRule : Prop :=
  ∀ (s : State) (rest : List Input) (offset size : Nat) (v : Word),
    (s.inputs = .host (.regWrite offset size v) :: rest →
      (size = 4 → offset = 0x04 ∨ offset = 0x0C → step s = .next { s with inputs := rest })
      ∧ (size = 4 → offset = 0x08 → step s = .next { s with inputs := rest, inLen := v })
      ∧ (size ≠ 4 ∨ offset ∉ [0x00, 0x04, 0x08, 0x0C] → step s = .refused .registerAccess))
    ∧ (s.inputs = .host (.regRead offset size) :: rest →
      (size = 4 → offset = 0x00 → step s = .next { s with inputs := rest, busData := some (.word 0x00000000#32) })
      ∧ (size = 4 → offset = 0x04 → step s = .next { s with
          inputs := rest, busData := some (.word s.status), endShown := s.endShown || (s.done && !s.busy) })
      ∧ (size = 4 → offset = 0x08 → step s = .next { s with inputs := rest, busData := some (.word s.inLen) })
      ∧ (size = 4 → offset = 0x0C → step s = .next { s with inputs := rest, busData := some (.word s.outLen) })
      ∧ (size ≠ 4 ∨ offset ∉ [0x00, 0x04, 0x08, 0x0C] → step s = .refused .registerAccess))
    ∧ (RegistersOk s → s.status &&& 0xFFFFFF0C#32 = 0x00000000#32)

/-- R324 and point 3 of R73, with R64: while BUSY, and then until a STATUS read shows the end, every host access to SYM or ART is
refused; otherwise an access in range reads or writes that one cell, and an access out of range is refused. How the model
keeps what the host has read and seen is log entries 3, 10 and 24, and the order of the tests log entry 14. -/
def Obligations.HostMemoryRule : Prop :=
  ∀ (s : State) (rest : List Input) (j : Nat) (v : Word) (b : Byte) (tx : HostTx), s.inputs = .host tx :: rest →
    (s.busy = true → tx ∈ [.symWrite j v, .symRead j, .artWrite j b, .artRead j] →
      step s = .refused .accessWhileBusy)
    ∧ (s.busy = false → s.endShown = false → tx ∈ [.symWrite j v, .symRead j, .artWrite j b, .artRead j] →
      step s = .refused .accessBeforeEndShown)
    ∧ (s.busy = false → s.endShown = true →
      (s.caps.symCap ≤ j → tx = .symWrite j v ∨ tx = .symRead j → step s = .refused .symIndex)
      ∧ (s.caps.artCap ≤ j → tx = .artWrite j b ∨ tx = .artRead j → step s = .refused .artIndex)
      ∧ (j < s.caps.symCap → tx = .symWrite j v → step s = .next { s with inputs := rest, sym := s.sym.write j v })
      ∧ (j < s.caps.symCap → tx = .symRead j →
        step s = .next { s with inputs := rest, busData := some (.word (readSym s j)) })
      ∧ (j < s.caps.artCap → tx = .artWrite j b → step s = .next { s with inputs := rest, art := s.art.write j b })
      ∧ (j < s.caps.artCap → tx = .artRead j →
        step s = .next { s with inputs := rest, busData := some (.byte (readArt s j)) }))

/-- R320 and R321: reset, also during a command, gives every register its reset value and the idle stage, and leaves no
word or byte of the memories specified (the draw that stands for it is log entry 6). That the inputs still pending and the
host's last read stay is log entries 23 and 10, and that no end is left to be seen log entry 24. -/
def Obligations.ResetRule : Prop :=
  ∀ (s : State) (rest : List Input), s.inputs = .reset :: rest →
    ∃ t, step s = .next t ∧ t.status = 0x00000000#32 ∧ t.inLen = 0x00000000#32 ∧ t.outLen = 0x00000000#32
      ∧ registerRead t 0x00 = some 0x00000000#32 ∧ t.seq = .idle
      ∧ (∀ j, t.sym.written j = none) ∧ (∀ a, t.art.written a = none)
      ∧ t.inputs = rest ∧ t.busData = s.busData ∧ t.endShown = true ∧ t.caps = s.caps
end

