-- ==== Sys2Proof/Laws/Decode.lean ====
section
/-! SUPPORT. Small laws of bit strings and of the decoder. -/

namespace Sys2Proof

@[simp] theorem natBits_length (k v : Nat) : (natBits k v).length = k := by
  induction k with
  | zero => rfl
  | succ k ih => simp [natBits, ih]

@[simp] theorem bitsOf_length {k : Nat} (v : BitVec k) : (bitsOf v).length = k := natBits_length k _

theorem bitsValue_foldl (bits : Bits) (v : Nat) :
    bits.foldl (fun v b => 2 * v + b.toNat) v = v * 2 ^ bits.length + bitsValue bits := by
  induction bits generalizing v with
  | nil => simp [bitsValue]
  | cons b bits ih =>
    simp only [List.foldl_cons, bitsValue, List.length_cons, ih (2 * v + b.toNat), ih (2 * 0 + b.toNat)]
    ring

theorem bitsValue_cons (b : Bool) (bits : Bits) : bitsValue (b :: bits) = b.toNat * 2 ^ bits.length + bitsValue bits := by
  have := bitsValue_foldl bits (2 * 0 + b.toNat)
  simpa [bitsValue] using this

theorem bitsValue_lt (bits : Bits) : bitsValue bits < 2 ^ bits.length := by
  induction bits with
  | nil => simp [bitsValue]
  | cons b bits ih =>
    rw [bitsValue_cons, List.length_cons, pow_succ]
    cases b <;> simp <;> omega

/-- Reading back the number of a bit string made from a number. -/
theorem bitsValue_natBits (k v : Nat) : bitsValue (natBits k v) = v % 2 ^ k := by
  induction k with
  | zero => simp [natBits, bitsValue, Nat.mod_one]
  | succ k ih =>
    rw [natBits, bitsValue_cons, ih, natBits_length, Nat.mod_pow_succ, Nat.testBit_eq_decide_div_mod_eq]
    rcases Nat.mod_two_eq_zero_or_one (v / 2 ^ k) with h | h <;> simp [h, Nat.add_comm]

/-- The bits of a number do not depend on what stands above them. -/
theorem natBits_add_high (k a v : Nat) (h : v < 2 ^ k) (m : Nat) (hm : m ≤ k) :
    natBits m (2 ^ k * a + v) = natBits m v := by
  induction m with
  | zero => rfl
  | succ m ih =>
    rw [natBits, natBits, ih (by omega), Nat.testBit_two_pow_mul_add _ h, if_pos (by omega)]

/-- A bit string is the bits of its number. -/
theorem natBits_bitsValue (bits : Bits) : natBits bits.length (bitsValue bits) = bits := by
  induction bits with
  | nil => rfl
  | cons b bits ih =>
    have h := bitsValue_lt bits
    rw [List.length_cons, natBits, bitsValue_cons, Nat.mul_comm, natBits_add_high _ _ _ h _ (Nat.le_refl _), ih,
      Nat.testBit_two_pow_mul_add _ h]
    cases b <;> simp

@[simp] theorem bitsValue_bitsOf {k : Nat} (v : BitVec k) : bitsValue (bitsOf v) = v.toNat := by
  rw [bitsOf, bitsValue_natBits, Nat.mod_eq_of_lt v.isLt]

/-- A byte's bits at the front of a bit string read as that byte. -/
theorem takeByte_bitsOf (b : Byte) (rest : Bits) : takeByte (bitsOf b ++ rest) = some (b, rest) := by
  have h : (bitsOf b ++ rest).take 8 = bitsOf b := List.take_left' (bitsOf_length b)
  have h' : (bitsOf b ++ rest).drop 8 = rest := List.drop_left' (bitsOf_length b)
  simp [takeByte, h, h']

/-- A word's bits at the front of a bit string read as that word. -/
theorem takeWord_bitsOf (w : Word) (rest : Bits) : takeWord (bitsOf w ++ rest) = .ok w := by
  have h : (bitsOf w ++ rest).take 32 = bitsOf w := List.take_left' (bitsOf_length w)
  simp [takeWord, h]

/-- Reading a byte splits it off, or the bits are too few. -/
theorem takeByte_cases (bits : Bits) :
    (bits.length < 8 ∧ takeByte bits = none) ∨ ∃ b rest, bits = bitsOf b ++ rest ∧ takeByte bits = some (b, rest) := by
  by_cases h : 8 ≤ bits.length
  · have hl : (bits.take 8).length = 8 := by simp [h]
    have hv : bitsOf (BitVec.ofNat 8 (bitsValue (bits.take 8))) = bits.take 8 := by
      have hlt := bitsValue_lt (bits.take 8)
      rw [hl] at hlt
      rw [bitsOf, BitVec.toNat_ofNat, Nat.mod_eq_of_lt hlt]
      have hb := natBits_bitsValue (bits.take 8)
      rwa [hl] at hb
    exact .inr ⟨_, bits.drop 8, by rw [hv, List.take_append_drop], by simp [takeByte, h]⟩
  · exact .inl ⟨Nat.lt_of_not_le h, by simp [takeByte, h]⟩

end Sys2Proof
end

