-- ==== Sys2Proof/Laws/State.lean ====
section
/-! SUPPORT. One lemma per field per named update of State, true by rfl, so that no later proof unfolds the record. -/

namespace Sys2Proof.Machine

/-! ### writeSym -/

@[simp] theorem writeSym_status (i : Nat) (v : Word) (s : State) : (writeSym i v s).status = s.status := rfl
@[simp] theorem writeSym_inLen (i : Nat) (v : Word) (s : State) : (writeSym i v s).inLen = s.inLen := rfl
@[simp] theorem writeSym_outLen (i : Nat) (v : Word) (s : State) : (writeSym i v s).outLen = s.outLen := rfl
@[simp] theorem writeSym_seq (i : Nat) (v : Word) (s : State) : (writeSym i v s).seq = s.seq := rfl
@[simp] theorem writeSym_sym (i : Nat) (v : Word) (s : State) : (writeSym i v s).sym = s.sym.write i v := rfl
@[simp] theorem writeSym_art (i : Nat) (v : Word) (s : State) : (writeSym i v s).art = s.art := rfl
@[simp] theorem writeSym_hid (i : Nat) (v : Word) (s : State) : (writeSym i v s).hid = s.hid := rfl
@[simp] theorem writeSym_inputs (i : Nat) (v : Word) (s : State) : (writeSym i v s).inputs = s.inputs := rfl
@[simp] theorem writeSym_busData (i : Nat) (v : Word) (s : State) : (writeSym i v s).busData = s.busData := rfl
@[simp] theorem writeSym_endShown (i : Nat) (v : Word) (s : State) : (writeSym i v s).endShown = s.endShown := rfl
@[simp] theorem writeSym_draws (i : Nat) (v : Word) (s : State) : (writeSym i v s).draws = s.draws := rfl
@[simp] theorem writeSym_caps (i : Nat) (v : Word) (s : State) : (writeSym i v s).caps = s.caps := rfl

/-! ### writeArt -/

@[simp] theorem writeArt_status (a : Nat) (b : Byte) (s : State) : (writeArt a b s).status = s.status := rfl
@[simp] theorem writeArt_inLen (a : Nat) (b : Byte) (s : State) : (writeArt a b s).inLen = s.inLen := rfl
@[simp] theorem writeArt_outLen (a : Nat) (b : Byte) (s : State) : (writeArt a b s).outLen = s.outLen := rfl
@[simp] theorem writeArt_seq (a : Nat) (b : Byte) (s : State) : (writeArt a b s).seq = s.seq := rfl
@[simp] theorem writeArt_sym (a : Nat) (b : Byte) (s : State) : (writeArt a b s).sym = s.sym := rfl
@[simp] theorem writeArt_art (a : Nat) (b : Byte) (s : State) : (writeArt a b s).art = s.art.write a b := rfl
@[simp] theorem writeArt_hid (a : Nat) (b : Byte) (s : State) : (writeArt a b s).hid = s.hid := rfl
@[simp] theorem writeArt_inputs (a : Nat) (b : Byte) (s : State) : (writeArt a b s).inputs = s.inputs := rfl
@[simp] theorem writeArt_busData (a : Nat) (b : Byte) (s : State) : (writeArt a b s).busData = s.busData := rfl
@[simp] theorem writeArt_endShown (a : Nat) (b : Byte) (s : State) : (writeArt a b s).endShown = s.endShown := rfl
@[simp] theorem writeArt_draws (a : Nat) (b : Byte) (s : State) : (writeArt a b s).draws = s.draws := rfl
@[simp] theorem writeArt_caps (a : Nat) (b : Byte) (s : State) : (writeArt a b s).caps = s.caps := rfl

/-! ### accept -/

@[simp] theorem accept_status (v : Word) (stage : Seq) (s : State) : (accept v stage s).status = statusRunning := rfl
@[simp] theorem accept_inLen (v : Word) (stage : Seq) (s : State) : (accept v stage s).inLen = s.inLen := rfl
@[simp] theorem accept_outLen (v : Word) (stage : Seq) (s : State) : (accept v stage s).outLen = 0x00000000#32 := rfl
@[simp] theorem accept_seq (v : Word) (stage : Seq) (s : State) : (accept v stage s).seq = stage := rfl
@[simp] theorem accept_sym (v : Word) (stage : Seq) (s : State) : (accept v stage s).sym = s.sym := rfl
@[simp] theorem accept_art (v : Word) (stage : Seq) (s : State) : (accept v stage s).art = s.art := rfl
@[simp] theorem accept_hid (v : Word) (stage : Seq) (s : State) : (accept v stage s).hid = acceptedHidden v s := rfl
@[simp] theorem accept_inputs (v : Word) (stage : Seq) (s : State) : (accept v stage s).inputs = s.inputs := rfl
@[simp] theorem accept_busData (v : Word) (stage : Seq) (s : State) : (accept v stage s).busData = s.busData := rfl
@[simp] theorem accept_endShown (v : Word) (stage : Seq) (s : State) : (accept v stage s).endShown = false := rfl
@[simp] theorem accept_draws (v : Word) (stage : Seq) (s : State) : (accept v stage s).draws = s.draws := rfl
@[simp] theorem accept_caps (v : Word) (stage : Seq) (s : State) : (accept v stage s).caps = s.caps := rfl

/-! ### succeed -/

@[simp] theorem succeed_status (len : Word) (s : State) : (succeed len s).status = statusSucceeded := rfl
@[simp] theorem succeed_inLen (len : Word) (s : State) : (succeed len s).inLen = s.inLen := rfl
@[simp] theorem succeed_outLen (len : Word) (s : State) : (succeed len s).outLen = len := rfl
@[simp] theorem succeed_seq (len : Word) (s : State) : (succeed len s).seq = .idle := rfl
@[simp] theorem succeed_sym (len : Word) (s : State) : (succeed len s).sym = s.sym := rfl
@[simp] theorem succeed_art (len : Word) (s : State) : (succeed len s).art = s.art := rfl
@[simp] theorem succeed_hid (len : Word) (s : State) : (succeed len s).hid = Config.freeHidden s.draws := rfl
@[simp] theorem succeed_inputs (len : Word) (s : State) : (succeed len s).inputs = s.inputs := rfl
@[simp] theorem succeed_busData (len : Word) (s : State) : (succeed len s).busData = s.busData := rfl
@[simp] theorem succeed_endShown (len : Word) (s : State) : (succeed len s).endShown = s.endShown := rfl
@[simp] theorem succeed_draws (len : Word) (s : State) : (succeed len s).draws = s.draws + 1 := rfl
@[simp] theorem succeed_caps (len : Word) (s : State) : (succeed len s).caps = s.caps := rfl

/-! ### illegalCommand -/

@[simp] theorem illegalCommand_status (s : State) : (illegalCommand s).status = statusFailed .illegalCommand := rfl
@[simp] theorem illegalCommand_inLen (s : State) : (illegalCommand s).inLen = s.inLen := rfl
@[simp] theorem illegalCommand_outLen (s : State) : (illegalCommand s).outLen = 0x00000000#32 := rfl
@[simp] theorem illegalCommand_seq (s : State) : (illegalCommand s).seq = s.seq := rfl
@[simp] theorem illegalCommand_sym (s : State) : (illegalCommand s).sym = s.sym := rfl
@[simp] theorem illegalCommand_art (s : State) : (illegalCommand s).art = s.art := rfl
@[simp] theorem illegalCommand_hid (s : State) : (illegalCommand s).hid = s.hid := rfl
@[simp] theorem illegalCommand_inputs (s : State) : (illegalCommand s).inputs = s.inputs := rfl
@[simp] theorem illegalCommand_busData (s : State) : (illegalCommand s).busData = s.busData := rfl
@[simp] theorem illegalCommand_endShown (s : State) : (illegalCommand s).endShown = s.endShown := rfl
@[simp] theorem illegalCommand_draws (s : State) : (illegalCommand s).draws = s.draws := rfl
@[simp] theorem illegalCommand_caps (s : State) : (illegalCommand s).caps = s.caps := rfl

/-! ### resetEvent -/

@[simp] theorem resetEvent_status (s : State) : (resetEvent s).status = 0x00000000#32 := rfl
@[simp] theorem resetEvent_inLen (s : State) : (resetEvent s).inLen = 0x00000000#32 := rfl
@[simp] theorem resetEvent_outLen (s : State) : (resetEvent s).outLen = 0x00000000#32 := rfl
@[simp] theorem resetEvent_seq (s : State) : (resetEvent s).seq = .idle := rfl
@[simp] theorem resetEvent_sym (s : State) : (resetEvent s).sym = Memory.unspecified s.draws := rfl
@[simp] theorem resetEvent_art (s : State) : (resetEvent s).art = Memory.unspecified s.draws := rfl
@[simp] theorem resetEvent_hid (s : State) : (resetEvent s).hid = Config.freeHidden s.draws := rfl
@[simp] theorem resetEvent_inputs (s : State) : (resetEvent s).inputs = s.inputs := rfl
@[simp] theorem resetEvent_busData (s : State) : (resetEvent s).busData = s.busData := rfl
@[simp] theorem resetEvent_endShown (s : State) : (resetEvent s).endShown = true := rfl
@[simp] theorem resetEvent_draws (s : State) : (resetEvent s).draws = s.draws + 1 := rfl
@[simp] theorem resetEvent_caps (s : State) : (resetEvent s).caps = s.caps := rfl

/-! ### advance -/

@[simp] theorem advance_status (len : Nat) (s : State) : (s.advance len).status = s.status := rfl
@[simp] theorem advance_inLen (len : Nat) (s : State) : (s.advance len).inLen = s.inLen := rfl
@[simp] theorem advance_outLen (len : Nat) (s : State) : (s.advance len).outLen = s.outLen := rfl
@[simp] theorem advance_seq (len : Nat) (s : State) : (s.advance len).seq = s.seq := rfl
@[simp] theorem advance_sym (len : Nat) (s : State) : (s.advance len).sym = s.sym := rfl
@[simp] theorem advance_art (len : Nat) (s : State) : (s.advance len).art = s.art := rfl
@[simp] theorem advance_hid (len : Nat) (s : State) : (s.advance len).hid = { s.hid with rpos := s.hid.rpos + len } := rfl
@[simp] theorem advance_inputs (len : Nat) (s : State) : (s.advance len).inputs = s.inputs := rfl
@[simp] theorem advance_busData (len : Nat) (s : State) : (s.advance len).busData = s.busData := rfl
@[simp] theorem advance_endShown (len : Nat) (s : State) : (s.advance len).endShown = s.endShown := rfl
@[simp] theorem advance_draws (len : Nat) (s : State) : (s.advance len).draws = s.draws := rfl
@[simp] theorem advance_caps (len : Nat) (s : State) : (s.advance len).caps = s.caps := rfl

/-! ### tally -/

@[simp] theorem tally_status (c : Scalar) (count : Count) (s : State) : (tally c count s).status = s.status := rfl
@[simp] theorem tally_inLen (c : Scalar) (count : Count) (s : State) : (tally c count s).inLen = s.inLen := rfl
@[simp] theorem tally_outLen (c : Scalar) (count : Count) (s : State) : (tally c count s).outLen = s.outLen := rfl
@[simp] theorem tally_seq (c : Scalar) (count : Count) (s : State) : (tally c count s).seq = s.seq := rfl
@[simp] theorem tally_sym (c : Scalar) (count : Count) (s : State) : (tally c count s).sym = s.sym := rfl
@[simp] theorem tally_art (c : Scalar) (count : Count) (s : State) : (tally c count s).art = s.art := rfl
@[simp] theorem tally_hid (c : Scalar) (count : Count) (s : State) : (tally c count s).hid = { s.hid with freq := Table.put BitVec.toNat c count s.hid.freq, idx := s.hid.idx + 1 } := rfl
@[simp] theorem tally_inputs (c : Scalar) (count : Count) (s : State) : (tally c count s).inputs = s.inputs := rfl
@[simp] theorem tally_busData (c : Scalar) (count : Count) (s : State) : (tally c count s).busData = s.busData := rfl
@[simp] theorem tally_endShown (c : Scalar) (count : Count) (s : State) : (tally c count s).endShown = s.endShown := rfl
@[simp] theorem tally_draws (c : Scalar) (count : Count) (s : State) : (tally c count s).draws = s.draws := rfl
@[simp] theorem tally_caps (c : Scalar) (count : Count) (s : State) : (tally c count s).caps = s.caps := rfl

/-! ### writeNode -/

@[simp] theorem writeNode_status (i : Nat) (node : Node) (s : State) : (writeNode i node s).status = s.status := rfl
@[simp] theorem writeNode_inLen (i : Nat) (node : Node) (s : State) : (writeNode i node s).inLen = s.inLen := rfl
@[simp] theorem writeNode_outLen (i : Nat) (node : Node) (s : State) : (writeNode i node s).outLen = s.outLen := rfl
@[simp] theorem writeNode_seq (i : Nat) (node : Node) (s : State) : (writeNode i node s).seq = s.seq := rfl
@[simp] theorem writeNode_sym (i : Nat) (node : Node) (s : State) : (writeNode i node s).sym = s.sym := rfl
@[simp] theorem writeNode_art (i : Nat) (node : Node) (s : State) : (writeNode i node s).art = s.art := rfl
@[simp] theorem writeNode_hid (i : Nat) (node : Node) (s : State) : (writeNode i node s).hid = { s.hid with nodes := Table.put id i node s.hid.nodes } := rfl
@[simp] theorem writeNode_inputs (i : Nat) (node : Node) (s : State) : (writeNode i node s).inputs = s.inputs := rfl
@[simp] theorem writeNode_busData (i : Nat) (node : Node) (s : State) : (writeNode i node s).busData = s.busData := rfl
@[simp] theorem writeNode_endShown (i : Nat) (node : Node) (s : State) : (writeNode i node s).endShown = s.endShown := rfl
@[simp] theorem writeNode_draws (i : Nat) (node : Node) (s : State) : (writeNode i node s).draws = s.draws := rfl
@[simp] theorem writeNode_caps (i : Nat) (node : Node) (s : State) : (writeNode i node s).caps = s.caps := rfl

/-! ### raise and discardOutput, by output memory -/

@[simp] theorem discardOutput_status (out : OutputMemory) (s : State) : (discardOutput out s).status = s.status := by
  cases out <;> rfl
@[simp] theorem discardOutput_inLen (out : OutputMemory) (s : State) : (discardOutput out s).inLen = s.inLen := by
  cases out <;> rfl
@[simp] theorem discardOutput_outLen (out : OutputMemory) (s : State) : (discardOutput out s).outLen = s.outLen := by
  cases out <;> rfl
@[simp] theorem discardOutput_seq (out : OutputMemory) (s : State) : (discardOutput out s).seq = s.seq := by
  cases out <;> rfl
@[simp] theorem discardOutput_hid (out : OutputMemory) (s : State) : (discardOutput out s).hid = s.hid := by
  cases out <;> rfl
@[simp] theorem discardOutput_inputs (out : OutputMemory) (s : State) : (discardOutput out s).inputs = s.inputs := by
  cases out <;> rfl
@[simp] theorem discardOutput_busData (out : OutputMemory) (s : State) : (discardOutput out s).busData = s.busData := by
  cases out <;> rfl
@[simp] theorem discardOutput_endShown (out : OutputMemory) (s : State) : (discardOutput out s).endShown = s.endShown := by
  cases out <;> rfl
@[simp] theorem discardOutput_draws (out : OutputMemory) (s : State) : (discardOutput out s).draws = s.draws := by
  cases out <;> rfl
@[simp] theorem discardOutput_caps (out : OutputMemory) (s : State) : (discardOutput out s).caps = s.caps := by
  cases out <;> rfl
@[simp] theorem discardOutput_sym_sym (s : State) : (discardOutput .sym s).sym = Memory.unspecified s.draws := rfl
@[simp] theorem discardOutput_sym_art (s : State) : (discardOutput .sym s).art = s.art := rfl
@[simp] theorem discardOutput_art_art (s : State) : (discardOutput .art s).art = Memory.unspecified s.draws := rfl
@[simp] theorem discardOutput_art_sym (s : State) : (discardOutput .art s).sym = s.sym := rfl
@[simp] theorem raise_status (out : OutputMemory) (e : CommandError) (s : State) : (raise out e s).status = statusFailed e := rfl
@[simp] theorem raise_inLen (out : OutputMemory) (e : CommandError) (s : State) : (raise out e s).inLen = s.inLen := by
  cases out <;> rfl
@[simp] theorem raise_outLen (out : OutputMemory) (e : CommandError) (s : State) : (raise out e s).outLen = 0x00000000#32 := rfl
@[simp] theorem raise_seq (out : OutputMemory) (e : CommandError) (s : State) : (raise out e s).seq = .idle := rfl
@[simp] theorem raise_hid (out : OutputMemory) (e : CommandError) (s : State) : (raise out e s).hid = Config.freeHidden s.draws := rfl
@[simp] theorem raise_inputs (out : OutputMemory) (e : CommandError) (s : State) : (raise out e s).inputs = s.inputs := by
  cases out <;> rfl
@[simp] theorem raise_busData (out : OutputMemory) (e : CommandError) (s : State) : (raise out e s).busData = s.busData := by
  cases out <;> rfl
@[simp] theorem raise_endShown (out : OutputMemory) (e : CommandError) (s : State) : (raise out e s).endShown = s.endShown := by
  cases out <;> rfl
@[simp] theorem raise_draws (out : OutputMemory) (e : CommandError) (s : State) : (raise out e s).draws = s.draws + 1 := rfl
@[simp] theorem raise_caps (out : OutputMemory) (e : CommandError) (s : State) : (raise out e s).caps = s.caps := by
  cases out <;> rfl
@[simp] theorem raise_sym_sym (e : CommandError) (s : State) : (raise .sym e s).sym = Memory.unspecified s.draws := rfl
@[simp] theorem raise_sym_art (e : CommandError) (s : State) : (raise .sym e s).art = s.art := rfl
@[simp] theorem raise_art_art (e : CommandError) (s : State) : (raise .art e s).art = Memory.unspecified s.draws := rfl
@[simp] theorem raise_art_sym (e : CommandError) (s : State) : (raise .art e s).sym = s.sym := rfl

/-! ### STATUS words and the fields they show -/

@[simp] theorem statusRunning_busy : statusRunning.getLsbD 0 = true := by decide
@[simp] theorem statusSucceeded_busy : statusSucceeded.getLsbD 0 = false := by decide
@[simp] theorem statusFailed_busy (e : CommandError) : (statusFailed e).getLsbD 0 = false := by cases e <;> decide

theorem statusRunning_legal : statusRunning ∈ legalStatus := by decide
theorem statusSucceeded_legal : statusSucceeded ∈ legalStatus := by decide
theorem statusFailed_legal (e : CommandError) : statusFailed e ∈ legalStatus := by cases e <;> decide

end Sys2Proof.Machine
end

