-- ==== Sys2Proof/Laws/Table.lean ====
section
/-! SUPPORT. The laws of a store: read after write, and the canonical form kept. -/

namespace Sys2Proof

variable {κ α : Type} {rank : κ → Nat}

@[simp] theorem Table.get_nil (k : κ) : Table.get rank k ([] : Table κ α) = none := rfl

theorem Table.get_put_same (k : κ) (v : α) (t : Table κ α) : Table.get rank k (Table.put rank k v t) = some v := by
  induction t with
  | nil => simp [Table.put, Table.get]
  | cons e rest ih =>
    obtain ⟨a, u⟩ := e
    rw [Table.put]
    split
    · simp [Table.get]
    · split
      · simp [Table.get]
      · rename_i h1 h2
        have : rank a ≠ rank k := fun h => h2 h.symm
        simp [Table.get, this, ih]

theorem Table.get_put_other {j k : κ} (h : rank j ≠ rank k) (v : α) (t : Table κ α) :
    Table.get rank j (Table.put rank k v t) = Table.get rank j t := by
  have h' : rank k ≠ rank j := Ne.symm h
  induction t with
  | nil => simp [Table.put, Table.get, h']
  | cons e rest ih =>
    obtain ⟨a, u⟩ := e
    rw [Table.put]
    split
    · simp [Table.get, h']
    · split
      · rename_i h2
        have : rank a ≠ rank j := fun hh => h (hh ▸ h2.symm)
        simp [Table.get, h', this]
      · simp [Table.get, ih]

/-- What is in a store after a write: the new entry, and old entries under other keys. -/
theorem Table.mem_put {e : κ × α} {k : κ} {v : α} {t : Table κ α} (h : e ∈ Table.put rank k v t) :
    e = (k, v) ∨ e ∈ t := by
  induction t with
  | nil => simpa [Table.put] using h
  | cons d rest ih =>
    obtain ⟨a, u⟩ := d
    rw [Table.put] at h
    split at h
    · simpa using h
    · split at h
      · rcases List.mem_cons.mp h with rfl | h
        · exact .inl rfl
        · exact .inr (List.mem_cons_of_mem _ h)
      · rcases List.mem_cons.mp h with rfl | h
        · exact .inr (List.mem_cons_self ..)
        · exact (ih h).imp_right (List.mem_cons_of_mem _)

/-- A write keeps the canonical form. -/
theorem Table.put_sorted {k : κ} {v : α} {t : Table κ α} (h : Table.Sorted rank t) :
    Table.Sorted rank (Table.put rank k v t) := by
  induction t with
  | nil => simp [Table.put, Table.Sorted]
  | cons d rest ih =>
    obtain ⟨a, u⟩ := d
    obtain ⟨hd, hr⟩ := List.pairwise_cons.mp h
    rw [Table.put]
    split
    · rename_i hlt
      refine List.pairwise_cons.mpr ⟨fun e he => ?_, h⟩
      rcases List.mem_cons.mp he with rfl | he
      · exact hlt
      · exact Nat.lt_trans hlt (hd e he)
    · split
      · rename_i heq
        exact List.pairwise_cons.mpr ⟨fun e he => by simpa [heq] using hd e he, hr⟩
      · rename_i h1 h2
        refine List.pairwise_cons.mpr ⟨fun e he => ?_, ih hr⟩
        rcases Table.mem_put he with rfl | he
        · exact Nat.lt_of_le_of_ne (Nat.le_of_not_lt h1) fun hh => h2 hh.symm
        · exact hd e he

/-- In a canonical store an entry is what its key reads as. -/
theorem Table.get_of_mem {k : κ} {v : α} {t : Table κ α} (h : Table.Sorted rank t) (hm : (k, v) ∈ t) :
    Table.get rank k t = some v := by
  induction t with
  | nil => simp at hm
  | cons d rest ih =>
    obtain ⟨a, u⟩ := d
    obtain ⟨hd, hr⟩ := List.pairwise_cons.mp h
    rcases List.mem_cons.mp hm with heq | hm
    · cases heq
      simp [Table.get]
    · have : rank a ≠ rank k := Nat.ne_of_lt (hd _ hm)
      simp [Table.get, this, ih hr hm]

/-- A key that reads as a value has an entry of the same rank with that value. -/
theorem Table.mem_of_get {k : κ} {v : α} {t : Table κ α} (h : Table.get rank k t = some v) :
    ∃ a, rank a = rank k ∧ (a, v) ∈ t := by
  induction t with
  | nil => simp at h
  | cons d rest ih =>
    obtain ⟨a, u⟩ := d
    rw [Table.get] at h
    split at h
    · cases h
      exact ⟨a, ‹_›, List.mem_cons_self ..⟩
    · obtain ⟨b, hb, hm⟩ := ih h
      exact ⟨b, hb, List.mem_cons_of_mem _ hm⟩

/-- A write under a key not yet present makes the store one entry longer. -/
theorem Table.length_put_new {k : κ} {v : α} {t : Table κ α} (h : Table.get rank k t = none) :
    (Table.put rank k v t).length = t.length + 1 := by
  induction t with
  | nil => rfl
  | cons d rest ih =>
    obtain ⟨a, u⟩ := d
    rw [Table.get] at h
    split at h
    · cases h
    · rename_i hne
      rw [Table.put]
      split
      · rfl
      · rw [if_neg fun hh => hne hh.symm]
        simp [ih h]

/-- A write under a present key keeps the length. -/
theorem Table.length_put_old {k : κ} {v w : α} {t : Table κ α} (hs : Table.Sorted rank t)
    (h : Table.get rank k t = some w) : (Table.put rank k v t).length = t.length := by
  induction t with
  | nil => cases h
  | cons d rest ih =>
    obtain ⟨a, u⟩ := d
    obtain ⟨hd, hr⟩ := List.pairwise_cons.mp hs
    rw [Table.get] at h
    rw [Table.put]
    split at h
    · rename_i heq
      simp [heq]
    · rename_i hne
      obtain ⟨b, hb, hm⟩ := Table.mem_of_get h
      have hlt : rank a < rank k := hb ▸ hd _ hm
      rw [if_neg (Nat.not_lt_of_lt hlt), if_neg (Nat.ne_of_gt hlt)]
      simp [ih hr h]

end Sys2Proof
end

