-- ==== Sys2Proof/Laws/Memory.lean ====
section
/-! SUPPORT. Memory: read after write, and every memory operation keeps the canonical form. -/

namespace Sys2Proof.Machine

variable {w : Nat}

theorem Memory.written_write_same (m : Memory w) (i : Nat) (v : BitVec w) : (m.write i v).written i = some v :=
  Table.get_put_same i v m.cells

theorem Memory.written_write_other (m : Memory w) {i j : Nat} (h : j ≠ i) (v : BitVec w) :
    (m.write i v).written j = m.written j :=
  Table.get_put_other (by simpa using h) v m.cells

@[simp] theorem Memory.write_epoch (m : Memory w) (i : Nat) (v : BitVec w) : (m.write i v).epoch = m.epoch := rfl

@[simp] theorem Memory.unspecified_epoch (d : Nat) : (Memory.unspecified d : Memory w).epoch = d := rfl

@[simp] theorem Memory.unspecified_written (d i : Nat) : (Memory.unspecified d : Memory w).written i = none := rfl

theorem Memory.write_wf {m : Memory w} (h : m.wf) (i : Nat) (v : BitVec w) : (m.write i v).wf := Table.put_sorted h

theorem Memory.unspecified_wf (d : Nat) : (Memory.unspecified d : Memory w).wf := List.Pairwise.nil

/-- The addresses listed after a write. -/
theorem Memory.write_below {m : Memory w} {cap i : Nat} {v : BitVec w} (h : ∀ c ∈ m.cells, c.1 < cap) (hi : i < cap) :
    ∀ c ∈ (m.write i v).cells, c.1 < cap := by
  intro c hc
  rcases Table.mem_put hc with rfl | hc
  · exact hi
  · exact h c hc

theorem reset_sym_wf : State.reset.sym.wf := List.Pairwise.nil

theorem reset_art_wf : State.reset.art.wf := List.Pairwise.nil

@[simp] theorem readSym_writeSym_same (i : Nat) (v : Word) (s : State) : readSym (writeSym i v s) i = v := by
  simp [readSym, Memory.written_write_same]

theorem readSym_writeSym_other {i j : Nat} (h : j ≠ i) (v : Word) (s : State) :
    readSym (writeSym i v s) j = readSym s j := by
  simp [readSym, Memory.written_write_other _ h]

@[simp] theorem readArt_writeArt_same (a : Nat) (b : Byte) (s : State) : readArt (writeArt a b s) a = b := by
  simp [readArt, Memory.written_write_same]

theorem readArt_writeArt_other {a c : Nat} (h : c ≠ a) (b : Byte) (s : State) :
    readArt (writeArt a b s) c = readArt s c := by
  simp [readArt, Memory.written_write_other _ h]

/-! ### The bit writer -/

/-- What `EmitBit` leaves alone: everything but ART and `wpos`. -/
theorem emitBit_frame (b : Bool) (s : State) :
    emitBit b s = { s with art := (emitBit b s).art, hid := { s.hid with wpos := s.hid.wpos + 1 } } := rfl

@[simp] theorem emitBit_wpos (b : Bool) (s : State) : (emitBit b s).hid.wpos = s.hid.wpos + 1 := rfl

theorem emitBit_readArt_other (b : Bool) (s : State) {a : Nat} (h : a ≠ s.hid.wpos / 8) :
    readArt (emitBit b s) a = readArt s a :=
  readArt_writeArt_other h _ s

theorem emitBit_wf {s : State} (h : s.art.wf) (b : Bool) : (emitBit b s).art.wf := Memory.write_wf h _ _

@[simp] theorem emitBits_nil (s : State) : emitBits [] s = s := rfl

@[simp] theorem emitBits_cons (b : Bool) (bits : Bits) (s : State) :
    emitBits (b :: bits) s = emitBits bits (emitBit b s) := rfl

theorem emitBits_append (xs ys : Bits) (s : State) : emitBits (xs ++ ys) s = emitBits ys (emitBits xs s) := by
  induction xs generalizing s with
  | nil => rfl
  | cons b xs ih => simp [ih]

/-- What `EmitBits` leaves alone, and where `wpos` ends. -/
theorem emitBits_frame (bits : Bits) (s : State) :
    emitBits bits s =
      { s with art := (emitBits bits s).art, hid := { s.hid with wpos := s.hid.wpos + bits.length } } := by
  induction bits generalizing s with
  | nil => rfl
  | cons b bits ih =>
    rw [emitBits_cons, ih (emitBit b s), emitBit_frame b s]
    simp only [List.length_cons, Nat.add_comm bits.length 1, Nat.add_assoc]

@[simp] theorem emitBits_wpos (bits : Bits) (s : State) : (emitBits bits s).hid.wpos = s.hid.wpos + bits.length := by
  rw [emitBits_frame]

theorem emitBits_wf {s : State} (h : s.art.wf) (bits : Bits) : (emitBits bits s).art.wf := by
  induction bits generalizing s with
  | nil => exact h
  | cons b bits ih => exact ih (emitBit_wf h b)

theorem emitBit_art_epoch (b : Bool) (s : State) : (emitBit b s).art.epoch = s.art.epoch := rfl

theorem emitBits_art_epoch (bits : Bits) (s : State) : (emitBits bits s).art.epoch = s.art.epoch := by
  induction bits generalizing s with
  | nil => rfl
  | cons b bits ih => rw [emitBits_cons, ih, emitBit_art_epoch]

/-- `emit` either writes its bits or, with no room, stops. -/
theorem emit_cases (bits : Bits) (s : State) :
    (s.hid.wpos + bits.length ≤ 8 * s.caps.artCap ∧ emit bits s = .next (emitBits bits s)) ∨
      (8 * s.caps.artCap < s.hid.wpos + bits.length ∧ emit bits s = .fault .artOutside) := by
  unfold emit
  split
  · exact .inl ⟨‹_›, rfl⟩
  · exact .inr ⟨Nat.lt_of_not_le ‹_›, rfl⟩

/-! ### The bit reader -/

theorem readBit_cases (s : State) :
    (8 * s.hid.latLen.toNat ≤ s.hid.rpos ∧ readBit s = none) ∨
      (s.hid.rpos < 8 * s.hid.latLen.toNat ∧ readBit s = some (streamBit s s.hid.rpos, s.advance 1)) := by
  unfold readBit
  split
  · exact .inl ⟨‹_›, rfl⟩
  · exact .inr ⟨Nat.lt_of_not_le ‹_›, rfl⟩

@[simp] theorem streamBit_advance (s : State) (len p : Nat) : streamBit (s.advance len) p = streamBit s p := rfl

/-- The bits read ahead are the stream's bits from `rpos` on, as many as asked for or as are left. -/
theorem readAhead_eq (k : Nat) (s : State) :
    readAhead k s =
      (List.range (min k (8 * s.hid.latLen.toNat - s.hid.rpos))).map fun j => streamBit s (s.hid.rpos + j) := by
  induction k generalizing s with
  | zero => simp [readAhead]
  | succ k ih =>
    rcases readBit_cases s with ⟨h, hb⟩ | ⟨h, hb⟩
    · simp [readAhead, hb, Nat.sub_eq_zero_of_le h]
    · have hm : min (k + 1) (8 * s.hid.latLen.toNat - s.hid.rpos)
          = min k (8 * s.hid.latLen.toNat - (s.hid.rpos + 1)) + 1 := by omega
      simp only [readAhead, hb, ih (s.advance 1), hm, List.range_succ_eq_map, List.map_cons, List.map_map]
      simp [Function.comp_def, Nat.add_assoc, Nat.add_comm 1]

theorem readAhead_length (k : Nat) (s : State) :
    (readAhead k s).length = min k (8 * s.hid.latLen.toNat - s.hid.rpos) := by
  simp [readAhead_eq]

end Sys2Proof.Machine
end

