-- ==== Sys2Proof/Laws/Ops.lean ====
section
/-! SUPPORT. For each shared operation, once, everything it can do. -/

namespace Sys2Proof.Machine

/-- A command word acts while idle and is ignored while busy (43_commands.md R240). -/
theorem whileIdle_cases (act : State → State) (s : State) :
    (s.busy = true ∧ whileIdle act s = .next s) ∨ (s.busy = false ∧ whileIdle act s = .next (act s)) := by
  unfold whileIdle
  cases s.busy <;> simp

/-- A node is allocated, or the store is full (41_tree_codec.md R184). -/
theorem allocNode_cases (use : Nat → State → Outcome) (s : State) :
    (s.hid.ncount = s.caps.nodeCap ∧ allocNode use s = .next (raise .sym .capacityExceeded s)) ∨
      (s.hid.ncount ≠ s.caps.nodeCap ∧
        allocNode use s = use s.hid.ncount { s with hid := { s.hid with ncount := s.hid.ncount + 1 } }) := by
  unfold allocNode
  split
  · exact .inl ⟨‹_›, rfl⟩
  · exact .inr ⟨‹_›, rfl⟩

/-- Writing a node is seen at its own index only. -/
theorem nodeAt_writeNode_same (i : Nat) (node : Node) (s : State) : nodeAt (writeNode i node s) i = some node :=
  Table.get_put_same i node s.hid.nodes

theorem nodeAt_writeNode_other {i j : Nat} (h : j ≠ i) (node : Node) (s : State) :
    nodeAt (writeNode i node s) j = nodeAt s j :=
  Table.get_put_other (by simpa using h) node s.hid.nodes

/-- What completing the tree gives, by the kind of its root (43_commands.md R247, 42_text_codec.md R212). -/
theorem startText_cases (root : Nat) (s : State) :
    (∃ c, nodeAt s root = some (.leaf c) ∧ startText root s = .next (raise .sym .degenerateAlphabet s)) ∨
    (∃ l r, nodeAt s root = some (.internal l r) ∧ startText root s = .next { s with
      seq := .decText
      hid := { s.hid with root := some root, cur := root, remain := s.hid.count, outidx := 0 } }) ∨
    (nodeAt s root = none ∧ startText root s = .fault .nodeMissing) := by
  unfold startText
  split
  · exact .inl ⟨_, ‹_›, rfl⟩
  · exact .inr (.inl ⟨_, _, ‹_›, rfl⟩)
  · exact .inr (.inr ⟨‹_›, rfl⟩)

/-- Returning a node touches neither ART, the registers the host writes, nor anything outside the block. -/
theorem returnNode_kept {frames : List Frame} {i : Nat} {s t : State} (h : returnNode frames i s = .next t) :
    t.art = s.art ∧ t.inLen = s.inLen ∧ t.inputs = s.inputs ∧ t.busData = s.busData ∧ t.endShown = s.endShown
      ∧ t.caps = s.caps := by
  induction frames generalizing i s with
  | nil =>
    rw [returnNode] at h
    rcases startText_cases i { s with hid := { s.hid with deser := [] } } with ⟨c, -, hc⟩ | ⟨l, r, -, hc⟩ | ⟨-, hc⟩
    · rw [hc] at h
      cases h
      simp
    · rw [hc] at h
      cases h
      simp
    · rw [hc] at h
      cases h
  | cons f rest ih =>
    cases f with
    | awaitLeft p =>
      rw [returnNode] at h
      cases h
      simp
    | awaitRight p l =>
      rw [returnNode] at h
      simpa using ih h

/-! ### The host's accesses -/

@[simp] theorem noteRead_status (o : Nat) (v : Word) (s : State) : (noteRead o v s).status = s.status := rfl
@[simp] theorem noteRead_inLen (o : Nat) (v : Word) (s : State) : (noteRead o v s).inLen = s.inLen := rfl
@[simp] theorem noteRead_outLen (o : Nat) (v : Word) (s : State) : (noteRead o v s).outLen = s.outLen := rfl
@[simp] theorem noteRead_seq (o : Nat) (v : Word) (s : State) : (noteRead o v s).seq = s.seq := rfl
@[simp] theorem noteRead_sym (o : Nat) (v : Word) (s : State) : (noteRead o v s).sym = s.sym := rfl
@[simp] theorem noteRead_art (o : Nat) (v : Word) (s : State) : (noteRead o v s).art = s.art := rfl
@[simp] theorem noteRead_hid (o : Nat) (v : Word) (s : State) : (noteRead o v s).hid = s.hid := rfl
@[simp] theorem noteRead_inputs (o : Nat) (v : Word) (s : State) : (noteRead o v s).inputs = s.inputs := rfl
@[simp] theorem noteRead_draws (o : Nat) (v : Word) (s : State) : (noteRead o v s).draws = s.draws := rfl
@[simp] theorem noteRead_caps (o : Nat) (v : Word) (s : State) : (noteRead o v s).caps = s.caps := rfl

/-- A read of any register but STATUS shows the host nothing of a command's end. -/
theorem noteRead_other {o : Nat} (h : o ≠ 0x04) (v : Word) (s : State) :
    noteRead o v s = { s with busData := some (.word v) } := by
  simp [noteRead, h]

/-- While BUSY even a STATUS read shows no end. -/
theorem noteRead_busy {s : State} (h : s.busy = true) (o : Nat) (v : Word) :
    noteRead o v s = { s with busData := some (.word v) } := by
  simp [noteRead, h]

/-- A host access to SYM or ART is carried out exactly while idle, after the end was seen, inside the memory. -/
theorem hostMemory_cases (inside : Prop) [Decidable inside] (outside : Refusal) (moved s : State) :
    (s.busy = true ∧ hostMemory inside outside moved s = .refused .accessWhileBusy) ∨
    (s.busy = false ∧ s.endShown = false ∧ hostMemory inside outside moved s = .refused .accessBeforeEndShown) ∨
    (s.busy = false ∧ s.endShown = true ∧ ¬ inside ∧ hostMemory inside outside moved s = .refused outside) ∨
    (s.busy = false ∧ s.endShown = true ∧ inside ∧ hostMemory inside outside moved s = .next moved) := by
  unfold hostMemory
  cases s.busy <;> cases s.endShown <;> by_cases h : inside <;> simp [h]

/-! ### The queue (40_frequency_and_tree.md R143) -/

theorem keyBelow_iff (s : State) (i j : Nat) : keyBelow s i j = true ↔
    (weightAt s i).toNat < (weightAt s j).toNat ∨ ((weightAt s i).toNat = (weightAt s j).toNat ∧ i < j) := by
  simp [keyBelow, BitVec.ult, BitVec.toNat_inj]

/-- Keys are unique, so of two indices one is below the other. -/
theorem keyBelow_total (s : State) {i j : Nat} (h : keyBelow s i j = false) (hne : i ≠ j) : keyBelow s j i = true := by
  rw [keyBelow_iff]
  have := mt (keyBelow_iff s i j).mpr (by simp [h])
  omega

theorem keyBelow_trans {s : State} {i j k : Nat} (h : keyBelow s i j = true) (h' : keyBelow s j k = true) :
    keyBelow s i k = true := by
  rw [keyBelow_iff] at *
  omega

theorem smallest_eq_none {s : State} {l : List Nat} : smallest s l = none ↔ l = [] := by
  cases l with
  | nil => simp [smallest]
  | cons i rest =>
    rw [smallest]
    split
    · simp
    · split <;> simp

/-- The smallest entry is an entry, and its key is below every other's. -/
theorem smallest_spec {s : State} {l : List Nat} {i : Nat} (h : smallest s l = some i) :
    i ∈ l ∧ ∀ j ∈ l, j ≠ i → keyBelow s i j = true := by
  induction l generalizing i with
  | nil => cases h
  | cons a rest ih =>
    rw [smallest] at h
    split at h
    · rename_i hn
      cases h
      rw [smallest_eq_none.mp hn]
      simp
    · rename_i m hm
      obtain ⟨hmem, hmin⟩ := ih hm
      split at h
      · rename_i hb
        cases h
        refine ⟨List.mem_cons_self .., fun j hj hne => ?_⟩
        rcases List.mem_cons.mp hj with rfl | hj
        · exact absurd rfl hne
        · by_cases hjm : j = m
          · exact hjm ▸ hb
          · exact keyBelow_trans hb (hmin j hj hjm)
      · rename_i hb
        cases h
        refine ⟨List.mem_cons_of_mem _ hmem, fun j hj hne => ?_⟩
        rcases List.mem_cons.mp hj with rfl | hj
        · exact keyBelow_total s (by simpa using hb) (Ne.symm hne ∘ Eq.symm)
        · exact hmin j hj hne

/-- `extract_min` on an empty queue gives nothing; otherwise it takes the entry whose key is below all others. -/
theorem extractMin_cases (s : State) :
    (s.hid.pq = [] ∧ extractMin s = none) ∨
      ∃ i, i ∈ s.hid.pq ∧ (∀ j ∈ s.hid.pq, j ≠ i → keyBelow s i j = true) ∧
        extractMin s = some (i, { s with hid := { s.hid with pq := s.hid.pq.filter fun j => decide (j ≠ i) } }) := by
  unfold extractMin
  split
  · exact .inl ⟨smallest_eq_none.mp ‹_›, rfl⟩
  · rename_i i hi
    exact .inr ⟨i, (smallest_spec hi).1, (smallest_spec hi).2, rfl⟩

/-! ### The fetch -/

theorem readLeaf_length {fuel : Nat} {sofar bytes : List Byte} {bits : Bits}
    (h : readLeaf fuel sofar bits = .valid bytes ∨ readLeaf fuel sofar bits = .invalid bytes) :
    8 * bytes.length ≤ 8 * sofar.length + bits.length := by
  induction fuel generalizing sofar bits with
  | zero =>
    rcases h with h | h <;> rw [readLeaf] at h <;> cases h
    omega
  | succ fuel ih =>
    rw [readLeaf] at h
    rcases takeByte_cases bits with ⟨-, hb⟩ | ⟨b, rest, rfl, hb⟩
    · rw [hb] at h
      rcases h with h | h <;> cases h
    · rw [hb] at h
      dsimp only at h
      split at h
      · rcases h with h | h <;> cases h
        simp
        omega
      · have := ih h
        simp at this ⊢
        omega

/-- A decoded token is not longer than the bits it was read from. -/
theorem decode_length_le {f : Format} {bits : Bits} {i : Instr} {n : Nat} (h : decode f bits = .ok (i, n)) :
    n ≤ bits.length := by
  have word : ∀ {w : Word}, takeWord bits = .ok w → 32 ≤ bits.length := by
    intro w hw
    unfold takeWord at hw
    split at hw
    · assumption
    · cases hw
  cases f with
  | command =>
    rw [decode] at h
    split at h <;> cases h
    exact word ‹_›
  | artifactHeader =>
    rw [decode] at h
    split at h <;> cases h
    exact word ‹_›
  | treeToken =>
    rw [decode] at h
    unfold decodeTree at h
    split at h
    · cases h
    · cases h
      simp
    · split at h
      · cases h
        have := readLeaf_length (.inl ‹_›)
        simp at this ⊢
        omega
      · cases h
        have := readLeaf_length (.inr ‹_›)
        simp at this ⊢
        omega
      · cases h
  | textBit =>
    rw [decode] at h
    unfold decodeText at h
    split at h <;> cases h <;> simp

/-- A fetch past ART's end stops; otherwise it runs the token it decodes, past which `rpos` has moved, or ends the
command where the stream ends. -/
theorem fetchToken_cases (f : Format) (s : State) :
    (s.caps.artCap < s.hid.latLen.toNat ∧ fetchToken f s = .done (.fault .artOutside)) ∨
    (s.hid.latLen.toNat ≤ s.caps.artCap ∧
      ((∃ i len, decode f (readAhead f.maxLength s) = .ok (i, len) ∧ fetchToken f s = .run i (s.advance len)) ∨
        fetchToken f s = .done (.next (streamEnd f s)))) := by
  unfold fetchToken
  split
  · exact .inl ⟨‹_›, rfl⟩
  · refine .inr ⟨Nat.le_of_not_lt ‹_›, ?_⟩
    split
    · exact .inl ⟨_, _, ‹_›, rfl⟩
    · exact .inr rfl

/-- The two errors a stream's end can be. -/
theorem streamEnd_cases (f : Format) (s : State) :
    streamEnd f s = raise .sym .capacityExceeded s ∨ streamEnd f s = raise .sym .truncatedInput s := by
  unfold streamEnd
  split
  · exact .inl rfl
  · exact .inr rfl

/-! ### The step, by its next event -/

theorem step_run {s t : State} {i : Instr} (h : nextEvent s = .run i t) : step s = exec i t := by
  simp [step, h]

theorem step_done {s : State} {o : Outcome} (h : nextEvent s = .done o) : step s = o := by
  simp [step, h]

theorem nextEvent_none {s : State} (h : s.inputs = []) : nextEvent s = coreTurn s := by
  simp [nextEvent, h]

theorem nextEvent_core {s : State} {rest : List Input} (h : s.inputs = .core :: rest) :
    nextEvent s = coreTurn { s with inputs := rest } := by
  simp [nextEvent, h]

theorem nextEvent_host {s : State} {tx : HostTx} {rest : List Input} (h : s.inputs = .host tx :: rest) :
    nextEvent s = hostAccess tx { s with inputs := rest } := by
  simp [nextEvent, h]

end Sys2Proof.Machine
end

