-- ==== Sys2Proof/Laws/PerInstr.lean ====
section
/-! SUPPORT. Facts made per instruction. The family EncodedLength: the encoder's bits are as many as R100 and R105 give
the row. -/

namespace Sys2Proof.Laws.EncodedLength

/-- The encoding is as long as the row says. -/
def Statement (i : Instr) : Prop := (encode i).length = i.bitLength

theorem encode : Statement .encode := bitsOf_length _
theorem decode : Statement .decode := bitsOf_length _
theorem illegal (opword : BitVec 32) : Statement (.illegal opword) := bitsOf_length _
theorem header (symbolCount : BitVec 32) : Statement (.header symbolCount) := bitsOf_length _
theorem treeInternal : Statement .treeInternal := rfl
theorem treeLeaf1 (x : BitVec 7) : Statement (.treeLeaf1 x) := rfl
theorem treeLeaf2 (y : BitVec 5) (x : BitVec 6) : Statement (.treeLeaf2 y x) := rfl
theorem treeLeaf3 (z : BitVec 4) (y x : BitVec 6) : Statement (.treeLeaf3 z y x) := rfl
theorem treeLeaf4 (u : BitVec 5) (z : BitVec 4) (y x : BitVec 6) : Statement (.treeLeaf4 u z y x) := rfl
theorem treeLeafInvalid (b : BitVec 32) : Statement (.treeLeafInvalid b) := rfl
theorem textLeft : Statement .textLeft := rfl
theorem textRight : Statement .textRight := rfl

end Sys2Proof.Laws.EncodedLength
end

