-- ==== Sys2Proof/Tests/Slice0.lean ====
section
/-! SUPPORT. Tests, each about one step or one function, with expected values from the worked examples of spec/ and from
95_test_vectors.md (its vector named in the comment); and for every statement with hypotheses a state that meets them. -/

namespace Sys2Proof.Tests

open Sys2Proof Sys2Proof.Machine

/-! ### Small states -/

/-- The parameters of 95_test_vectors.md's conventions. -/
def testCaps : Caps where
  symCap := 64
  artCap := 256
  leafCap := 64
  nodeCap := 127
  symCap_pos := by decide
  symCap_le := by decide
  artCap_ge := by decide
  artCap_le := by decide
  leafCap_ge := by decide
  leafCap_le := by decide
  nodeCap_ge := by decide

/-- The block after reset, with those parameters. -/
def idleState : State := { State.reset with caps := testCaps }

/-- A command running at this stage with this hidden state. -/
def running (stage : Seq) (h : Hidden) : State :=
  { idleState with status := 0x1#32, seq := stage, hid := h, endShown := false }

/-- The first bytes of ART. -/
def withArt (bytes : List Byte) (s : State) : State :=
  { s with art := { s.art with cells := bytes.zipIdx.map fun e => (e.2, e.1) } }

/-- The first words of SYM. -/
def withSym (words : List Word) (s : State) : State :=
  { s with sym := { s.sym with cells := words.zipIdx.map fun e => (e.2, e.1) } }

/-- The outcome is a next state with this property. -/
def nextHas (p : State → Bool) (o : Outcome) : Bool :=
  match o with
  | .next t => p t
  | _ => false

/-- DEC_TEXT at the root of the tree of vector E4: `a` left, `b` right. -/
def walkHidden : Hidden :=
  { Hidden.zero with
    latOp := 2#32, latLen := 7#32, rpos := 51, count := 2#32, remain := 2#32, root := some 0, cur := 0, ncount := 3,
    nodes := [(0, .internal 1 2), (1, .leaf 0x61#21), (2, .leaf 0x62#21)] }

/-- The artifact of vector E4, at the first text bit. -/
def walkState : State := withArt [0x00, 0x00, 0x00, 0x02, 0x58, 0x6C, 0x48] (running .decText walkHidden)

/-- DESER_TREE over the artifact of vector E4, `rpos` at 32. -/
def treeState : State :=
  withArt [0x00, 0x00, 0x00, 0x02, 0x58, 0x6C, 0x48]
    (running .deserTree { Hidden.zero with latOp := 2#32, latLen := 7#32, rpos := 32, count := 2#32 })

/-- HDR of a DECODE with this IN_LEN. -/
def hdrState (len : Word) : State := running .hdr { Hidden.zero with latOp := 2#32, latLen := len }

/-- COUNT of the two words `a`, `b`, both read. -/
def countedState : State :=
  withSym [0x61, 0x62] (running .count
    { Hidden.zero with
      latOp := 1#32, latLen := 2#32, n := 2, idx := 2, freq := [(0x61#21, 1#32), (0x62#21, 1#32)] })

/-- BUILD of `ab` with its leaves made (vector B2). -/
def mergeState : State :=
  running .build
    { Hidden.zero with
      latOp := 1#32, latLen := 2#32, n := 2, k := 2, freq := [(0x61#21, 1#32), (0x62#21, 1#32)], ncount := 2,
      nodes := [(0, .leaf 0x61#21), (1, .leaf 0x62#21)], weights := [(0, 1#32), (1, 1#32)], pq := [0, 1] }

/-- The tree of `ab` (vectors B2, K2) at a later stage of its ENCODE. -/
def builtHidden : Hidden :=
  { Hidden.zero with
    latOp := 1#32, latLen := 2#32, n := 2, k := 2, freq := [(0x61#21, 1#32), (0x62#21, 1#32)], ncount := 3,
    nodes := [(0, .leaf 0x61#21), (1, .leaf 0x62#21), (2, .internal 0 1)], root := some 2,
    codes := [(0x61#21, [false]), (0x62#21, [true])] }

/-! ### Well-formedness: an ill-formed term for each check -/

theorem test_wf_illegal_one : (Instr.illegal 1#32).wellFormed = false := by decide
theorem test_wf_illegal_two : (Instr.illegal 2#32).wellFormed = false := by decide
theorem test_wf_leaf2_overlong : (Instr.treeLeaf2 1#5 0#6).wellFormed = false := by decide
theorem test_wf_leaf3_overlong : (Instr.treeLeaf3 0#4 0x1F#6 0#6).wellFormed = false := by decide
theorem test_wf_leaf3_surrogate : (Instr.treeLeaf3 0xD#4 0x20#6 0#6).wellFormed = false := by decide
theorem test_wf_leaf4_overlong : (Instr.treeLeaf4 0#5 0xF#4 0#6 0#6).wellFormed = false := by decide
theorem test_wf_leaf4_above : (Instr.treeLeaf4 0x11#5 0#4 0#6 0#6).wellFormed = false := by decide
theorem test_wf_invalid_is_leaf : (Instr.treeLeafInvalid 0x61000000#32).wellFormed = false := by decide
theorem test_wf_boundaries :
    (Instr.treeLeaf2 2#5 0#6).wellFormed = true ∧ (Instr.treeLeaf3 0#4 0x20#6 0#6).wellFormed = true
    ∧ (Instr.treeLeaf3 0xD#4 0x1F#6 0x3F#6).wellFormed = true ∧ (Instr.treeLeaf4 1#5 0#4 0#6 0#6).wellFormed = true
    ∧ (Instr.treeLeaf4 0x10#5 0xF#4 0x3F#6 0x3F#6).wellFormed = true := by decide

/-! ### Decoding: each constructor by a word written out from its encoding -/

/-- R101. -/
theorem test_decode_encode_word : decodeCommand 0x00000001#32 = .encode := by decide
theorem test_decode_decode_word : decodeCommand 0x00000002#32 = .decode := by decide
/-- Vectors C3, C4: the word is compared whole. -/
theorem test_decode_illegal_words :
    decodeCommand 0x00000000#32 = .illegal 0#32 ∧ decodeCommand 0x80000001#32 = .illegal 0x80000001#32 := by decide
/-- Vector P-4. -/
theorem test_decode_header :
    decode .artifactHeader
      [false, false, false, false, false, false, false, false, false, false, false, false, false, false, false, false,
        false, false, false, false, false, false, false, false, false, false, false, false, true, false, true, true]
      = .ok (.header 11#32, 32) := by decide
/-- R181: `"0"`. -/
theorem test_decode_internal : decode .treeToken [false, true, true] = .ok (.treeInternal, 1) := by decide
/-- R182: `a` is `"101100001"`. -/
theorem test_decode_leaf1 :
    decode .treeToken [true, false, true, true, false, false, false, false, true] = .ok (.treeLeaf1 0x61#7, 9) := by decide
/-- R182, R186: `é` is `"1" ++ "11000011" ++ "10101001"`. -/
theorem test_decode_leaf2 :
    decode .treeToken
      [true, true, true, false, false, false, false, true, true, true, false, true, false, true, false, false, true]
      = .ok (.treeLeaf2 3#5 0x29#6, 17) := by decide
/-- Vectors U4, U11: U+20AC is `E2 82 AC`. -/
theorem test_decode_leaf3 :
    decode .treeToken (true :: natBits 24 0xE282AC) = .ok (.treeLeaf3 2#4 2#6 0x2C#6, 25) := by decide
/-- Vectors U5, U12: U+1F600 is `F0 9F 98 80`. -/
theorem test_decode_leaf4 :
    decode .treeToken (true :: natBits 32 0xF09F9880) = .ok (.treeLeaf4 1#5 0xF#4 0x18#6 0#6, 33) := by decide
/-- Vectors U13 to U17, each four bytes that never validate. -/
theorem test_decode_invalid :
    (List.all [0xC0800000, 0xE0808080, 0xF0808080, 0xEDA08000, 0xF4908080, 0xF5808080, 0xFFFFFFFF, 0x80000000, 0xC3410000]
      fun v => decide (decodeTree (true :: natBits 32 v) |>.toOption.map Prod.fst
        |>.isEqSome (.treeLeafInvalid (BitVec.ofNat 32 v)))) = true := by decide
/-- Vector T16: the byte needs more bits than there are. -/
theorem test_decode_truncated :
    decode .treeToken [true, false, true, true, false, false, false] = .error .endOfStream := by decide
/-- R106. -/
theorem test_decode_text : decode .textBit [false] = .ok (.textLeft, 1) ∧ decode .textBit [true] = .ok (.textRight, 1) := by
  decide
/-- R108's worked values. -/
theorem test_utf8_encode :
    utf8Encode 0x61#21 = [0x61#8] ∧ utf8Encode 0xE9#21 = [0xC3#8, 0xA9#8] ∧ utf8Encode 0x20AC#21 = [0xE2#8, 0x82#8, 0xAC#8]
    ∧ utf8Encode 0x1F600#21 = [0xF0#8, 0x9F#8, 0x98#8, 0x80#8] ∧ utf8Encode 0x10FFFF#21 = [0xF4#8, 0x8F#8, 0xBF#8, 0xBF#8] := by
  decide
/-- Vectors U7, U8. -/
theorem test_isScalar :
    isScalar 0xD7FF = true ∧ isScalar 0xD800 = false ∧ isScalar 0xDFFF = false ∧ isScalar 0xE000 = true
    ∧ isScalar 0x10FFFF = true ∧ isScalar 0x110000 = false ∧ isScalar 0xFFFFFFFF = false := by decide
/-- The table words of three rows, and what the next step runs after reset (log entry 15). -/
theorem test_table_words :
    decodeTableWord 32 1 = some .encode ∧ decodeTableWord 16 0b101100001 = some (.treeLeaf1 0x61#7)
    ∧ decodeTableWord 40 0x1FFFFFFFF = some (.treeLeafInvalid 0xFFFFFFFF#32) ∧ decodeTableWord 16 0 = none := by decide
theorem test_fetch_word_encode :
    nextHas (fun t => t.seq == .count) (step (State.reset.withFetchWord 32 1)) = true := by decide
theorem test_fetch_word_leaf1 :
    nextHas (fun t => t.status == 0x32#32) (step (State.reset.withFetchWord 16 0b101100001)) = true := by decide

/-! ### Instructions -/

/-- Vector C5. -/
theorem test_encode_accept :
    nextHas (fun t => t.status == 1#32 && t.outLen == 0#32 && t.hid.latLen == 11#32 && t.seq == .count)
      (exec .encode { idleState with inLen := 11#32, outLen := 3#32 }) = true := by decide
/-- R241. -/
theorem test_decode_accept :
    nextHas (fun t => t.status == 1#32 && t.hid.latOp == 2#32 && t.seq == .hdr)
      (exec .decode { idleState with status := 0x32#32 }) = true := by decide
/-- Vector C6. -/
theorem test_command_while_busy :
    nextHas (fun t => t == walkState) (exec .decode walkState) = true
    ∧ nextHas (fun t => t == walkState) (exec (.illegal 0#32) walkState) = true := by decide
/-- Vector C2. -/
theorem test_illegal :
    nextHas (fun t => t.status == 0x62#32 && t.outLen == 0#32 && t.seq == .idle)
      (exec (.illegal 3#32) { idleState with outLen := 5#32 }) = true := by decide
/-- Vector D5: count 0. -/
theorem test_header_zero :
    nextHas (fun t => t.status == 2#32 && t.outLen == 0#32) (exec (.header 0#32) (hdrState 4#32)) = true := by decide
/-- Vector D14: a count above SYM_CAP. -/
theorem test_header_too_large :
    nextHas (fun t => t.status == 0x42#32 && t.sym.cells.isEmpty) (exec (.header 65#32) (hdrState 4#32)) = true := by decide
/-- R184, R185: the root takes number 0. -/
theorem test_tree_internal :
    nextHas (fun t => t.hid.ncount == 1 && t.hid.deser == [.awaitLeft 0]) (exec .treeInternal treeState) = true := by decide
/-- Vector T12: a tree of one leaf. -/
theorem test_single_leaf :
    nextHas (fun t => t.status == 0x32#32) (exec (.treeLeaf1 0x61#7) treeState) = true := by decide
/-- R185's worked example: node 0 INTERNAL, left 1 `a`, right 2 `b`. -/
theorem test_last_leaf :
    nextHas (fun t => t.hid.nodes == [(0, .internal 1 2), (1, .leaf 0x61#21), (2, .leaf 0x62#21)]
        && t.seq == .decText && t.hid.root == some 0 && t.hid.remain == 2#32)
      (exec (.treeLeaf1 0x62#7) { treeState with
        hid := { treeState.hid with ncount := 2, nodes := [(1, .leaf 0x61#21)], deser := [.awaitRight 0 1] } }) = true := by
  decide
/-- R186: `é` under a waiting parent. -/
theorem test_leaf2 :
    nextHas (fun t => t.hid.nodes == [(1, .leaf 0xE9#21)] && t.hid.deser == [.awaitRight 0 1])
      (exec (.treeLeaf2 3#5 0x29#6)
        { treeState with hid := { treeState.hid with ncount := 1, deser := [.awaitLeft 0] } }) = true := by decide
/-- Vector U11. -/
theorem test_leaf3 :
    nextHas (fun t => t.hid.nodes == [(1, .leaf 0x20AC#21)])
      (exec (.treeLeaf3 2#4 2#6 0x2C#6)
        { treeState with hid := { treeState.hid with ncount := 1, deser := [.awaitLeft 0] } }) = true := by decide
/-- Vector U12. -/
theorem test_leaf4 :
    nextHas (fun t => t.hid.nodes == [(1, .leaf 0x1F600#21)])
      (exec (.treeLeaf4 1#5 0xF#4 0x18#6 0#6)
        { treeState with hid := { treeState.hid with ncount := 1, deser := [.awaitLeft 0] } }) = true := by decide
/-- Vector T8. -/
theorem test_leaf_invalid :
    nextHas (fun t => t.status == 0x22#32 && t.outLen == 0#32)
      (exec (.treeLeafInvalid 0xFFFFFFFF#32) treeState) = true := by decide
/-- Vector T14's error: the tag bit finds the store full. -/
theorem test_full_store :
    nextHas (fun t => t.status == 0x42#32)
      (step { treeState with hid := { treeState.hid with ncount := 127, rpos := 55 } }) = true := by decide
/-- Vector E4's text `0`: `a` is written at index 0. -/
theorem test_text_left :
    nextHas (fun t => t.sym.cells == [(0, 0x61#32)] && t.hid.outidx == 1 && t.hid.remain == 1#32 && t.hid.cur == 0)
      (exec .textLeft walkState) = true := by decide
theorem test_text_right :
    nextHas (fun t => t.sym.cells == [(0, 0x62#32)]) (exec .textRight walkState) = true := by decide

/-! ### Stages and host transactions -/

/-- Vector P-1: `ART[0] = 0x80` after the first bit. -/
theorem test_emit_bit :
    (emitBits [true, false] (running .serTree Hidden.zero)).art.cells = [(0, 0x80#8)]
    ∧ (emitBits [true] (running .serTree Hidden.zero)).art.cells = [(0, 0x80#8)] := by decide
/-- Vector F5: a surrogate ends COUNT. -/
theorem test_count_invalid :
    nextHas (fun t => t.status == 0x52#32)
      (step (withSym [0x61, 0xD800] (running .count
        { Hidden.zero with latLen := 2#32, idx := 1, freq := [(0x61#21, 1#32)] }))) = true := by decide
/-- Vector B6: `c` (1,2) comes before node 3 (2,3), so the last merge is (2,3). -/
theorem test_merge_tie :
    nextHas (fun t => t.hid.nodes.getLast? == some (4, .internal 2 3))
      (step (running .build
        { Hidden.zero with
          k := 3, ncount := 4, pq := [2, 3], weights := [(0, 1#32), (1, 1#32), (2, 1#32), (3, 2#32)],
          nodes := [(0, .leaf 0x61#21), (1, .leaf 0x62#21), (2, .leaf 0x63#21), (3, .internal 0 1)] })) = true := by decide
/-- Vector B3: the lighter `y` is left. -/
theorem test_merge_lighter_left :
    nextHas (fun t => t.hid.nodes.getLast? == some (2, .internal 1 0))
      (step { mergeState with hid := { mergeState.hid with weights := [(0, 3#32), (1, 1#32)] } }) = true := by decide
/-- Vector E4's SIZE: 32 + 19 + 2 bits. -/
theorem test_size :
    nextHas (fun t => t.hid.totalBits == 53 && t.seq == .serTree) (step (running .size builtHidden)) = true := by decide
/-- Vector E19: the empty artifact. -/
theorem test_encode_empty :
    nextHas (fun t => t.status == 2#32 && t.outLen == 4#32 && t.art.cells == [(0, 0#8), (1, 0#8), (2, 0#8), (3, 0#8)])
      (step (running .count Hidden.zero)) = true := by decide
/-- Vector D7: three bytes are no header. -/
theorem test_header_truncated :
    nextHas (fun t => t.status == 0x12#32) (step (withArt [0, 0, 0] (hdrState 3#32))) = true := by decide
/-- Vector C7. -/
theorem test_inLen_while_busy :
    nextHas (fun t => t.inLen == 5#32 && t.hid.latLen == 7#32)
      (step { walkState with inputs := [wrInLen 5#32] }) = true := by decide
/-- R324: SYM is refused while BUSY. -/
theorem test_sym_read_while_busy :
    (match step { walkState with inputs := [.host (.symRead 0)] } with
      | .refused r => decide (r = .accessWhileBusy)
      | _ => false) = true := by decide
/-- A command has ended, and the host has not read STATUS since. -/
def endedState : State := { idleState with status := 0x2#32, outLen := 7#32, endShown := false }

/-- R73, point 3: ART is refused until a STATUS read shows the end. -/
theorem test_art_read_before_end_shown :
    (match step { endedState with inputs := [.host (.artRead 0)] } with
      | .refused r => decide (r = .accessBeforeEndShown)
      | _ => false) = true := by decide
/-- R73: a STATUS read with BUSY 0 and DONE 1 shows the end, one with BUSY 1 does not. -/
theorem test_status_read_shows_end :
    nextHas (fun t => t.endShown) (step { endedState with inputs := [.host (.regRead 0x04 4)] }) = true
    ∧ nextHas (fun t => !t.endShown) (step { walkState with inputs := [.host (.regRead 0x04 4)] }) = true := by decide
/-- R118: POLL waits while BUSY shows. -/
theorem test_poll :
    nextHas (fun t => t.inputs == [.core, .poll] && t.busData == some (.word 1#32))
      (step { walkState with inputs := [.poll] }) = true := by decide

/-! ### Witnesses: states and operands that meet the statements' hypotheses, clause by clause -/

theorem witness_EncodeThenDecode : (Instr.treeLeaf4 0x10#5 0xF#4 0x3F#6 0x3F#6).wellFormed = true := by decide

theorem witness_DecodeThenEncode : decode .treeToken [false] = .ok (.treeInternal, 1) := by decide

theorem witness_Utf8DecodeRule :
    utf8ValidSingle [0xF4#8, 0x8F#8, 0xBF#8, 0xBF#8] = true ∧ utf8ValidSingle [0xF4#8, 0x90#8, 0x80#8, 0x80#8] = false
    ∧ utf8Decode [0x7F#8] = some 0x7F#21 ∧ utf8Decode [0xC2#8, 0x80#8] = some 0x80#21
    ∧ utf8Decode [0xE0#8, 0xA0#8, 0x80#8] = some 0x800#21
    ∧ utf8Decode [0xF0#8, 0x90#8, 0x80#8, 0x80#8] = some 0x10000#21 := by decide

theorem witness_LeadByteFixesLength :
    isScalar (0x10FFFF#21).toNat = true ∧ utf8ValidSingle [0xC3#8, 0xA9#8] = true ∧ 1 < [0xC3#8, 0xA9#8].length
    ∧ utf8ValidSingle [0xC3#8, 0x80#8] = true ∧ utf8ValidSingle [0x7F#8] = true ∧ utf8ValidSingle [0xEF#8, 0xBF#8, 0xBF#8] = true
    ∧ utf8ValidSingle [0xF4#8, 0x8F#8, 0xBF#8, 0xBF#8] = true := by decide

theorem witness_LeafTokensCarryScalars :
    (Instr.treeLeaf2 3#5 0x29#6).wellFormed = true ∧ tokenSymbol (.treeLeaf2 3#5 0x29#6) = some 0xE9#21
    ∧ isScalar (0xE9#21).toNat = true := by decide

theorem witness_StepRunsCommandWord :
    (∃ s : State, s.inputs = .host (.regWrite 0x00 4 3#32) :: [] ∧ s.busy = true)
    ∧ (∃ s : State, s.inputs = .host (.regWrite 0x00 4 1#32) :: [] ∧ s.busy = false)
    ∧ (∃ s : State, s.inputs = .host (.regWrite 0x00 4 2#32) :: [] ∧ s.busy = false)
    ∧ (∃ s : State, s.inputs = .host (.regWrite 0x00 4 0#32) :: [] ∧ s.busy = false ∧ (0#32 : Word) ≠ 1#32
        ∧ (0#32 : Word) ≠ 2#32) :=
  ⟨⟨{ walkState with inputs := [wrCmd 3#32] }, rfl, by decide⟩, ⟨{ idleState with inputs := [wrCmd 1#32] }, rfl, by decide⟩,
    ⟨{ idleState with inputs := [wrCmd 2#32] }, rfl, by decide⟩,
    ⟨{ idleState with inputs := [wrCmd 0#32] }, rfl, by decide, by decide, by decide⟩⟩

theorem witness_StepRunsStreamToken :
    (∃ s : State, s.inputs = [] ∧ s.hid.latLen.toNat ≤ s.caps.artCap ∧ s.seq = .hdr
      ∧ decode .artifactHeader (readAhead 32 { s with hid := { s.hid with rpos := 0 } }) = .ok (.header 2#32, 32))
    ∧ (∃ s : State, s.inputs = [] ∧ s.hid.latLen.toNat ≤ s.caps.artCap ∧ s.seq = .deserTree
      ∧ decode .treeToken (readAhead 33 s) = .ok (.treeInternal, 1))
    ∧ (∃ s : State, s.inputs = [] ∧ s.hid.latLen.toNat ≤ s.caps.artCap ∧ s.seq = .decText ∧ s.hid.remain ≠ 0#32
      ∧ decode .textBit (readAhead 1 s) = .ok (.textLeft, 1)) :=
  ⟨⟨withArt [0x00, 0x00, 0x00, 0x02] (hdrState 4#32), rfl, by decide, rfl, by decide⟩,
    ⟨treeState, rfl, by decide, rfl, by decide⟩, ⟨walkState, rfl, by decide, rfl, by decide, by decide⟩⟩

theorem witness_AcceptRule : ∃ s : State, s.busy = false := ⟨idleState, by decide⟩

theorem witness_IllegalCommandRule : ∃ s : State, s.busy = false := ⟨idleState, by decide⟩

theorem witness_CommandsIgnoredWhileBusy : ∃ s : State, Instr.encode.format = .command ∧ s.busy = true :=
  ⟨walkState, rfl, by decide⟩

theorem witness_CommandFrame : ∃ s t : State, Instr.encode.format = .command ∧ exec .encode s = .next t :=
  ⟨idleState, _, rfl, rfl⟩

theorem witness_HeaderCompletes :
    (∃ s : State, s.caps.symCap < (65#32 : Word).toNat)
    ∧ (∃ s : State, (64#32 : Word) ≠ 0#32 ∧ (64#32 : Word).toNat ≤ s.caps.symCap) :=
  ⟨⟨idleState, by decide⟩, ⟨idleState, by decide, by decide⟩⟩

theorem witness_HeaderFrame :
    ∃ s t : State, exec (.header 64#32) s = .next t ∧ (64#32 : Word) ≠ 0#32 ∧ (64#32 : Word).toNat ≤ s.caps.symCap :=
  ⟨hdrState 4#32, _, rfl, by decide, by decide⟩

theorem witness_HeaderStageRule :
    (∃ s : State, s.inputs = [] ∧ s.seq = .hdr ∧ s.caps.artCap < s.hid.latLen.toNat)
    ∧ (∃ s : State, s.inputs = [] ∧ s.seq = .hdr ∧ s.hid.latLen.toNat ≤ s.caps.artCap ∧ s.hid.latLen.toNat < 4)
    ∧ (∃ (s : State) (c : Word), s.inputs = [] ∧ s.seq = .hdr ∧ s.hid.latLen.toNat ≤ s.caps.artCap
      ∧ 4 ≤ s.hid.latLen.toNat
      ∧ c.toNat = (readArt s 0).toNat * 2 ^ 24 + (readArt s 1).toNat * 2 ^ 16 + (readArt s 2).toNat * 2 ^ 8
        + (readArt s 3).toNat ∧ s.caps.symCap < c.toNat) :=
  ⟨⟨hdrState 257#32, rfl, rfl, by decide⟩, ⟨hdrState 3#32, rfl, rfl, by decide, by decide⟩,
    ⟨withArt [0x00, 0x00, 0x01, 0x00] (hdrState 4#32), 256#32, rfl, rfl, by decide, by decide, by decide, by decide⟩⟩

theorem witness_TreeInternalCompletes : ∃ s : State, s.hid.ncount ≠ s.caps.nodeCap := ⟨treeState, by decide⟩

theorem witness_LeafTokensComplete :
    (∃ s : State, tokenSymbol (.treeLeaf1 0x61#7) = some 0x61#21 ∧ s.hid.ncount ≠ s.caps.nodeCap ∧ s.hid.deser = [])
    ∧ (∃ s : State, s.hid.ncount ≠ s.caps.nodeCap ∧ s.hid.deser = .awaitLeft 0 :: [])
    ∧ (∃ s : State, s.hid.ncount ≠ s.caps.nodeCap ∧ s.hid.deser = .awaitRight 1 2 :: .awaitLeft 0 :: [])
    ∧ (∃ s : State, s.hid.ncount ≠ s.caps.nodeCap ∧ s.hid.deser = [.awaitRight 0 1]) :=
  ⟨⟨treeState, by decide, by decide, rfl⟩,
    ⟨{ treeState with hid := { treeState.hid with ncount := 1, deser := [.awaitLeft 0] } }, by decide, rfl⟩,
    ⟨{ treeState with hid := { treeState.hid with ncount := 3, deser := [.awaitRight 1 2, .awaitLeft 0] } }, by decide, rfl⟩,
    ⟨{ treeState with hid := { treeState.hid with ncount := 2, deser := [.awaitRight 0 1] } }, by decide, rfl⟩⟩

theorem witness_TreeTokensNeverStop :
    ∃ s : State, (Instr.treeLeafInvalid 0xFFFFFFFF#32).format = .treeToken ∧ s.hid.ncount = s.caps.nodeCap :=
  ⟨{ treeState with hid := { treeState.hid with ncount := 127 } }, rfl, rfl⟩

theorem witness_InvalidLeafRule : ∃ s : State, s.hid.ncount ≠ s.caps.nodeCap := ⟨treeState, by decide⟩

/-- The stream of one leaf tag and `FF FF FF FF` (vector T8), at bit 0. -/
def badLeafState (len : Word) : State :=
  withArt [0xFF, 0xFF, 0xFF, 0xFF, 0xFF] (running .deserTree { Hidden.zero with latLen := len, count := 1#32 })

theorem witness_DeserErrorOrder :
    (∃ s : State, s.inputs = [] ∧ s.seq = .deserTree ∧ s.hid.latLen.toNat ≤ s.caps.artCap
      ∧ 8 * s.hid.latLen.toNat ≤ s.hid.rpos)
    ∧ (∃ s : State, s.inputs = [] ∧ s.seq = .deserTree ∧ s.hid.latLen.toNat ≤ s.caps.artCap
      ∧ s.hid.rpos < 8 * s.hid.latLen.toNat ∧ s.hid.ncount = s.caps.nodeCap)
    ∧ (∃ s : State, s.inputs = [] ∧ s.seq = .deserTree ∧ s.hid.latLen.toNat ≤ s.caps.artCap
      ∧ s.hid.ncount ≠ s.caps.nodeCap ∧ s.hid.rpos < 8 * s.hid.latLen.toNat ∧ streamBit s s.hid.rpos = true
      ∧ s.hid.rpos + 1 + 8 * 3 ≤ 8 * s.hid.latLen.toNat ∧ 8 * s.hid.latLen.toNat < s.hid.rpos + 1 + 8 * (3 + 1)
      ∧ ∀ m, m < 4 → 1 ≤ m → utf8ValidSingle (leafPrefix s m) = false)
    ∧ (∃ s : State, s.inputs = [] ∧ s.seq = .deserTree ∧ s.hid.latLen.toNat ≤ s.caps.artCap
      ∧ s.hid.ncount ≠ s.caps.nodeCap ∧ streamBit s s.hid.rpos = true ∧ s.hid.rpos + 33 ≤ 8 * s.hid.latLen.toNat
      ∧ ∀ m, m < 5 → 1 ≤ m → utf8ValidSingle (leafPrefix s m) = false) :=
  ⟨⟨{ treeState with hid := { treeState.hid with rpos := 56 } }, rfl, rfl, by decide, by decide⟩,
    ⟨{ treeState with hid := { treeState.hid with rpos := 55, ncount := 127 } }, rfl, rfl, by decide, by decide, rfl⟩,
    ⟨badLeafState 4#32, rfl, rfl, by decide, by decide, by decide, by decide, by decide, by decide, by decide⟩,
    ⟨badLeafState 5#32, rfl, rfl, by decide, by decide, by decide, by decide, by decide⟩⟩

theorem witness_TreeFrame :
    ∃ s t : State, Instr.treeInternal.format = .treeToken ∧ exec .treeInternal s = .next t ∧ t.seq ≠ .idle :=
  ⟨treeState, _, rfl, rfl, by decide⟩

/-- A walk at an INTERNAL node with an INTERNAL left and right child. -/
def deepState : State :=
  { walkState with
    hid := { walkState.hid with
      nodes := [(0, .internal 1 4), (1, .internal 2 3), (2, .leaf 0x61#21), (3, .leaf 0x62#21), (4, .internal 2 3)] } }

theorem witness_TextMoveCompletes :
    ∃ s : State, nodeAt s s.hid.cur = some (.internal 1 4) ∧ nodeAt s 1 = some (.internal 2 3)
      ∧ nodeAt s 4 = some (.internal 2 3) :=
  ⟨deepState, rfl, rfl, rfl⟩

theorem witness_TextLeafCompletes :
    ∃ s : State, nodeAt s s.hid.cur = some (.internal 1 2) ∧ s.hid.root = some 0 ∧ s.hid.outidx < s.caps.symCap
      ∧ nodeAt s 1 = some (.leaf 0x61#21) ∧ nodeAt s 2 = some (.leaf 0x62#21) :=
  ⟨walkState, rfl, rfl, by decide, rfl, rfl⟩

theorem witness_TextFrame :
    (∃ s t : State, Instr.textLeft.format = .textBit ∧ exec .textLeft s = .next t ∧ t.hid.outidx ≠ s.hid.outidx)
    ∧ (∃ s t : State, exec .textRight s = .next t ∧ t.hid.outidx = s.hid.outidx) :=
  ⟨⟨walkState, _, rfl, rfl, by decide⟩, ⟨deepState, _, rfl, rfl⟩⟩

theorem witness_TextStepRule :
    (∃ s : State, s.inputs = [] ∧ s.seq = .decText ∧ s.hid.remain ≠ 0#32 ∧ s.hid.latLen.toNat ≤ s.caps.artCap
      ∧ nodeAt s s.hid.cur = some (.internal 1 2) ∧ s.hid.root = some 0 ∧ s.hid.outidx < s.caps.symCap
      ∧ s.hid.rpos < 8 * s.hid.latLen.toNat ∧ 1 = (if streamBit s s.hid.rpos then 2 else 1)
      ∧ nodeAt s 1 = some (.leaf 0x61#21))
    ∧ (∃ s : State, s.inputs = [] ∧ s.seq = .decText ∧ s.hid.remain ≠ 0#32 ∧ s.hid.latLen.toNat ≤ s.caps.artCap
      ∧ nodeAt s s.hid.cur = some (.internal 1 4) ∧ s.hid.root = some 0 ∧ s.hid.outidx < s.caps.symCap
      ∧ s.hid.rpos < 8 * s.hid.latLen.toNat ∧ 1 = (if streamBit s s.hid.rpos then 4 else 1)
      ∧ nodeAt s 1 = some (.internal 2 3))
    ∧ (∃ s : State, s.inputs = [] ∧ s.seq = .decText ∧ s.hid.remain ≠ 0#32 ∧ s.hid.latLen.toNat ≤ s.caps.artCap
      ∧ nodeAt s s.hid.cur = some (.internal 1 2) ∧ s.hid.root = some 0 ∧ s.hid.outidx < s.caps.symCap
      ∧ 8 * s.hid.latLen.toNat ≤ s.hid.rpos) :=
  ⟨⟨walkState, rfl, rfl, by decide, by decide, rfl, rfl, by decide, by decide, by decide, rfl⟩,
    ⟨deepState, rfl, rfl, by decide, by decide, rfl, rfl, by decide, by decide, by decide, rfl⟩,
    ⟨{ walkState with hid := { walkState.hid with rpos := 56 } }, rfl, rfl, by decide, by decide, rfl, rfl, by decide,
      by decide⟩⟩

theorem witness_TextDoneRule : ∃ s : State, s.inputs = [] ∧ s.seq = .decText ∧ s.hid.remain = 0#32 :=
  ⟨{ walkState with hid := { walkState.hid with remain := 0#32 } }, rfl, rfl, rfl⟩

theorem witness_DecodeStageFrame :
    ∃ s t : State, s.inputs = [] ∧ s.seq ∈ decodeStages ∧ step s = .next t ∧ t.seq ≠ .idle ∧ s.seq ≠ .hdr :=
  ⟨walkState, _, rfl, by decide, rfl, by decide, by decide⟩

theorem witness_ReadBitRule :
    (∃ s : State, 8 * s.hid.latLen.toNat ≤ s.hid.rpos) ∧ (∃ s : State, s.hid.rpos < 8 * s.hid.latLen.toNat) :=
  ⟨⟨{ walkState with hid := { walkState.hid with rpos := 56 } }, by decide⟩,
    ⟨{ walkState with hid := { walkState.hid with rpos := 55 } }, by decide⟩⟩

theorem witness_EmitBitsRule :
    (∃ (s : State) (p : Nat), s.hid.wpos % 8 = 0 ∧ s.hid.wpos + [true].length ≤ p ∧ 8 * bytesFor s.hid.wpos ≤ p
      ∧ p < 8 * bytesFor (s.hid.wpos + [true].length))
    ∧ (∃ (s : State) (p : Nat), s.hid.wpos % 8 = 7 ∧ s.hid.wpos + [true, false].length ≤ p ∧ 8 * bytesFor s.hid.wpos ≤ p
      ∧ p < 8 * bytesFor (s.hid.wpos + [true, false].length))
    ∧ (∃ (s : State) (p : Nat), s.hid.wpos % 8 = 1 ∧ s.hid.wpos + [true].length ≤ p ∧ p < 8 * bytesFor s.hid.wpos) :=
  ⟨⟨running .serTree { Hidden.zero with wpos := 32 }, 39, by decide, by decide, by decide, by decide⟩,
    ⟨running .serTree { Hidden.zero with wpos := 39 }, 41, by decide, by decide, by decide, by decide⟩,
    ⟨running .serTree { Hidden.zero with wpos := 33 }, 34, by decide, by decide, by decide⟩⟩

theorem witness_EncodeEmptyRule : ∃ s : State, s.inputs = [] ∧ s.seq = .count ∧ s.hid.latLen = 0#32 :=
  ⟨running .count Hidden.zero, rfl, rfl, rfl⟩

/-- COUNT of `len` words of which the first two are `a` and U+D800, at index `i`, with `a` counted once. -/
def countingState (len : Word) (i : Nat) : State :=
  withSym [0x61, 0xD800, 0x61, 0x62] (running .count
    { Hidden.zero with latOp := 1#32, latLen := len, idx := i, freq := [(0x61#21, 1#32)] })

theorem witness_CountTurnRule :
    (∃ s : State, s.inputs = [] ∧ s.seq = .count ∧ s.caps.symCap < s.hid.latLen.toNat)
    ∧ (∃ s : State, s.inputs = [] ∧ s.seq = .count ∧ s.hid.latLen.toNat ≤ s.caps.symCap
      ∧ s.hid.idx < s.hid.latLen.toNat ∧ isScalar (readSym s s.hid.idx).toNat = false)
    ∧ (∃ s : State, s.inputs = [] ∧ s.seq = .count ∧ s.hid.latLen.toNat ≤ s.caps.symCap
      ∧ s.hid.idx < s.hid.latLen.toNat ∧ isScalar (readSym s s.hid.idx).toNat = true
      ∧ Table.get BitVec.toNat ((readSym s s.hid.idx).setWidth 21) s.hid.freq = some 1#32)
    ∧ (∃ s : State, s.inputs = [] ∧ s.seq = .count ∧ s.hid.latLen.toNat ≤ s.caps.symCap
      ∧ s.hid.idx < s.hid.latLen.toNat ∧ isScalar (readSym s s.hid.idx).toNat = true
      ∧ Table.get BitVec.toNat ((readSym s s.hid.idx).setWidth 21) s.hid.freq = none
      ∧ s.hid.freq.length ≠ s.caps.leafCap)
    ∧ (∃ s : State, s.inputs = [] ∧ s.seq = .count ∧ s.hid.latLen.toNat ≤ s.caps.symCap
      ∧ s.hid.idx < s.hid.latLen.toNat ∧ isScalar (readSym s s.hid.idx).toNat = true
      ∧ Table.get BitVec.toNat ((readSym s s.hid.idx).setWidth 21) s.hid.freq = none
      ∧ s.hid.freq.length = s.caps.leafCap)
    ∧ (∃ s : State, s.inputs = [] ∧ s.seq = .count ∧ s.hid.latLen.toNat ≤ s.caps.symCap ∧ s.hid.latLen ≠ 0#32
      ∧ s.hid.latLen.toNat ≤ s.hid.idx) :=
  ⟨⟨countingState 65#32 1, rfl, rfl, by decide⟩,
    ⟨countingState 64#32 1, rfl, rfl, by decide, by decide, by decide⟩,
    ⟨countingState 4#32 2, rfl, rfl, by decide, by decide, by decide, by decide⟩,
    ⟨countingState 4#32 3, rfl, rfl, by decide, by decide, by decide, by decide, by decide⟩,
    ⟨{ countingState 4#32 3 with
        caps := { testCaps with leafCap := 2, leafCap_ge := by decide, leafCap_le := by decide, nodeCap_ge := by decide }
        hid := { (countingState 4#32 3).hid with freq := [(0x63#21, 1#32), (0x64#21, 1#32)] } },
      rfl, rfl, by decide, by decide, by decide, by decide, by decide⟩,
    ⟨countedState, rfl, rfl, by decide, by decide, by decide⟩⟩

theorem walkState_registersOk : RegistersOk walkState := ⟨by decide, by decide, by decide, by decide⟩

theorem countedState_counting : Counting countedState where
  sorted := by decide
  size_le := by decide
  idx_le := by decide
  in_range := .inr (by decide)
  scalars := by decide
  keys := by
    intro e he
    rcases List.mem_cons.mp he with rfl | he
    · rfl
    · rw [List.mem_singleton.mp he]
      rfl
  counts := by
    intro c _
    have h0 : readSym countedState 0 = 0x61#32 := by decide
    have h1 : readSym countedState 1 = 0x62#32 := by decide
    have hr : List.range countedState.hid.idx = [0, 1] := by decide
    have hf : countedState.hid.freq = [(0x61#21, 1#32), (0x62#21, 1#32)] := rfl
    have hlt : c.toNat < 2 ^ 21 := c.isLt
    have hw : (symbolWord c).toNat = c.toNat := by
      rw [symbolWord, BitVec.toNat_setWidth]
      omega
    have e0 : ((0x61#32 : Word) = symbolWord c) ↔ 97 = c.toNat := by rw [← BitVec.toNat_inj, hw]; rfl
    have e1 : ((0x62#32 : Word) = symbolWord c) ↔ 98 = c.toNat := by rw [← BitVec.toNat_inj, hw]; rfl
    have k0 : (0x61#21 : Scalar).toNat = 97 := rfl
    have k1 : (0x62#21 : Scalar).toNat = 98 := rfl
    simp only [occurrences, hr, hf, Table.get, List.filter_cons, List.filter_nil, h0, h1, e0, e1, decide_eq_true_eq, k0, k1]
    generalize c.toNat = m at *
    by_cases ha : 97 = m
    · subst ha
      rfl
    · by_cases hb : 98 = m
      · subst hb
        rfl
      · simp [ha, hb]

theorem witness_CountInvariant :
    ∃ s t : State, RegistersOk s ∧ CountOk s ∧ s.seq = .count ∧ step s = .next t :=
  ⟨countedState, _, ⟨by decide, by decide, by decide, by decide⟩, fun _ => countedState_counting, rfl, rfl⟩

theorem witness_CountResult :
    ∃ s t : State, s.inputs = [] ∧ s.seq = .count ∧ Counting s ∧ step s = .next t ∧ t.seq = .build :=
  ⟨countedState, _, rfl, rfl, countedState_counting, rfl, rfl⟩

theorem witness_BuildStartRule :
    (∃ s : State, s.inputs = [] ∧ s.seq = .build ∧ s.hid.ncount = 0 ∧ s.hid.k < 2)
    ∧ (∃ s : State, s.inputs = [] ∧ s.seq = .build ∧ s.hid.ncount = 0 ∧ 2 ≤ s.hid.k
      ∧ s.hid.k = s.hid.freq.length ∧ Table.Sorted BitVec.toNat s.hid.freq) :=
  ⟨⟨running .build { Hidden.zero with k := 1, freq := [(0x61#21, 4#32)] }, rfl, rfl, rfl, by decide⟩,
    ⟨running .build { Hidden.zero with k := 2, freq := [(0x61#21, 1#32), (0x62#21, 1#32)] }, rfl, rfl, rfl, by decide, rfl,
      by decide⟩⟩

theorem witness_MergeRule :
    ∃ s : State, s.inputs = [] ∧ s.seq = .build ∧ s.hid.ncount ≠ 0 ∧ 2 ≤ s.hid.pq.length ∧ s.hid.pq.Nodup :=
  ⟨mergeState, rfl, rfl, by decide, by decide, by decide⟩

/-- The entries of a two-leaf store. -/
theorem mergeState_nodeAt (i : Nat) :
    nodeAt mergeState i = if 0 = i then some (.leaf 0x61#21) else if 1 = i then some (.leaf 0x62#21) else none := rfl

theorem mergeState_childless (p c : Nat) : ¬ ParentOf mergeState p c := by
  rintro ⟨l, r, h, -⟩
  rw [mergeState_nodeAt] at h
  split at h
  · cases h
  · split at h <;> cases h

theorem mergeState_buildOk : BuildOk mergeState where
  count := by decide
  tree := fun h => by rcases h with h | h | h | h | h <;> cases h
  build := fun _ => ⟨rfl, rfl, .inr {
    balance := by decide
    pq_rising := by decide
    pq_below := by decide
    newest := by decide
    parentless := by
      intro c hc
      have : c = 0 ∨ c = 1 := by
        have : mergeState.hid.ncount = 2 := rfl
        omega
      refine ⟨fun _ p hp => mergeState_childless p c hp, fun _ => ?_⟩
      rcases this with rfl | rfl <;> decide
    built := {
      two_symbols := by decide
      keys_counted := by decide
      keys_rising := by decide
      leaf_keys := by decide
      one_parent := fun p _ c h => (mergeState_childless p c h).elim
      leaves_made := by decide
      present_iff := by
        intro i
        simp only [Present, mergeState_nodeAt]
        have : mergeState.hid.ncount = 2 := rfl
        split
        · simp
          omega
        · split
          · simp
            omega
          · simp
            omega
      leaf_iff := by
        intro i hi
        have h2 : mergeState.hid.ncount = 2 := rfl
        have hk : mergeState.hid.k = 2 := rfl
        simp only [mergeState_nodeAt, hk]
        have : i = 0 ∨ i = 1 := by omega
        rcases this with rfl | rfl <;> simp
      children_below := by
        intro i l r h
        rw [mergeState_nodeAt] at h
        split at h
        · cases h
        · split at h <;> cases h } }⟩

theorem witness_BuildInvariant : ∃ s t : State, BuildOk s ∧ s.seq = .build ∧ step s = .next t :=
  ⟨mergeState, _, mergeState_buildOk, rfl, rfl⟩

theorem witness_BuildAndCodesNeverStop :
    ∃ s : State, BuildOk s ∧ s.inputs = [] ∧ (s.seq = .count ∨ s.seq = .build ∨ s.seq = .codes) :=
  ⟨mergeState, mergeState_buildOk, rfl, .inr (.inl rfl)⟩

/-- CODES of `ab` at its root. -/
def codesState (walk : List (Nat × Bits)) : State := running .codes { builtHidden with codes := [], walk := walk }

theorem witness_CodesStepRule :
    (∃ s : State, s.inputs = [] ∧ s.seq = .codes ∧ s.hid.walk = [])
    ∧ (∃ s : State, s.inputs = [] ∧ s.seq = .codes ∧ s.hid.walk = (2, []) :: [] ∧ nodeAt s 2 = some (.internal 0 1))
    ∧ (∃ s : State, s.inputs = [] ∧ s.seq = .codes ∧ s.hid.walk = (0, [false]) :: []
      ∧ nodeAt s 0 = some (.leaf 0x61#21)) :=
  ⟨⟨codesState [], rfl, rfl, rfl⟩, ⟨codesState [(2, [])], rfl, rfl, rfl, rfl⟩,
    ⟨codesState [(0, [false])], rfl, rfl, rfl, rfl⟩⟩

theorem witness_CodesPrefixFree : ∃ s t : State, CodesOk s ∧ s.seq = .codes ∧ step s = .next t :=
  ⟨codesState [(0, [false]), (1, [true])], _, fun _ => by unfold PrefixFree; decide, rfl, rfl⟩

/-- Both keys of FREQ have a code. -/
theorem size_codes (c : Caps) (e : Scalar × Count) (he : e ∈ builtHidden.freq) :
    (codeOf { running .size builtHidden with caps := c } e.1).isSome = true := by
  rcases List.mem_cons.mp he with rfl | he
  · rfl
  · rw [List.mem_singleton.mp he]
    rfl

theorem witness_SizeRule :
    ∃ (s : State) (total : Nat), s.inputs = [] ∧ s.seq = .size ∧ s.hid.root = some 2
      ∧ (∀ e ∈ s.hid.freq, (codeOf s e.1).isSome = true)
      ∧ total = 32 + (2 * s.hid.k - 1 + 8 * (s.hid.freq.map fun e => (utf8Encode e.1).length).sum)
        + (s.hid.freq.map fun e => e.2.toNat * ((codeOf s e.1).getD []).length).sum
      ∧ (total + 7) / 8 ≤ s.caps.artCap :=
  ⟨running .size builtHidden, 53, rfl, rfl, rfl, size_codes testCaps, by decide, by decide⟩

theorem witness_SizeRule_too_large :
    ∃ (s : State) (total : Nat), s.inputs = [] ∧ s.seq = .size ∧ s.hid.root = some 2
      ∧ (∀ e ∈ s.hid.freq, (codeOf s e.1).isSome = true)
      ∧ total = 32 + (2 * s.hid.k - 1 + 8 * (s.hid.freq.map fun e => (utf8Encode e.1).length).sum)
        + (s.hid.freq.map fun e => e.2.toNat * ((codeOf s e.1).getD []).length).sum
      ∧ s.caps.artCap < (total + 7) / 8 :=
  ⟨{ running .size builtHidden with caps := { testCaps with artCap := 6, artCap_ge := by decide, artCap_le := by decide } },
    53, rfl, rfl, rfl, size_codes _, by decide, by decide⟩

/-- SER_TREE of `ab` with these nodes still to write. -/
def serState (wpos : Nat) (ser : List Nat) : State :=
  running .serTree { builtHidden with totalBits := 53, wpos := wpos, ser := ser }

theorem witness_SerTreeRule :
    (∃ s : State, s.inputs = [] ∧ s.seq = .serTree ∧ s.hid.wpos = 0)
    ∧ (∃ s : State, s.inputs = [] ∧ s.seq = .serTree ∧ s.hid.wpos ≠ 0 ∧ s.hid.ser = [])
    ∧ (∃ s : State, s.inputs = [] ∧ s.seq = .serTree ∧ s.hid.wpos ≠ 0 ∧ s.hid.ser = 0 :: [1]
      ∧ nodeAt s 0 = some (.leaf 0x61#21)
      ∧ s.hid.wpos + (1 + 8 * (utf8Encode 0x61#21).length) ≤ 8 * s.caps.artCap)
    ∧ (∃ s : State, s.inputs = [] ∧ s.seq = .serTree ∧ s.hid.wpos ≠ 0 ∧ s.hid.ser = 2 :: []
      ∧ nodeAt s 2 = some (.internal 0 1) ∧ s.hid.wpos + 1 ≤ 8 * s.caps.artCap) :=
  ⟨⟨serState 0 [2], rfl, rfl, rfl⟩, ⟨serState 51 [], rfl, rfl, by decide, rfl⟩,
    ⟨serState 33 [0, 1], rfl, rfl, by decide, rfl, rfl, by decide⟩, ⟨serState 32 [2], rfl, rfl, by decide, rfl, rfl, by decide⟩⟩

theorem witness_SerTreeWritesTree :
    ∃ s : State, s.inputs = [] ∧ s.seq = .serTree ∧ s.hid.wpos ≠ 0 ∧ s.hid.ser = 2 :: []
      ∧ HoldsTree s 2 (.node (.leaf 0x61#21) (.leaf 0x62#21))
      ∧ s.hid.wpos + (SymTree.node (.leaf 0x61#21) (.leaf 0x62#21)).bits.length ≤ 8 * s.caps.artCap :=
  ⟨serState 32 [2], rfl, rfl, by decide, rfl, ⟨0, 1, rfl, rfl, rfl⟩, by decide⟩

/-- ENC_TEXT of `ab` at this index. -/
def textState (i : Nat) (codes : Table Scalar Bits) : State :=
  withSym [0x61, 0x62] (running .encText { builtHidden with totalBits := 53, wpos := 51, idx := i, codes := codes })

theorem witness_EncTextRule :
    (∃ s : State, s.inputs = [] ∧ s.seq = .encText ∧ s.hid.n ≤ s.hid.idx)
    ∧ (∃ s : State, s.inputs = [] ∧ s.seq = .encText ∧ s.hid.idx < s.hid.n ∧ s.hid.idx < s.caps.symCap
      ∧ isScalar (0x62#21).toNat = true ∧ readSym s s.hid.idx = symbolWord 0x62#21 ∧ codeOf s 0x62#21 = some [true]
      ∧ s.hid.wpos + [true].length ≤ 8 * s.caps.artCap)
    ∧ (∃ s : State, s.inputs = [] ∧ s.seq = .encText ∧ s.hid.idx < s.hid.n ∧ s.hid.idx < s.caps.symCap
      ∧ readSym s s.hid.idx = symbolWord 0x62#21 ∧ codeOf s 0x62#21 = none) :=
  ⟨⟨textState 2 builtHidden.codes, rfl, rfl, by decide⟩,
    ⟨textState 1 builtHidden.codes, rfl, rfl, by decide, by decide, by decide, by decide, by decide, by decide⟩,
    ⟨textState 1 [], rfl, rfl, by decide, by decide, by decide, rfl⟩⟩

theorem witness_PadRule : ∃ s : State, s.inputs = [] ∧ s.seq = .pad := ⟨running .pad builtHidden, rfl, rfl⟩

theorem witness_EncodeStageFrame :
    ∃ s t : State, s.inputs = [] ∧ s.seq ∈ encodeStages ∧ step s = .next t ∧ t.seq ≠ .idle :=
  ⟨mergeState, _, rfl, by decide, rfl, by decide⟩

theorem witness_RegistersInvariant : ∃ s t : State, RegistersOk s ∧ s.busy = true ∧ step s = .next t :=
  ⟨walkState, _, walkState_registersOk, by decide, rfl⟩

theorem witness_MemoriesInvariant : ∃ s t : State, MemoriesOk s ∧ step s = .next t :=
  ⟨walkState, _, ⟨by decide, by decide, by decide, by decide, by decide, by decide⟩, rfl⟩

/-- The entries of the tree of `walkState`. -/
theorem walkState_nodeAt (i : Nat) :
    nodeAt walkState i = if 0 = i then some (.internal 1 2) else if 1 = i then some (.leaf 0x61#21)
      else if 2 = i then some (.leaf 0x62#21) else none := rfl

theorem walkState_decodeOk : DecodeOk walkState where
  header := by decide
  stream := fun _ => ⟨by decide, by decide, by decide, by decide, by decide⟩
  tree := fun h => by cases h
  text := fun _ => {
    closed := by
      intro i l r h
      rw [walkState_nodeAt] at h
      split at h
      · cases h
        exact ⟨rfl, rfl⟩
      · split at h
        · cases h
        · split at h <;> cases h
    all_present := by
      intro i
      have : walkState.hid.ncount = 3 := rfl
      simp only [Present, walkState_nodeAt]
      split
      · simp
        omega
      · split
        · simp
          omega
        · split
          · simp
            omega
          · simp
            omega
    root_internal := ⟨0, 1, 2, rfl, rfl⟩
    cur_internal := ⟨1, 2, rfl⟩
    countdown := by decide }

theorem witness_DecodeInvariant : ∃ s t : State, DecodeOk s ∧ s.seq = .decText ∧ step s = .next t :=
  ⟨walkState, _, walkState_decodeOk, rfl, rfl⟩

theorem witness_DecodeNeverStops : ∃ s : State, DecodeOk s ∧ s.inputs = [] ∧ s.seq ∈ decodeStages :=
  ⟨walkState, walkState_decodeOk, rfl, by decide⟩

theorem witness_CapacitiesFixed : ∃ s t : State, step s = .next t := ⟨walkState, _, rfl⟩

theorem witness_HiddenStateUnobserved : ∃ s t : State, s.live = t.live ∧ s ≠ t :=
  ⟨walkState, { walkState with hid := { walkState.hid with wpos := 9, k := 3 } }, rfl, by decide⟩

theorem witness_DeserReadsTree :
    ∃ s : State, isScalar (0x61#21).toNat = true ∧ isScalar (0x62#21).toNat = true ∧ s.inputs = []
      ∧ s.seq = .deserTree ∧ s.hid.ncount = 0 ∧ s.hid.nodes = [] ∧ s.hid.deser = []
      ∧ s.hid.latLen.toNat ≤ s.caps.artCap
      ∧ (SymTree.node (.leaf 0x61#21) (.leaf 0x62#21)).size ≤ s.caps.nodeCap
      ∧ s.hid.rpos + (SymTree.node (.leaf 0x61#21) (.leaf 0x62#21)).bits.length ≤ 8 * s.hid.latLen.toNat
      ∧ ∀ j (h : j < (SymTree.node (.leaf 0x61#21) (.leaf 0x62#21)).bits.length),
          streamBit s (s.hid.rpos + j) = (SymTree.node (.leaf 0x61#21) (.leaf 0x62#21)).bits[j] :=
  ⟨treeState, by decide, by decide, rfl, rfl, rfl, rfl, rfl, by decide, by decide, by decide, by decide⟩

theorem witness_EncodeEnds : ∃ s : State, s.busy = false ∧ s.inputs = [wrCmd 0x00000001#32] :=
  ⟨{ idleState with inputs := [wrCmd 1#32] }, by decide, rfl⟩

theorem witness_DecodeEnds : ∃ s : State, s.busy = false ∧ s.inputs = [wrCmd 0x00000002#32] :=
  ⟨{ idleState with inputs := [wrCmd 2#32] }, by decide, rfl⟩

/-- The ENCODE of `ab` succeeds (vector E4). -/
theorem witness_RoundTrip :
    ∃ (s t : State) (k : Nat), s.busy = false ∧ s.inputs = [wrCmd 0x00000001#32] ∧ core.run (k + 1) s = .next t
      ∧ t.status = 0x00000002#32 :=
  ⟨withSym [0x61, 0x62] { idleState with inLen := 2#32, inputs := [wrCmd 1#32] }, _, 20, by decide, rfl, rfl, rfl⟩

theorem witness_HostRegisterRule :
    (∃ s : State, s.inputs = .host (.regWrite 0x04 4 9#32) :: []) ∧ (∃ s : State, s.inputs = .host (.regWrite 0x0C 4 9#32) :: [])
    ∧ (∃ s : State, s.inputs = .host (.regWrite 0x08 4 9#32) :: []) ∧ (∃ s : State, s.inputs = .host (.regWrite 0x00 2 9#32) :: [])
    ∧ (∃ s : State, s.inputs = .host (.regRead 0x00 4) :: []) ∧ (∃ s : State, s.inputs = .host (.regRead 0x10 4) :: []
      ∧ 0x10 ∉ [0x00, 0x04, 0x08, 0x0C]) ∧ RegistersOk walkState :=
  ⟨⟨{ idleState with inputs := [.host (.regWrite 0x04 4 9#32)] }, rfl⟩, ⟨{ idleState with inputs := [.host (.regWrite 0x0C 4 9#32)] }, rfl⟩,
    ⟨{ idleState with inputs := [.host (.regWrite 0x08 4 9#32)] }, rfl⟩, ⟨{ idleState with inputs := [.host (.regWrite 0x00 2 9#32)] }, rfl⟩,
    ⟨{ idleState with inputs := [.host (.regRead 0x00 4)] }, rfl⟩, ⟨{ idleState with inputs := [.host (.regRead 0x10 4)] }, rfl, by decide⟩,
    walkState_registersOk⟩

theorem witness_HostMemoryRule :
    (∃ s : State, s.inputs = .host (.symRead 0) :: [] ∧ s.busy = true)
    ∧ (∃ s : State, s.inputs = .host (.artRead 0) :: [] ∧ s.busy = false ∧ s.endShown = false)
    ∧ (∃ s : State, s.inputs = .host (.symWrite 64 0x61#32) :: [] ∧ s.busy = false ∧ s.endShown = true ∧ s.caps.symCap ≤ 64)
    ∧ (∃ s : State, s.inputs = .host (.artRead 256) :: [] ∧ s.busy = false ∧ s.endShown = true ∧ s.caps.artCap ≤ 256)
    ∧ (∃ s : State, s.inputs = .host (.symWrite 63 0x61#32) :: [] ∧ s.busy = false ∧ s.endShown = true ∧ 63 < s.caps.symCap)
    ∧ (∃ s : State, s.inputs = .host (.artWrite 255 0x61#8) :: [] ∧ s.busy = false ∧ s.endShown = true
      ∧ 255 < s.caps.artCap) :=
  ⟨⟨{ walkState with inputs := [.host (.symRead 0)] }, rfl, by decide⟩,
    ⟨{ endedState with inputs := [.host (.artRead 0)] }, rfl, by decide, rfl⟩,
    ⟨{ idleState with inputs := [.host (.symWrite 64 0x61#32)] }, rfl, by decide, rfl, by decide⟩,
    ⟨{ idleState with inputs := [.host (.artRead 256)] }, rfl, by decide, rfl, by decide⟩,
    ⟨{ idleState with inputs := [.host (.symWrite 63 0x61#32)] }, rfl, by decide, rfl, by decide⟩,
    ⟨{ idleState with inputs := [.host (.artWrite 255 0x61#8)] }, rfl, by decide, rfl, by decide⟩⟩

theorem witness_ResetRule : ∃ s : State, s.busy = true ∧ s.inputs = .reset :: [] :=
  ⟨{ walkState with inputs := [.reset] }, by decide, rfl⟩

end Sys2Proof.Tests
end

section
/-! PROOF. The rules for what a step's next state satisfies, operation by operation, and from them that no step changes
the capacities. -/

namespace Sys2Proof.Proofs

open Sys2Proof Sys2Proof.Machine

/-! ### Properties of an outcome's next state -/

/-- If the outcome is a next state, that state satisfies `P`; a stop says nothing. -/
def NextSatisfies (P : State → Prop) : Outcome → Prop
  | .next t => P t
  | .fault _ => True
  | .refused _ => True

/-- What `NextSatisfies` says of an event found by the fetch: a state to run an instruction at satisfies `P` too. -/
def FetchedSatisfies (P : State → Prop) : Fetched → Prop
  | .run _ t => P t
  | .done o => NextSatisfies P o

section Rules

variable {P : State → Prop}

@[simp] theorem nextSatisfies_next {t : State} : NextSatisfies P (.next t) ↔ P t := Iff.rfl
@[simp] theorem nextSatisfies_fault (r : Fault) : NextSatisfies P (.fault r) := trivial
@[simp] theorem nextSatisfies_refused (r : Refusal) : NextSatisfies P (.refused r) := trivial
@[simp] theorem fetchedSatisfies_run {i : Instr} {t : State} : FetchedSatisfies P (.run i t) ↔ P t := Iff.rfl
@[simp] theorem fetchedSatisfies_done {o : Outcome} : FetchedSatisfies P (.done o) ↔ NextSatisfies P o := Iff.rfl

theorem whileIdle_satisfies {act : State → State} {s : State} (hs : P s) (hact : P (act s)) :
    NextSatisfies P (whileIdle act s) := by
  rcases whileIdle_cases act s with ⟨-, h⟩ | ⟨-, h⟩
  · rwa [h]
  · rwa [h]

theorem emit_satisfies {bits : Bits} {s : State} (h : P (emitBits bits s)) : NextSatisfies P (emit bits s) := by
  rcases emit_cases bits s with ⟨-, he⟩ | ⟨-, he⟩
  · rwa [he]
  · rw [he]
    trivial

theorem allocNode_satisfies {use : Nat → State → Outcome} {s : State} (hfull : P (raise .sym .capacityExceeded s))
    (huse : NextSatisfies P (use s.hid.ncount { s with hid := { s.hid with ncount := s.hid.ncount + 1 } })) :
    NextSatisfies P (allocNode use s) := by
  rcases allocNode_cases use s with ⟨-, h⟩ | ⟨-, h⟩
  · rwa [h]
  · rwa [h]

theorem hostMemory_satisfies {inside : Prop} [Decidable inside] {outside : Refusal} {moved s : State} (h : P moved) :
    NextSatisfies P (hostMemory inside outside moved s) := by
  rcases hostMemory_cases inside outside moved s with ⟨-, ho⟩ | ⟨-, -, ho⟩ | ⟨-, -, -, ho⟩ | ⟨-, -, -, ho⟩
  · rw [ho]
    trivial
  · rw [ho]
    trivial
  · rw [ho]
    trivial
  · rwa [ho]

theorem fetchToken_satisfies {f : Format} {s : State} (hrun : ∀ len, P (s.advance len)) (hend : P (streamEnd f s)) :
    FetchedSatisfies P (fetchToken f s) := by
  rcases fetchToken_cases f s with ⟨-, h⟩ | ⟨-, ⟨i, len, -, h⟩ | h⟩
  · rw [h]
    trivial
  · rw [h]
    exact hrun len
  · rwa [h]

/-- A step satisfies `P` if its event does and no instruction breaks `P`. -/
theorem step_satisfies {s : State} (hfetch : FetchedSatisfies P (nextEvent s))
    (hexec : ∀ i t, P t → NextSatisfies P (exec i t)) : NextSatisfies P (step s) := by
  cases hev : nextEvent s with
  | run i t =>
    rw [hev] at hfetch
    rw [step_run hev]
    exact hexec i t hfetch
  | done o =>
    rw [hev] at hfetch
    rwa [step_done hev]

end Rules

/-! ### The capacities, operation by operation (00_scope.md R6) -/

/-- The state carries exactly the capacities `c`. -/
def HasCaps (c : Caps) (s : State) : Prop := s.caps = c

@[simp] theorem emitBits_caps (bits : Bits) (s : State) : (emitBits bits s).caps = s.caps := by
  rw [emitBits_frame]

@[simp] theorem streamEnd_caps (f : Format) (s : State) : (streamEnd f s).caps = s.caps := by
  rcases streamEnd_cases f s with h | h <;> simp [h]

theorem extractMin_caps {s t : State} {i : Nat} (h : extractMin s = some (i, t)) : t.caps = s.caps := by
  rcases extractMin_cases s with ⟨-, hn⟩ | ⟨j, -, -, hj⟩
  · rw [hn] at h
    cases h
  · rw [hj] at h
    cases h
    rfl

@[simp] theorem countSymbol_caps (s : State) : (countSymbol s).caps = s.caps := by
  unfold countSymbol
  split
  · exact raise_caps _ _ _
  · split
    · exact tally_caps _ _ _
    · split
      · exact raise_caps _ _ _
      · exact tally_caps _ _ _

@[simp] theorem hostPoll_caps (rest : List Input) (s : State) : (hostPoll rest s).caps = s.caps := rfl

theorem emit_hasCaps (bits : Bits) (s : State) : NextSatisfies (HasCaps s.caps) (emit bits s) :=
  emit_satisfies (emitBits_caps bits s)

theorem fetchToken_hasCaps (f : Format) (s : State) : FetchedSatisfies (HasCaps s.caps) (fetchToken f s) :=
  fetchToken_satisfies (fun len => advance_caps len s) (streamEnd_caps f s)

/-! #### The instructions -/

theorem returnNode_hasCaps (frames : List Frame) (i : Nat) (s : State) :
    NextSatisfies (HasCaps s.caps) (returnNode frames i s) := by
  cases h : returnNode frames i s with
  | next t =>
    obtain ⟨-, -, -, -, -, hcaps⟩ := returnNode_kept h
    exact hcaps
  | fault r => trivial
  | refused r => trivial

theorem allocNode_hasCaps {use : Nat → State → Outcome} (huse : ∀ i t, NextSatisfies (HasCaps t.caps) (use i t))
    (s : State) : NextSatisfies (HasCaps s.caps) (allocNode use s) :=
  allocNode_satisfies (raise_caps _ _ s) (huse _ _)

theorem parseInternal_hasCaps (i : Nat) (s : State) : NextSatisfies (HasCaps s.caps) (parseInternal i s) := rfl

theorem parseLeaf_hasCaps (sym : Scalar) (i : Nat) (s : State) : NextSatisfies (HasCaps s.caps) (parseLeaf sym i s) :=
  returnNode_hasCaps s.hid.deser i (writeNode i (.leaf sym) s)

theorem execHeader_hasCaps (count : Word) (s : State) : NextSatisfies (HasCaps s.caps) (execHeader count s) := by
  unfold execHeader
  split
  · exact succeed_caps _ s
  · split
    · exact raise_caps _ _ s
    · exact rfl

theorem emitSymbol_hasCaps (sym : Scalar) (s : State) : NextSatisfies (HasCaps s.caps) (emitSymbol sym s) := by
  unfold emitSymbol
  split
  · trivial
  · split
    · trivial
    · exact rfl

theorem moveTo_hasCaps (i : Nat) (s : State) : NextSatisfies (HasCaps s.caps) (moveTo i s) := by
  unfold moveTo
  split
  · exact emitSymbol_hasCaps _ { s with hid := { s.hid with cur := i } }
  · exact rfl
  · trivial

theorem execTextLeft_hasCaps (s : State) : NextSatisfies (HasCaps s.caps) (execTextLeft s) := by
  unfold execTextLeft
  split
  · exact moveTo_hasCaps _ s
  · trivial

theorem execTextRight_hasCaps (s : State) : NextSatisfies (HasCaps s.caps) (execTextRight s) := by
  unfold execTextRight
  split
  · exact moveTo_hasCaps _ s
  · trivial

theorem exec_hasCaps (i : Instr) (s : State) : NextSatisfies (HasCaps s.caps) (exec i s) := by
  cases i with
  | encode => exact whileIdle_satisfies rfl (accept_caps _ _ s)
  | decode => exact whileIdle_satisfies rfl (accept_caps _ _ s)
  | illegal w => exact whileIdle_satisfies rfl (illegalCommand_caps s)
  | header count => exact execHeader_hasCaps count s
  | treeInternal => exact allocNode_hasCaps parseInternal_hasCaps s
  | treeLeaf1 x => exact allocNode_hasCaps (parseLeaf_hasCaps _) s
  | treeLeaf2 y x => exact allocNode_hasCaps (parseLeaf_hasCaps _) s
  | treeLeaf3 z y x => exact allocNode_hasCaps (parseLeaf_hasCaps _) s
  | treeLeaf4 u z y x => exact allocNode_hasCaps (parseLeaf_hasCaps _) s
  | treeLeafInvalid b => exact allocNode_hasCaps (fun _ t => nextSatisfies_next.2 (raise_caps _ _ t)) s
  | textLeft => exact execTextLeft_hasCaps s
  | textRight => exact execTextRight_hasCaps s

/-! #### The core's stages -/

theorem countStep_hasCaps (s : State) : NextSatisfies (HasCaps s.caps) (countStep s) := by
  unfold countStep
  extract_lets hid s'
  split
  · exact raise_caps _ _ s'
  · split
    · exact succeed_caps _ _
    · split
      · exact countSymbol_caps s'
      · exact rfl

theorem mergeStep_hasCaps (s : State) : NextSatisfies (HasCaps s.caps) (mergeStep s) := by
  unfold mergeStep
  split
  · trivial
  · next a t ht =>
    split
    · trivial
    · next b u hu => exact (extractMin_caps hu).trans (extractMin_caps ht)

theorem takeRoot_hasCaps (s : State) : NextSatisfies (HasCaps s.caps) (takeRoot s) := by
  unfold takeRoot
  split
  · trivial
  · next r t ht =>
    have hcaps : t.caps = s.caps := extractMin_caps ht
    exact hcaps

theorem buildStep_hasCaps (s : State) : NextSatisfies (HasCaps s.caps) (buildStep s) := by
  unfold buildStep
  split
  · split
    · exact raise_caps _ _ s
    · exact rfl
  · split
    · exact mergeStep_hasCaps s
    · exact takeRoot_hasCaps s

theorem codesStep_hasCaps (s : State) : NextSatisfies (HasCaps s.caps) (codesStep s) := by
  unfold codesStep
  split
  · exact rfl
  · split
    · trivial
    · exact rfl
    · exact rfl

theorem sizeStep_hasCaps (s : State) : NextSatisfies (HasCaps s.caps) (sizeStep s) := by
  unfold sizeStep
  split
  · trivial
  · trivial
  · extract_lets total
    split
    · exact raise_caps _ _ s
    · exact rfl

theorem serStep_hasCaps (s : State) : NextSatisfies (HasCaps s.caps) (serStep s) := by
  unfold serStep
  split
  · exact emit_hasCaps _ s
  · split
    · exact rfl
    · split
      · trivial
      · exact emit_hasCaps _ _
      · exact emit_hasCaps _ _

theorem encTextStep_hasCaps (s : State) : NextSatisfies (HasCaps s.caps) (encTextStep s) := by
  unfold encTextStep
  split
  · exact rfl
  · split
    · trivial
    · split
      · trivial
      · exact emit_hasCaps _ _

theorem headerFetch_hasCaps (s : State) : FetchedSatisfies (HasCaps s.caps) (headerFetch s) := by
  unfold headerFetch
  split
  · exact raise_caps _ _ s
  · exact fetchToken_hasCaps _ { s with hid := { s.hid with rpos := 0 } }

theorem textFetch_hasCaps (s : State) : FetchedSatisfies (HasCaps s.caps) (textFetch s) := by
  unfold textFetch
  split
  · exact succeed_caps _ s
  · exact fetchToken_hasCaps _ s

theorem coreTurn_hasCaps (s : State) : FetchedSatisfies (HasCaps s.caps) (coreTurn s) := by
  unfold coreTurn
  cases s.seq with
  | idle => exact rfl
  | count => exact countStep_hasCaps s
  | build => exact buildStep_hasCaps s
  | codes => exact codesStep_hasCaps s
  | size => exact sizeStep_hasCaps s
  | serTree => exact serStep_hasCaps s
  | encText => exact encTextStep_hasCaps s
  | pad => exact succeed_caps _ s
  | hdr => exact headerFetch_hasCaps s
  | deserTree => exact fetchToken_hasCaps _ s
  | decText => exact textFetch_hasCaps s

/-! #### The host's accesses and the step -/

theorem hostRegRead_hasCaps (offset size : Nat) (s : State) :
    NextSatisfies (HasCaps s.caps) (hostRegRead offset size s) := by
  unfold hostRegRead
  split
  · split
    · exact noteRead_caps _ _ s
    · trivial
  · trivial

theorem hostRegWrite_hasCaps (offset : Nat) (v : Word) (s : State) :
    NextSatisfies (HasCaps s.caps) (hostRegWrite offset v s) := by
  unfold hostRegWrite
  split
  · exact rfl
  · exact rfl
  · exact rfl
  · trivial

theorem hostAccess_hasCaps (tx : HostTx) (s : State) : FetchedSatisfies (HasCaps s.caps) (hostAccess tx s) := by
  cases tx with
  | regWrite offset size v =>
    unfold hostAccess
    dsimp only
    split
    · split
      · exact rfl
      · exact hostRegWrite_hasCaps offset v s
    · trivial
  | regRead offset size => exact hostRegRead_hasCaps offset size s
  | symWrite i v => exact hostMemory_satisfies (writeSym_caps i v s)
  | symRead i => exact hostMemory_satisfies rfl
  | artWrite a b => exact hostMemory_satisfies (writeArt_caps a b s)
  | artRead a => exact hostMemory_satisfies rfl

theorem nextEvent_hasCaps (s : State) : FetchedSatisfies (HasCaps s.caps) (nextEvent s) := by
  unfold nextEvent
  split
  · exact coreTurn_hasCaps s
  · exact coreTurn_hasCaps { s with inputs := _ }
  · exact hostAccess_hasCaps _ { s with inputs := _ }
  · exact hostPoll_caps _ s
  · exact resetEvent_caps { s with inputs := _ }

theorem step_hasCaps (s : State) : NextSatisfies (HasCaps s.caps) (step s) :=
  step_satisfies (nextEvent_hasCaps s) fun i t ht => ht ▸ exec_hasCaps i t

/-- Settles O52: every event and every instruction hands the capacities on. -/
theorem capacitiesFixed : Obligations.CapacitiesFixed := by
  unfold Obligations.CapacitiesFixed
  intro s t h
  have hnext := step_hasCaps s
  rw [h] at hnext
  exact hnext

end Sys2Proof.Proofs
end

section
/-! PROOF. The state after reset: every invariant holds of it. The invariants of a command's stages hold of every idle
state, whatever its hidden state. -/

namespace Sys2Proof.Proofs

open Sys2Proof Sys2Proof.Machine

/-! ### The invariants of the stages say nothing of an idle state (10_state.md R31, R40) -/

theorem decodeOk_of_idle {s : State} (h : s.seq = .idle) : DecodeOk s where
  header hs := by simp [h] at hs
  stream hs := by simp [h] at hs
  tree hs := by simp [h] at hs
  text hs := by simp [h] at hs

theorem countOk_of_idle {s : State} (h : s.seq = .idle) : CountOk s := fun hs => by simp [h] at hs

theorem buildOk_of_idle {s : State} (h : s.seq = .idle) : BuildOk s where
  count hs := by simp [h] at hs
  build hs := by simp [h] at hs
  tree hs := by simp [h] at hs

theorem codesOk_of_idle {s : State} (h : s.seq = .idle) : CodesOk s := fun hs => by simp [h] at hs

/-! ### The registers and the memories after reset (10_state.md R41) -/

theorem reset_seq : State.reset.seq = .idle := rfl

theorem reset_busy : State.reset.busy = false := by decide

theorem reset_registersOk : RegistersOk State.reset where
  status_legal := List.mem_cons_self
  idle_iff := iff_of_true reset_seq reset_busy
  outLen_zero _ := rfl
  end_unseen hbusy := by simp [reset_busy] at hbusy

theorem reset_memoriesOk : MemoriesOk State.reset where
  sym_wf := reset_sym_wf
  art_wf := reset_art_wf
  sym_below _ hc := absurd hc List.not_mem_nil
  art_below _ hc := absurd hc List.not_mem_nil
  sym_epoch := Nat.zero_lt_one
  art_epoch := Nat.zero_lt_one

/-- Settles O51: the registers and the memories are checked field by field; the stages' invariants hold because reset
leaves the sequencer idle. -/
theorem invariantsAtReset : Obligations.InvariantsAtReset := by
  unfold Obligations.InvariantsAtReset
  exact ⟨rfl, rfl, rfl, reset_seq, fun _ => Table.get_nil _, fun _ => Table.get_nil _, reset_registersOk,
    reset_memoriesOk, decodeOk_of_idle reset_seq, countOk_of_idle reset_seq, buildOk_of_idle reset_seq,
    codesOk_of_idle reset_seq⟩

end Sys2Proof.Proofs
end

section
/-! PROOF. The host's accesses to the four registers (10_state.md R21 to R29, 20_memory.md R69). -/

namespace Sys2Proof.Proofs

open Sys2Proof Sys2Proof.Machine

/-! ### Reads -/

theorem registerRead_eq_none {offset : Nat} (h : offset ∉ [0x00, 0x04, 0x08, 0x0C]) (s : State) :
    registerRead s offset = none := by
  unfold registerRead
  split
  · simp at h
  · simp at h
  · simp at h
  · simp at h
  · rfl

theorem hostRegRead_word {s : State} {offset : Nat} {v : Word} (h : registerRead s offset = some v) :
    hostRegRead offset 4 s = .next (noteRead offset v s) := by
  simp [hostRegRead, h]

theorem hostRegRead_refused {offset size : Nat} (h : size ≠ 4 ∨ offset ∉ [0x00, 0x04, 0x08, 0x0C]) (s : State) :
    hostRegRead offset size s = .refused .registerAccess := by
  unfold hostRegRead
  split
  · next hsize => rw [registerRead_eq_none (h.resolve_left (not_not_intro hsize))]
  · rfl

/-- A STATUS read shows the host the command's end where it returns `BUSY = 0` and `DONE = 1` (20_memory.md R73). -/
theorem noteRead_statusRegister (v : Word) (s : State) :
    noteRead 0x04 v s =
      { s with busData := some (.word v), endShown := s.endShown || (s.done && !s.busy) } := by
  simp [noteRead]

/-! ### Writes -/

theorem hostRegWrite_refused {offset : Nat} (h : offset ∉ [0x00, 0x04, 0x08, 0x0C]) (v : Word) (s : State) :
    hostRegWrite offset v s = .refused .registerAccess := by
  unfold hostRegWrite
  split
  · simp at h
  · simp at h
  · simp at h
  · rfl

theorem hostAccess_regWrite_register {offset : Nat} (h : offset ≠ 0x00) (v : Word) (s : State) :
    hostAccess (.regWrite offset 4 v) s = .done (hostRegWrite offset v s) := by
  simp [hostAccess, h]

theorem hostAccess_regWrite_refused {offset size : Nat} (h : size ≠ 4 ∨ offset ∉ [0x00, 0x04, 0x08, 0x0C]) (v : Word)
    (s : State) : hostAccess (.regWrite offset size v) s = .done (.refused .registerAccess) := by
  by_cases hsize : size = 4
  · have hout : offset ∉ [0x00, 0x04, 0x08, 0x0C] := h.resolve_left (not_not_intro hsize)
    have hcmd : offset ≠ 0x00 := fun h0 => hout (h0 ▸ List.mem_cons_self)
    rw [hsize, hostAccess_regWrite_register hcmd, hostRegWrite_refused hout]
  · simp [hostAccess, hsize]

/-! ### The steps -/

section Steps

variable {s : State} {rest : List Input} {offset size : Nat} {v : Word}

theorem step_regRead (hin : s.inputs = .host (.regRead offset size) :: rest) :
    step s = hostRegRead offset size { s with inputs := rest } :=
  step_done (nextEvent_host hin)

theorem step_regRead_word (hin : s.inputs = .host (.regRead offset 4) :: rest)
    (hv : registerRead { s with inputs := rest } offset = some v) :
    step s = .next (noteRead offset v { s with inputs := rest }) :=
  (step_regRead hin).trans (hostRegRead_word hv)

theorem step_regWrite_register (hin : s.inputs = .host (.regWrite offset 4 v) :: rest) (hoff : offset ≠ 0x00) :
    step s = hostRegWrite offset v { s with inputs := rest } :=
  step_done ((nextEvent_host hin).trans (hostAccess_regWrite_register hoff v _))

theorem step_regWrite_refused (hin : s.inputs = .host (.regWrite offset size v) :: rest)
    (h : size ≠ 4 ∨ offset ∉ [0x00, 0x04, 0x08, 0x0C]) : step s = .refused .registerAccess :=
  step_done ((nextEvent_host hin).trans (hostAccess_regWrite_refused h v _))

end Steps

/-! ### STATUS's reserved bits (10_state.md R23) -/

theorem legalStatus_reserved {w : Word} (h : w ∈ legalStatus) : w &&& 0xFFFFFF0C#32 = 0x00000000#32 := by
  have hall : legalStatus.all (fun w => w &&& 0xFFFFFF0C#32 == 0x00000000#32) = true := by decide
  exact eq_of_beq (List.all_eq_true.1 hall w h)

/-- Settles O58: a write or a read is one step of the host's access, taken register by register; the reserved bits are 0
in every legal STATUS word. -/
theorem hostRegisterRule : Obligations.HostRegisterRule := by
  unfold Obligations.HostRegisterRule
  intro s rest offset size v
  refine ⟨fun hin => ⟨?ignored, ?inLenWrite, step_regWrite_refused hin⟩,
    fun hin => ⟨?cmdRead, ?statusRead, ?inLenRead, ?outLenRead, ?readRefused⟩,
    fun hregs => legalStatus_reserved hregs.status_legal⟩
  case ignored =>
    rintro rfl (rfl | rfl)
    · exact step_regWrite_register hin (by decide)
    · exact step_regWrite_register hin (by decide)
  case inLenWrite =>
    rintro rfl rfl
    exact step_regWrite_register hin (by decide)
  case cmdRead =>
    rintro rfl rfl
    rw [step_regRead_word hin rfl, noteRead_other (by decide)]
  case statusRead =>
    rintro rfl rfl
    rw [step_regRead_word hin rfl, noteRead_statusRegister]
    rfl
  case inLenRead =>
    rintro rfl rfl
    rw [step_regRead_word hin rfl, noteRead_other (by decide)]
  case outLenRead =>
    rintro rfl rfl
    rw [step_regRead_word hin rfl, noteRead_other (by decide)]
  case readRefused =>
    exact fun h => (step_regRead hin).trans (hostRegRead_refused h _)

end Sys2Proof.Proofs
end

section
/-! PROOF. The bit reader and the bit writer of 20_memory.md section 3 (R63 to R66): what a bit read returns, and what
stands in ART, bit by bit and byte by byte, after bits were emitted. -/

namespace Sys2Proof.Proofs

open Sys2Proof Sys2Proof.Machine

/-- Settles O28: the two cases of `ReadBit`, the delivered bit written out by R63. -/
theorem readBitRule : Obligations.ReadBitRule := by
  unfold Obligations.ReadBitRule
  intro s
  rcases readBit_cases s with ⟨hend, hnone⟩ | ⟨hleft, hsome⟩
  · exact ⟨fun _ => hnone, fun h => absurd h (Nat.not_lt_of_le hend)⟩
  · exact ⟨fun h => absurd h (Nat.not_le_of_lt hleft), fun _ => hsome⟩

/-! ### One emitted bit -/

theorem getLsbD_setBit (byte : Byte) {j : Nat} (hj : j < 8) (b : Bool) (i : Nat) :
    (setBit byte j b).getLsbD i = if i = j then b else byte.getLsbD i := by
  have hone : 1#8 <<< j = BitVec.twoPow 8 j := (BitVec.twoPow_eq 8 j).symm
  unfold setBit
  rw [hone]
  cases b with
  | true =>
    by_cases hij : i = j
    · simp [hij, hj]
    · simp [hij, Ne.symm hij]
  | false =>
    by_cases hij : i = j
    · simp [hij, hj]
    · by_cases hi : i < 8
      · simp [hij, hi]
      · simp [hij, BitVec.getLsbD_of_ge _ _ (Nat.le_of_not_lt hi)]

/-- The byte `EmitBit` fills: fresh at a byte boundary, else what ART holds (R65). -/
theorem emitBit_readArt_same (b : Bool) (s : State) :
    readArt (emitBit b s) (s.hid.wpos / 8) =
      setBit (if s.hid.wpos % 8 = 0 then 0x00#8 else readArt s (s.hid.wpos / 8)) (7 - s.hid.wpos % 8) b :=
  readArt_writeArt_same _ _ s

theorem streamBit_emitBit_same (b : Bool) (s : State) : streamBit (emitBit b s) s.hid.wpos = b := by
  rw [streamBit, emitBit_readArt_same, getLsbD_setBit _ (by omega), if_pos rfl]

/-- Any other bit stays, but for those of a byte the emitted bit begins. -/
theorem streamBit_emitBit_kept {p : Nat} (b : Bool) (s : State) (hne : p ≠ s.hid.wpos)
    (hbyte : s.hid.wpos % 8 = 0 → p / 8 ≠ s.hid.wpos / 8) : streamBit (emitBit b s) p = streamBit s p := by
  by_cases hsame : p / 8 = s.hid.wpos / 8
  · have hfilling : s.hid.wpos % 8 ≠ 0 := fun h => hbyte h hsame
    rw [streamBit, streamBit, hsame, emitBit_readArt_same, if_neg hfilling, getLsbD_setBit _ (by omega),
      if_neg (by omega)]
  · rw [streamBit, streamBit, emitBit_readArt_other b s hsame]

/-- The bits behind the first bit of a fresh byte are 0. -/
theorem streamBit_emitBit_fresh {p : Nat} (b : Bool) (s : State) (hstart : s.hid.wpos % 8 = 0)
    (hbyte : p / 8 = s.hid.wpos / 8) (hne : p ≠ s.hid.wpos) : streamBit (emitBit b s) p = false := by
  rw [streamBit, hbyte, emitBit_readArt_same, if_pos hstart, getLsbD_setBit _ (by omega), if_neg (by omega),
    BitVec.getLsbD_zero]

/-! ### Emitted bits -/

theorem streamBit_emitBits_before (bits : Bits) (s : State) {p : Nat} (hp : p < s.hid.wpos) :
    streamBit (emitBits bits s) p = streamBit s p := by
  induction bits generalizing s with
  | nil => rfl
  | cons b bits ih =>
    rw [emitBits_cons, ih (emitBit b s) (Nat.lt_succ_of_lt hp)]
    exact streamBit_emitBit_kept b s (Nat.ne_of_lt hp) (by omega)

theorem streamBit_emitBits_emitted (bits : Bits) (s : State) {j : Nat} (hj : j < bits.length) :
    streamBit (emitBits bits s) (s.hid.wpos + j) = bits[j] := by
  induction bits generalizing s j with
  | nil => simp at hj
  | cons b bits ih =>
    rw [emitBits_cons]
    cases j with
    | zero =>
      have hfirst : s.hid.wpos < (emitBit b s).hid.wpos := Nat.lt_succ_self _
      rw [Nat.add_zero, streamBit_emitBits_before bits (emitBit b s) hfirst]
      exact streamBit_emitBit_same b s
    | succ j =>
      have hrest := ih (emitBit b s) (Nat.lt_of_succ_lt_succ hj)
      rwa [emitBit_wpos, Nat.add_assoc, Nat.add_comm 1 j] at hrest

/-- Behind the emitted bits, the byte that was already being filled keeps its bits. -/
theorem streamBit_emitBits_filling (bits : Bits) (s : State) {p : Nat} (hp : s.hid.wpos + bits.length ≤ p)
    (hbyte : p < 8 * bytesFor s.hid.wpos) : streamBit (emitBits bits s) p = streamBit s p := by
  induction bits generalizing s with
  | nil => rfl
  | cons b bits ih =>
    rw [List.length_cons] at hp
    unfold bytesFor at hbyte
    have hrest : p < 8 * bytesFor (s.hid.wpos + 1) := by
      unfold bytesFor
      omega
    rw [emitBits_cons, ih (emitBit b s) (by rw [emitBit_wpos]; omega) hrest]
    exact streamBit_emitBit_kept b s (by omega) (by omega)

/-- Behind the emitted bits, the bits of a byte the emitted bits began are 0. -/
theorem streamBit_emitBits_fresh (bits : Bits) (s : State) {p : Nat} (hp : s.hid.wpos + bits.length ≤ p)
    (hnew : 8 * bytesFor s.hid.wpos ≤ p) (hlast : p < 8 * bytesFor (s.hid.wpos + bits.length)) :
    streamBit (emitBits bits s) p = false := by
  induction bits generalizing s with
  | nil => exact absurd hlast (Nat.not_lt_of_le hnew)
  | cons b bits ih =>
    rw [List.length_cons, ← Nat.add_assoc, Nat.add_right_comm] at hp hlast
    rw [emitBits_cons]
    by_cases hbegun : p < 8 * bytesFor (s.hid.wpos + 1)
    · rw [streamBit_emitBits_filling bits (emitBit b s) hp hbegun]
      unfold bytesFor at hnew hbegun
      exact streamBit_emitBit_fresh b s (by omega) (by omega) (by omega)
    · exact ih (emitBit b s) hp (Nat.le_of_not_lt hbegun) hlast

/-- Only the bytes from `wpos` to the new `wpos` are written. -/
theorem readArt_emitBits_outside (bits : Bits) (s : State) {a : Nat}
    (ha : a < s.hid.wpos / 8 ∨ bytesFor (s.hid.wpos + bits.length) ≤ a) :
    readArt (emitBits bits s) a = readArt s a := by
  induction bits generalizing s with
  | nil => rfl
  | cons b bits ih =>
    rw [List.length_cons, ← Nat.add_assoc, Nat.add_right_comm] at ha
    unfold bytesFor at ha
    have hrest : a < (s.hid.wpos + 1) / 8 ∨ bytesFor (s.hid.wpos + 1 + bits.length) ≤ a := by
      unfold bytesFor
      omega
    rw [emitBits_cons, ih (emitBit b s) hrest]
    exact emitBit_readArt_other b s (by omega)

/-- Settles O29: each clause is an induction over the emitted bits, from what one emitted bit does to ART. -/
theorem emitBitsRule : Obligations.EmitBitsRule := by
  unfold Obligations.EmitBitsRule
  intro bits s
  exact ⟨emitBits_wpos bits s, fun _ => streamBit_emitBits_emitted bits s, fun _ => streamBit_emitBits_before bits s,
    fun _ => streamBit_emitBits_fresh bits s, fun _ => streamBit_emitBits_filling bits s,
    fun _ ha => readArt_emitBits_outside bits s (.inr ha)⟩

/-- Emitting keeps the zero padding of the last byte (30_encoding.md R112). -/
theorem emitBits_zeroPadded (bits : Bits) {s : State} (hpad : ZeroPadded s) : ZeroPadded (emitBits bits s) := by
  intro p hp hlast
  rw [emitBits_wpos] at hp hlast
  by_cases hfilling : p < 8 * bytesFor s.hid.wpos
  · rw [streamBit_emitBits_filling bits s hp hfilling]
    exact hpad p (Nat.le_trans (Nat.le_add_right _ _) hp) hfilling
  · exact streamBit_emitBits_fresh bits s hp (Nat.le_of_not_lt hfilling) hlast

end Sys2Proof.Proofs
end

section
/-! PROOF. The core's turn by stage, what a decoded token can be, and the token a DECODE stage runs (20_memory.md R66,
41_tree_codec.md R184, 42_text_codec.md R213, 43_commands.md R247). -/

namespace Sys2Proof.Proofs

open Sys2Proof Sys2Proof.Machine

/-! ### The core's turn, by stage (10_state.md R31) -/

section Turns

variable {s : State}

theorem coreTurn_count (h : s.seq = .count) : coreTurn s = .done (countStep s) := by simp [coreTurn, h]
theorem coreTurn_build (h : s.seq = .build) : coreTurn s = .done (buildStep s) := by simp [coreTurn, h]
theorem coreTurn_codes (h : s.seq = .codes) : coreTurn s = .done (codesStep s) := by simp [coreTurn, h]
theorem coreTurn_size (h : s.seq = .size) : coreTurn s = .done (sizeStep s) := by simp [coreTurn, h]
theorem coreTurn_serTree (h : s.seq = .serTree) : coreTurn s = .done (serStep s) := by simp [coreTurn, h]
theorem coreTurn_encText (h : s.seq = .encText) : coreTurn s = .done (encTextStep s) := by simp [coreTurn, h]
theorem coreTurn_pad (h : s.seq = .pad) : coreTurn s = .done (.next (padStep s)) := by simp [coreTurn, h]
theorem coreTurn_hdr (h : s.seq = .hdr) : coreTurn s = headerFetch s := by simp [coreTurn, h]
theorem coreTurn_deserTree (h : s.seq = .deserTree) : coreTurn s = fetchToken .treeToken s := by simp [coreTurn, h]
theorem coreTurn_decText (h : s.seq = .decText) : coreTurn s = textFetch s := by simp [coreTurn, h]

end Turns

/-! ### Fetching a token that decodes -/

section Fetch

variable {s : State} {i : Instr} {len : Nat}

theorem fetchToken_of_decode {f : Format} (hfits : s.hid.latLen.toNat ≤ s.caps.artCap)
    (hdec : decode f (readAhead f.maxLength s) = .ok (i, len)) : fetchToken f s = .run i (s.advance len) := by
  unfold fetchToken
  rw [if_neg (Nat.not_lt_of_le hfits), hdec]

theorem headerFetch_of_fits (hfits : s.hid.latLen.toNat ≤ s.caps.artCap) :
    headerFetch s = fetchToken .artifactHeader { s with hid := { s.hid with rpos := 0 } } :=
  if_neg (Nat.not_lt_of_le hfits)

theorem textFetch_of_remain (h : s.hid.remain ≠ 0#32) : textFetch s = fetchToken .textBit s := if_neg h

theorem coreTurn_hdr_of_decode (hfits : s.hid.latLen.toNat ≤ s.caps.artCap) (hseq : s.seq = .hdr)
    (hdec : decode .artifactHeader (readAhead 32 { s with hid := { s.hid with rpos := 0 } }) = .ok (i, len)) :
    coreTurn s = .run i { s with hid := { s.hid with rpos := len } } := by
  have hfetch := fetchToken_of_decode (s := { s with hid := { s.hid with rpos := 0 } }) hfits hdec
  rw [coreTurn_hdr hseq, headerFetch_of_fits hfits]
  simpa [State.advance] using hfetch

theorem coreTurn_deserTree_of_decode (hfits : s.hid.latLen.toNat ≤ s.caps.artCap) (hseq : s.seq = .deserTree)
    (hdec : decode .treeToken (readAhead 33 s) = .ok (i, len)) : coreTurn s = .run i (s.advance len) := by
  rw [coreTurn_deserTree hseq, fetchToken_of_decode hfits hdec]

theorem coreTurn_decText_of_decode (hfits : s.hid.latLen.toNat ≤ s.caps.artCap) (hseq : s.seq = .decText)
    (hremain : s.hid.remain ≠ 0#32) (hdec : decode .textBit (readAhead 1 s) = .ok (i, len)) :
    coreTurn s = .run i (s.advance len) := by
  rw [coreTurn_decText hseq, textFetch_of_remain hremain, fetchToken_of_decode hfits hdec]

end Fetch

/-- The core takes its turn with no input pending, or as the next input (log entry 3). -/
theorem nextEvent_coreTurn {s t : State}
    (hturn : s.inputs = [] ∧ t = s ∨ ∃ rest, s.inputs = .core :: rest ∧ t = { s with inputs := rest }) :
    ∃ rest, t = { s with inputs := rest } ∧ nextEvent s = coreTurn t := by
  rcases hturn with ⟨hin, rfl⟩ | ⟨rest, hin, rfl⟩
  · exact ⟨t.inputs, rfl, nextEvent_none hin⟩
  · exact ⟨rest, rfl, nextEvent_core hin⟩

/-- Settles O8: whatever inputs stay pending, the core's turn fetches the token its stage asks for. -/
theorem stepRunsStreamToken : Obligations.StepRunsStreamToken := by
  unfold Obligations.StepRunsStreamToken
  intro s t i len hturn hfits
  obtain ⟨rest, rfl, hevent⟩ := nextEvent_coreTurn hturn
  exact ⟨fun hseq hdec => step_run (hevent.trans (coreTurn_hdr_of_decode hfits hseq hdec)),
    fun hseq hdec => step_run (hevent.trans (coreTurn_deserTree_of_decode hfits hseq hdec)),
    fun hseq hremain hdec => step_run (hevent.trans (coreTurn_decText_of_decode hfits hseq hremain hdec))⟩

/-! ### What a decoded token can be -/

theorem decodeCommand_format (w : Word) : (decodeCommand w).format = .command := by
  unfold decodeCommand
  split
  · rfl
  · split
    · rfl
    · rfl

theorem leafInstr_format (bytes : List Byte) : (leafInstr bytes).format = .treeToken := by
  unfold leafInstr
  split <;> rfl

theorem decodeTree_format {bits : Bits} {i : Instr} {n : Nat} (h : decodeTree bits = .ok (i, n)) :
    i.format = .treeToken ∧ 0 < n := by
  unfold decodeTree at h
  split at h
  · cases h
  · cases h
    exact ⟨rfl, Nat.one_pos⟩
  · split at h
    · cases h
      exact ⟨leafInstr_format _, by omega⟩
    · cases h
      exact ⟨rfl, by omega⟩
    · cases h

theorem decodeText_format {bits : Bits} {i : Instr} {n : Nat} (h : decodeText bits = .ok (i, n)) :
    i.format = .textBit ∧ 0 < n := by
  unfold decodeText at h
  split at h
  · cases h
  · cases h
    exact ⟨rfl, Nat.one_pos⟩
  · cases h
    exact ⟨rfl, Nat.one_pos⟩

/-- A decoded instruction is of the format asked for, and its token has at least one bit. -/
theorem decode_format {f : Format} {bits : Bits} {i : Instr} {n : Nat} (h : decode f bits = .ok (i, n)) :
    i.format = f ∧ 0 < n := by
  cases f with
  | command =>
    rw [decode] at h
    split at h
    · cases h
      exact ⟨decodeCommand_format _, by decide⟩
    · cases h
  | artifactHeader =>
    rw [decode] at h
    split at h
    · cases h
      exact ⟨rfl, by decide⟩
    · cases h
  | treeToken => exact decodeTree_format h
  | textBit => exact decodeText_format h

end Sys2Proof.Proofs
end

section
/-! PROOF. What one step of a DECODE can do, stage by stage, and from it the frame of a DECODE (20_memory.md R61, R62,
10_state.md R34). -/

namespace Sys2Proof.Proofs

open Sys2Proof Sys2Proof.Machine

/-- The hidden state `h` keeps `lat_len`, and past the header it has the read cursor further on than `s` (R34). -/
structure ReadOn (s : State) (h : Hidden) : Prop where
  latLen : h.latLen = s.hid.latLen
  rpos : s.seq ≠ .hdr → s.hid.rpos < h.rpos

/-- What one step of a DECODE can make of `s`: the command ends; or it goes on with both memories as they were; or, in
DEC_TEXT, it goes on with one SYM word written, at `outidx`. -/
inductive DecodeTurn (s : State) : State → Prop where
  | ended {t : State} (idle : t.seq = .idle) (art : t.art = s.art) (inLen : t.inLen = s.inLen)
      (outside : OutsideKept s t) : DecodeTurn s t
  | goesOn (stage : Seq) (h : Hidden) (reads : ReadOn s h) : DecodeTurn s { s with seq := stage, hid := h }
  | writesSym (j : Nat) (v : Word) (h : Hidden) (reads : ReadOn s h) (inText : s.seq = .decText)
      (atOutidx : j = s.hid.outidx) : DecodeTurn s { writeSym j v s with hid := h }

section Turns

variable {s : State} {h : Hidden}

theorem readOn_advance {len : Nat} (hlen : 0 < len) : ReadOn s (s.advance len).hid :=
  ⟨rfl, fun _ => Nat.lt_add_of_pos_right hlen⟩

/-! ### The command's ends -/

theorem raise_decodeTurn (e : CommandError) : DecodeTurn s (raise .sym e { s with hid := h }) :=
  .ended rfl rfl rfl ⟨rfl, rfl, rfl, rfl⟩

theorem succeed_decodeTurn (len : Word) : DecodeTurn s (succeed len { s with hid := h }) :=
  .ended rfl rfl rfl ⟨rfl, rfl, rfl, rfl⟩

theorem streamEnd_decodeTurn (f : Format) : DecodeTurn s (streamEnd f { s with hid := h }) := by
  rcases streamEnd_cases f { s with hid := h } with hend | hend
  · rw [hend]
    exact raise_decodeTurn _
  · rw [hend]
    exact raise_decodeTurn _

/-! ### The header -/

theorem execHeader_decodeTurn (count : Word) (hread : ReadOn s h) :
    NextSatisfies (DecodeTurn s) (execHeader count { s with hid := h }) := by
  unfold execHeader
  split
  · exact succeed_decodeTurn _
  · split
    · exact raise_decodeTurn _
    · exact .goesOn .deserTree { h with count := count } ⟨hread.latLen, hread.rpos⟩

/-! ### The tree -/

theorem startText_decodeTurn (root : Nat) (hread : ReadOn s h) :
    NextSatisfies (DecodeTurn s) (startText root { s with hid := h }) := by
  rcases startText_cases root { s with hid := h } with ⟨c, -, hc⟩ | ⟨l, r, -, hc⟩ | ⟨-, hc⟩
  · rw [hc]
    exact raise_decodeTurn _
  · rw [hc]
    exact .goesOn .decText _ ⟨hread.latLen, hread.rpos⟩
  · rw [hc]
    trivial

theorem returnNode_decodeTurn (frames : List Frame) (i : Nat) (hread : ReadOn s h) :
    NextSatisfies (DecodeTurn s) (returnNode frames i { s with hid := h }) := by
  induction frames generalizing i h with
  | nil => exact startText_decodeTurn i (h := { h with deser := [] }) ⟨hread.latLen, hread.rpos⟩
  | cons f rest ih =>
    cases f with
    | awaitLeft p => exact .goesOn s.seq { h with deser := .awaitRight p i :: rest } ⟨hread.latLen, hread.rpos⟩
    | awaitRight p l =>
      exact ih p (h := { h with nodes := Table.put id p (.internal l i) h.nodes }) ⟨hread.latLen, hread.rpos⟩

theorem parseInternal_decodeTurn (i : Nat) (hread : ReadOn s h) :
    NextSatisfies (DecodeTurn s) (parseInternal i { s with hid := h }) :=
  .goesOn s.seq { h with deser := .awaitLeft i :: h.deser } ⟨hread.latLen, hread.rpos⟩

theorem parseLeaf_decodeTurn (sym : Scalar) (i : Nat) (hread : ReadOn s h) :
    NextSatisfies (DecodeTurn s) (parseLeaf sym i { s with hid := h }) :=
  returnNode_decodeTurn h.deser i (h := { h with nodes := Table.put id i (.leaf sym) h.nodes })
    ⟨hread.latLen, hread.rpos⟩

/-- Allocation on the way to `use` either ends the command or changes `ncount` alone (41_tree_codec.md R184). -/
theorem allocNode_decodeTurn {use : Nat → State → Outcome} (hread : ReadOn s h)
    (huse : ∀ (i : Nat) (h' : Hidden), ReadOn s h' → NextSatisfies (DecodeTurn s) (use i { s with hid := h' })) :
    NextSatisfies (DecodeTurn s) (allocNode use { s with hid := h }) :=
  allocNode_satisfies (raise_decodeTurn _) (huse _ { h with ncount := h.ncount + 1 } ⟨hread.latLen, hread.rpos⟩)

/-! ### The text -/

theorem emitSymbol_decodeTurn (sym : Scalar) (hread : ReadOn s h) (htext : s.seq = .decText)
    (hout : h.outidx = s.hid.outidx) : NextSatisfies (DecodeTurn s) (emitSymbol sym { s with hid := h }) := by
  unfold emitSymbol
  split
  · trivial
  · split
    · trivial
    · exact .writesSym h.outidx (symbolWord sym) _ ⟨hread.latLen, hread.rpos⟩ htext hout

theorem moveTo_decodeTurn (i : Nat) (hread : ReadOn s h) (htext : s.seq = .decText)
    (hout : h.outidx = s.hid.outidx) : NextSatisfies (DecodeTurn s) (moveTo i { s with hid := h }) := by
  unfold moveTo
  split
  · exact emitSymbol_decodeTurn _ (h := { h with cur := i }) ⟨hread.latLen, hread.rpos⟩ htext hout
  · exact .goesOn s.seq { h with cur := i } ⟨hread.latLen, hread.rpos⟩
  · trivial

theorem execTextLeft_decodeTurn (hread : ReadOn s h) (htext : s.seq = .decText) (hout : h.outidx = s.hid.outidx) :
    NextSatisfies (DecodeTurn s) (execTextLeft { s with hid := h }) := by
  unfold execTextLeft
  split
  · exact moveTo_decodeTurn _ hread htext hout
  · trivial

theorem execTextRight_decodeTurn (hread : ReadOn s h) (htext : s.seq = .decText) (hout : h.outidx = s.hid.outidx) :
    NextSatisfies (DecodeTurn s) (execTextRight { s with hid := h }) := by
  unfold execTextRight
  split
  · exact moveTo_decodeTurn _ hread htext hout
  · trivial

/-! ### Any token, and the step -/

theorem exec_decodeTurn {i : Instr} (hread : ReadOn s h) (hout : h.outidx = s.hid.outidx)
    (hstream : i.format ≠ .command) (htext : i.format = .textBit → s.seq = .decText) :
    NextSatisfies (DecodeTurn s) (exec i { s with hid := h }) := by
  cases i with
  | encode => exact absurd rfl hstream
  | decode => exact absurd rfl hstream
  | illegal w => exact absurd rfl hstream
  | header count => exact execHeader_decodeTurn count hread
  | treeInternal => exact allocNode_decodeTurn hread fun i _ => parseInternal_decodeTurn i
  | treeLeaf1 x => exact allocNode_decodeTurn hread fun i _ => parseLeaf_decodeTurn _ i
  | treeLeaf2 y x => exact allocNode_decodeTurn hread fun i _ => parseLeaf_decodeTurn _ i
  | treeLeaf3 z y x => exact allocNode_decodeTurn hread fun i _ => parseLeaf_decodeTurn _ i
  | treeLeaf4 u z y x => exact allocNode_decodeTurn hread fun i _ => parseLeaf_decodeTurn _ i
  | treeLeafInvalid b =>
    exact allocNode_decodeTurn (use := fun _ t => .next (raise .sym .invalidSymbolEncoding t)) hread
      fun _ _ _ => raise_decodeTurn _
  | textLeft => exact execTextLeft_decodeTurn hread (htext rfl) hout
  | textRight => exact execTextRight_decodeTurn hread (htext rfl) hout

/-- A step that fetches a token of the stream reads on, whether the token decodes or the stream ends. -/
theorem step_fetchToken_decodeTurn {f : Format} (hevent : nextEvent s = fetchToken f { s with hid := h })
    (hread : ∀ len, 0 < len → ReadOn s { h with rpos := h.rpos + len }) (hout : h.outidx = s.hid.outidx)
    (hstream : f ≠ .command) (htext : f = .textBit → s.seq = .decText) : NextSatisfies (DecodeTurn s) (step s) := by
  rcases fetchToken_cases f { s with hid := h } with ⟨-, hfetch⟩ | ⟨-, ⟨i, len, hdec, hfetch⟩ | hfetch⟩
  · rw [step_done (hevent.trans hfetch)]
    trivial
  · obtain ⟨rfl, hlen⟩ := decode_format hdec
    rw [step_run (hevent.trans hfetch)]
    exact exec_decodeTurn (hread len hlen) hout hstream htext
  · rw [step_done (hevent.trans hfetch)]
    exact streamEnd_decodeTurn f

theorem step_hdr_decodeTurn (hin : s.inputs = []) (hseq : s.seq = .hdr) : NextSatisfies (DecodeTurn s) (step s) := by
  have hevent := (nextEvent_none hin).trans (coreTurn_hdr hseq)
  by_cases hfits : s.hid.latLen.toNat ≤ s.caps.artCap
  · exact step_fetchToken_decodeTurn (hevent.trans (headerFetch_of_fits hfits))
      (fun _ _ => ⟨rfl, absurd hseq⟩) rfl (by decide) nofun
  · rw [step_done (hevent.trans (if_pos (Nat.lt_of_not_le hfits)))]
    exact raise_decodeTurn _

theorem step_deserTree_decodeTurn (hin : s.inputs = []) (hseq : s.seq = .deserTree) :
    NextSatisfies (DecodeTurn s) (step s) :=
  step_fetchToken_decodeTurn ((nextEvent_none hin).trans (coreTurn_deserTree hseq))
    (fun _ hlen => readOn_advance hlen) rfl (by decide) nofun

theorem step_decText_decodeTurn (hin : s.inputs = []) (hseq : s.seq = .decText) :
    NextSatisfies (DecodeTurn s) (step s) := by
  have hevent := (nextEvent_none hin).trans (coreTurn_decText hseq)
  by_cases hremain : s.hid.remain = 0#32
  · rw [step_done (hevent.trans (if_pos hremain))]
    exact succeed_decodeTurn _
  · exact step_fetchToken_decodeTurn (hevent.trans (textFetch_of_remain hremain)) (fun _ hlen => readOn_advance hlen)
      rfl (by decide) fun _ => hseq

theorem step_decodeTurn (hin : s.inputs = []) (hstage : s.seq ∈ decodeStages) :
    NextSatisfies (DecodeTurn s) (step s) := by
  simp only [decodeStages, List.mem_cons, List.not_mem_nil, or_false] at hstage
  rcases hstage with hseq | hseq | hseq
  · exact step_hdr_decodeTurn hin hseq
  · exact step_deserTree_decodeTurn hin hseq
  · exact step_decText_decodeTurn hin hseq

end Turns

/-- Settles O27: the frame is read off the three things one step of a DECODE can do. -/
theorem decodeStageFrame : Obligations.DecodeStageFrame := by
  unfold Obligations.DecodeStageFrame
  intro s t hin hstage hstep
  have hturn : DecodeTurn s t := by simpa [hstep] using step_decodeTurn hin hstage
  cases hturn with
  | ended idle art inLen outside => exact ⟨art, inLen, outside, absurd idle⟩
  | goesOn stage h reads =>
    exact ⟨rfl, rfl, ⟨rfl, rfl, rfl, rfl⟩,
      fun _ => ⟨rfl, rfl, rfl, reads.latLen, fun _ _ => rfl, fun _ => rfl, reads.rpos⟩⟩
  | writesSym j v h reads inText atOutidx =>
    have hother : ∀ i, i ≠ s.hid.outidx → readSym { writeSym j v s with hid := h } i = readSym s i :=
      fun i hi => readSym_writeSym_other (atOutidx ▸ hi) v s
    exact ⟨rfl, rfl, ⟨rfl, rfl, rfl, rfl⟩,
      fun _ => ⟨rfl, rfl, rfl, reads.latLen, hother, fun hne => absurd inText hne, reads.rpos⟩⟩

end Sys2Proof.Proofs
end

section
/-! PROOF. What one step of an ENCODE can do, stage by stage, and from it the frame of an ENCODE (20_memory.md R61, R62,
R65) with the zero padding of the artifact (30_encoding.md R112). -/

namespace Sys2Proof.Proofs

open Sys2Proof Sys2Proof.Machine

/-- What one step of an ENCODE can make of `s`: the command ends, in PAD without touching ART; or it goes on with both
memories as they were, `wpos` kept or, as SIZE does, put to 0; or, in SER_TREE and ENC_TEXT, it emits bits. -/
inductive EncodeTurn (s : State) : State → Prop where
  | ended {t : State} (idle : t.seq = .idle) (sym : t.sym = s.sym) (inLen : t.inLen = s.inLen)
      (outside : OutsideKept s t) (art : s.seq = .pad → t.art = s.art) : EncodeTurn s t
  | goesOn (stage : Seq) (h : Hidden) (latLen : h.latLen = s.hid.latLen)
      (wpos : h.wpos = 0 ∨ s.seq ≠ .size ∧ h.wpos = s.hid.wpos) : EncodeTurn s { s with seq := stage, hid := h }
  | emits (bits : Bits) (h : Hidden) (latLen : h.latLen = s.hid.latLen) (wpos : h.wpos = s.hid.wpos)
      (emitting : s.seq = .serTree ∨ s.seq = .encText) : EncodeTurn s (emitBits bits { s with hid := h })

section Turns

variable {s : State}

theorem zeroPadded_of_wpos_zero (h : s.hid.wpos = 0) : ZeroPadded s := by
  intro p _ hlast
  simp [h, bytesFor] at hlast

/-- The padding is a matter of ART and `wpos` alone. -/
theorem zeroPadded_of_wpos_kept (stage : Seq) {h : Hidden} (hwpos : h.wpos = s.hid.wpos) (hpadded : ZeroPadded s) :
    ZeroPadded { s with seq := stage, hid := h } := by
  unfold ZeroPadded
  rw [hwpos]
  exact hpadded

/-! ### The command's ends, and emission -/

theorem raise_encodeTurn (e : CommandError) (h : Hidden) (hseq : s.seq ≠ .pad) :
    EncodeTurn s (raise .art e { s with hid := h }) :=
  .ended rfl rfl rfl ⟨rfl, rfl, rfl, rfl⟩ fun hpad => absurd hpad hseq

theorem encodeEmpty_encodeTurn (h : Hidden) (hseq : s.seq ≠ .pad) : EncodeTurn s (encodeEmpty { s with hid := h }) :=
  .ended rfl rfl rfl ⟨rfl, rfl, rfl, rfl⟩ fun hpad => absurd hpad hseq

theorem padStep_encodeTurn : EncodeTurn s (padStep s) := .ended rfl rfl rfl ⟨rfl, rfl, rfl, rfl⟩ fun _ => rfl

theorem emit_encodeTurn (bits : Bits) {h : Hidden} (hlat : h.latLen = s.hid.latLen) (hwpos : h.wpos = s.hid.wpos)
    (hseq : s.seq = .serTree ∨ s.seq = .encText) : NextSatisfies (EncodeTurn s) (emit bits { s with hid := h }) :=
  emit_satisfies (.emits bits h hlat hwpos hseq)

/-! ### COUNT (40_frequency_and_tree.md R140) -/

theorem countSymbol_encodeTurn {h : Hidden} (hseq : s.seq = .count) (hlat : h.latLen = s.hid.latLen)
    (hwpos : h.wpos = s.hid.wpos) : EncodeTurn s (countSymbol { s with hid := h }) := by
  have hpad : s.seq ≠ .pad := by simp [hseq]
  have htally : ∀ c count, EncodeTurn s (tally c count { s with hid := h }) :=
    fun _ _ => .goesOn s.seq _ hlat (.inr ⟨by simp [hseq], hwpos⟩)
  unfold countSymbol
  split
  · exact raise_encodeTurn _ h hpad
  · split
    · exact htally _ _
    · split
      · exact raise_encodeTurn _ h hpad
      · exact htally _ _

theorem countStep_encodeTurn (hseq : s.seq = .count) : NextSatisfies (EncodeTurn s) (countStep s) := by
  have hpad : s.seq ≠ .pad := by simp [hseq]
  unfold countStep
  extract_lets hid s'
  split
  · exact raise_encodeTurn _ _ hpad
  · split
    · exact encodeEmpty_encodeTurn _ hpad
    · split
      · exact countSymbol_encodeTurn hseq rfl rfl
      · exact .goesOn .build _ rfl (.inr ⟨by simp [hseq], rfl⟩)

/-! ### BUILD (R142 to R144) -/

/-- Taking an entry changes the queue alone. -/
theorem extractMin_frame {t : State} {i : Nat} (h : extractMin s = some (i, t)) :
    t = { s with hid := { s.hid with pq := t.hid.pq } } := by
  rcases extractMin_cases s with ⟨-, hn⟩ | ⟨j, -, -, hj⟩
  · rw [hn] at h
    cases h
  · rw [hj] at h
    cases h
    rfl

theorem mergeStep_encodeTurn (hseq : s.seq = .build) : NextSatisfies (EncodeTurn s) (mergeStep s) := by
  unfold mergeStep
  split
  · trivial
  · next a t ht =>
    split
    · trivial
    · next b u hu =>
      rw [extractMin_frame hu, extractMin_frame ht]
      exact .goesOn s.seq _ rfl (.inr ⟨by simp [hseq], rfl⟩)

theorem takeRoot_encodeTurn (hseq : s.seq = .build) : NextSatisfies (EncodeTurn s) (takeRoot s) := by
  unfold takeRoot
  split
  · trivial
  · next r t ht =>
    rw [extractMin_frame ht]
    exact .goesOn .codes _ rfl (.inr ⟨by simp [hseq], rfl⟩)

theorem buildStep_encodeTurn (hseq : s.seq = .build) : NextSatisfies (EncodeTurn s) (buildStep s) := by
  unfold buildStep
  split
  · split
    · exact raise_encodeTurn _ s.hid (by simp [hseq])
    · exact .goesOn s.seq _ rfl (.inr ⟨by simp [hseq], rfl⟩)
  · split
    · exact mergeStep_encodeTurn hseq
    · exact takeRoot_encodeTurn hseq

/-! ### CODES (R148) and SIZE (43_commands.md R244) -/

theorem codesStep_encodeTurn (hseq : s.seq = .codes) : NextSatisfies (EncodeTurn s) (codesStep s) := by
  have hsize : s.seq ≠ .size := by simp [hseq]
  unfold codesStep
  split
  · exact .goesOn .size s.hid rfl (.inr ⟨hsize, rfl⟩)
  · split
    · trivial
    · exact .goesOn s.seq _ rfl (.inr ⟨hsize, rfl⟩)
    · exact .goesOn s.seq _ rfl (.inr ⟨hsize, rfl⟩)

theorem sizeStep_encodeTurn (hseq : s.seq = .size) : NextSatisfies (EncodeTurn s) (sizeStep s) := by
  unfold sizeStep
  split
  · trivial
  · trivial
  · extract_lets total
    split
    · exact raise_encodeTurn _ s.hid (by simp [hseq])
    · exact .goesOn .serTree _ rfl (.inl rfl)

/-! ### SER_TREE (41_tree_codec.md R180 to R182) and ENC_TEXT (42_text_codec.md R210) -/

theorem serStep_encodeTurn (hseq : s.seq = .serTree) : NextSatisfies (EncodeTurn s) (serStep s) := by
  unfold serStep
  split
  · exact emit_encodeTurn _ (h := s.hid) rfl rfl (.inl hseq)
  · split
    · exact .goesOn .encText _ rfl (.inr ⟨by simp [hseq], rfl⟩)
    · split
      · trivial
      · exact emit_encodeTurn _ rfl rfl (.inl hseq)
      · exact emit_encodeTurn _ rfl rfl (.inl hseq)

theorem encTextStep_encodeTurn (hseq : s.seq = .encText) : NextSatisfies (EncodeTurn s) (encTextStep s) := by
  unfold encTextStep
  split
  · exact .goesOn .pad s.hid rfl (.inr ⟨by simp [hseq], rfl⟩)
  · split
    · trivial
    · split
      · trivial
      · exact emit_encodeTurn _ rfl rfl (.inr hseq)

/-! ### The step -/

/-- A stage of ENCODE is no instruction: the core's turn is the step (R76). -/
theorem step_coreTurn_done {o : Outcome} (hin : s.inputs = []) (hturn : coreTurn s = .done o) : step s = o :=
  step_done ((nextEvent_none hin).trans hturn)

theorem step_encodeTurn (hin : s.inputs = []) (hstage : s.seq ∈ encodeStages) :
    NextSatisfies (EncodeTurn s) (step s) := by
  simp only [encodeStages, List.mem_cons, List.not_mem_nil, or_false] at hstage
  rcases hstage with h | h | h | h | h | h | h
  · rw [step_coreTurn_done hin (coreTurn_count h)]
    exact countStep_encodeTurn h
  · rw [step_coreTurn_done hin (coreTurn_build h)]
    exact buildStep_encodeTurn h
  · rw [step_coreTurn_done hin (coreTurn_codes h)]
    exact codesStep_encodeTurn h
  · rw [step_coreTurn_done hin (coreTurn_size h)]
    exact sizeStep_encodeTurn h
  · rw [step_coreTurn_done hin (coreTurn_serTree h)]
    exact serStep_encodeTurn h
  · rw [step_coreTurn_done hin (coreTurn_encText h)]
    exact encTextStep_encodeTurn h
  · rw [step_coreTurn_done hin (coreTurn_pad h)]
    exact padStep_encodeTurn

end Turns

/-! ### The frame, by what the step did -/

/-- Emitting bits changes neither SYM, the registers and `lat_len`, nor anything outside the block. -/
theorem emitBits_kept (bits : Bits) (s : State) :
    (emitBits bits s).sym = s.sym ∧ (emitBits bits s).inLen = s.inLen ∧ OutsideKept s (emitBits bits s)
      ∧ (emitBits bits s).status = s.status ∧ (emitBits bits s).outLen = s.outLen
      ∧ (emitBits bits s).draws = s.draws ∧ (emitBits bits s).hid.latLen = s.hid.latLen := by
  rw [emitBits_frame]
  exact ⟨rfl, rfl, ⟨rfl, rfl, rfl, rfl⟩, rfl, rfl, rfl, rfl⟩

/-- Settles O46: the frame is read off the three things one step of an ENCODE can do, and off what emission writes. -/
theorem encodeStageFrame : Obligations.EncodeStageFrame := by
  unfold Obligations.EncodeStageFrame
  intro s t hin hstage hstep
  have hturn : EncodeTurn s t := by simpa [hstep] using step_encodeTurn hin hstage
  cases hturn with
  | ended idle sym inLen outside art => exact ⟨sym, inLen, outside, art, absurd idle⟩
  | goesOn stage h latLen wpos =>
    refine ⟨rfl, rfl, ⟨rfl, rfl, rfl, rfl⟩, fun _ => rfl, fun _ =>
      ⟨rfl, rfl, rfl, latLen, fun _ _ => rfl, fun _ _ => rfl, fun hsize => ?fromSize, fun hpadded => ?padded⟩⟩
    case fromSize => exact zeroPadded_of_wpos_zero (wpos.resolve_right fun hkept => hkept.1 hsize)
    case padded =>
      rcases wpos with hzero | ⟨-, hkept⟩
      · exact zeroPadded_of_wpos_zero hzero
      · exact zeroPadded_of_wpos_kept stage hkept hpadded
  | emits bits h latLen wpos emitting =>
    obtain ⟨hsym, hinLen, hout, hstatus, houtLen, hdraws, hlat⟩ := emitBits_kept bits { s with hid := h }
    refine ⟨hsym, hinLen, ⟨hout.inputs, hout.busData, hout.endShown, hout.caps⟩, fun hpad => ?notPad, fun _ =>
      ⟨hstatus, houtLen, hdraws, hlat.trans latLen, fun hser htext => absurd emitting (not_or.2 ⟨hser, htext⟩),
        fun a ha => ?bytes, fun hsize => ?notSize, fun hpadded => ?padded⟩⟩
    case notPad => simp [hpad] at emitting
    case notSize => simp [hsize] at emitting
    case bytes =>
      rw [emitBits_wpos, ← wpos] at ha
      exact readArt_emitBits_outside bits { s with hid := h } ha
    case padded => exact emitBits_zeroPadded bits (zeroPadded_of_wpos_kept s.seq wpos hpadded)

end Sys2Proof.Proofs
end

section
/-! PROOF. The leaf tokens and UTF-8 (30_encoding.md R107 to R111, 41_tree_codec.md R182, R186). A well-formed leaf token, a
scalar value and a well-formed byte sequence are three views of one thing: each is read off the numbers of the token's
fields. -/

namespace Sys2Proof.Proofs

open Sys2Proof Sys2Proof.Machine

/-! ### The number of a bit vector put together or cut out -/

theorem toNat_append_eq_add {m n : Nat} (x : BitVec m) (y : BitVec n) : (x ++ y).toNat = x.toNat * 2 ^ n + y.toNat := by
  rw [BitVec.toNat_append, ← Nat.shiftLeft_add_eq_or_of_lt y.isLt, Nat.shiftLeft_eq]

theorem toNat_extractLsb'_eq_div {n : Nat} (start len : Nat) (x : BitVec n) :
    (x.extractLsb' start len).toNat = x.toNat / 2 ^ start % 2 ^ len := by
  rw [BitVec.extractLsb'_toNat, Nat.shiftRight_eq_div_pow]

/-- The field with these bits is the one with their number. -/
theorem extractLsb'_eq_of_div {n start len : Nat} {x : BitVec n} {v : BitVec len}
    (h : x.toNat / 2 ^ start % 2 ^ len = v.toNat) : x.extractLsb' start len = v :=
  BitVec.eq_of_toNat_eq ((toNat_extractLsb'_eq_div start len x).trans h)

@[simp] theorem leaf1Symbol_toNat (x : BitVec 7) : (leaf1Symbol x).toNat = x.toNat :=
  (toNat_append_eq_add 0#14 x).trans (by simp)

@[simp] theorem leaf2Symbol_toNat (y : BitVec 5) (x : BitVec 6) :
    (leaf2Symbol y x).toNat = y.toNat * 2 ^ 6 + x.toNat := by
  simp [leaf2Symbol, toNat_append_eq_add (0#10 ++ y) x, toNat_append_eq_add 0#10 y]

@[simp] theorem leaf3Symbol_toNat (z : BitVec 4) (y x : BitVec 6) :
    (leaf3Symbol z y x).toNat = (z.toNat * 2 ^ 6 + y.toNat) * 2 ^ 6 + x.toNat := by
  simp [leaf3Symbol, toNat_append_eq_add (0#5 ++ z ++ y) x, toNat_append_eq_add (0#5 ++ z) y, toNat_append_eq_add 0#5 z]

@[simp] theorem leaf4Symbol_toNat (u : BitVec 5) (z : BitVec 4) (y x : BitVec 6) :
    (leaf4Symbol u z y x).toNat = ((u.toNat * 2 ^ 4 + z.toNat) * 2 ^ 6 + y.toNat) * 2 ^ 6 + x.toNat := by
  rw [leaf4Symbol, toNat_append_eq_add (u ++ z ++ y), toNat_append_eq_add (u ++ z), toNat_append_eq_add u]

/-! The bytes of R116's bit patterns, as numbers. -/

@[simp] theorem leadByte1_toNat (x : BitVec 7) : (0b0#1 ++ x : Byte).toNat = x.toNat :=
  (toNat_append_eq_add 0b0#1 x).trans (by simp)

@[simp] theorem leadByte2_toNat (y : BitVec 5) : (0b110#3 ++ y : Byte).toNat = 0xC0 + y.toNat :=
  toNat_append_eq_add 0b110#3 y

@[simp] theorem leadByte3_toNat (z : BitVec 4) : (0b1110#4 ++ z : Byte).toNat = 0xE0 + z.toNat :=
  toNat_append_eq_add 0b1110#4 z

@[simp] theorem leadByte4_toNat (u : BitVec 3) : (0b11110#5 ++ u : Byte).toNat = 0xF0 + u.toNat :=
  toNat_append_eq_add 0b11110#5 u

@[simp] theorem contByte_toNat (v : BitVec 6) : (0b10#2 ++ v : Byte).toNat = 0x80 + v.toNat :=
  toNat_append_eq_add 0b10#2 v

@[simp] theorem contByteOfTwo_toNat (u : BitVec 2) (z : BitVec 4) :
    (0b10#2 ++ u ++ z : Byte).toNat = 0x80 + (u.toNat * 2 ^ 4 + z.toNat) := by
  simp [toNat_append_eq_add (0b10#2 ++ u) z, toNat_append_eq_add 0b10#2 u, Nat.add_mul, Nat.add_assoc]

/-! R110's arithmetic, by the number of bytes. -/

theorem utf8Value_one (b1 : Byte) : utf8Value [b1] = b1.toNat := rfl

theorem utf8Value_two (b1 b2 : Byte) : utf8Value [b1, b2] = (b1.toNat - 0xC0) * 2 ^ 6 + (b2.toNat - 0x80) := rfl

theorem utf8Value_three (b1 b2 b3 : Byte) : utf8Value [b1, b2, b3] =
    (b1.toNat - 0xE0) * 2 ^ 12 + (b2.toNat - 0x80) * 2 ^ 6 + (b3.toNat - 0x80) := rfl

theorem utf8Value_four (b1 b2 b3 b4 : Byte) : utf8Value [b1, b2, b3, b4] =
    (b1.toNat - 0xF0) * 2 ^ 18 + (b2.toNat - 0x80) * 2 ^ 12 + (b3.toNat - 0x80) * 2 ^ 6 + (b4.toNat - 0x80) := rfl

/-! ### Well-formed leaf tokens -/

/-- `i` is a well-formed leaf token that carries the symbol `c`; the constraints on the fields as numbers. -/
inductive LeafCarries : Instr → Scalar → Prop where
  | one (x : BitVec 7) : LeafCarries (.treeLeaf1 x) (leaf1Symbol x)
  | two (y : BitVec 5) (x : BitVec 6) (long : 2 ≤ y.toNat) : LeafCarries (.treeLeaf2 y x) (leaf2Symbol y x)
  | three (z : BitVec 4) (y x : BitVec 6) (long : z.toNat = 0 → 0x20 ≤ y.toNat)
      (noSurrogate : z.toNat = 0xD → y.toNat ≤ 0x1F) : LeafCarries (.treeLeaf3 z y x) (leaf3Symbol z y x)
  | four (u : BitVec 5) (z : BitVec 4) (y x : BitVec 6) (long : 1 ≤ u.toNat) (top : u.toNat ≤ 0x10) :
      LeafCarries (.treeLeaf4 u z y x) (leaf4Symbol u z y x)

theorem wellFormed_treeLeaf3_iff (z : BitVec 4) (y x : BitVec 6) : (Instr.treeLeaf3 z y x).wellFormed = true ↔
    (z.toNat = 0 → 0x20 ≤ y.toNat) ∧ (z.toNat = 0xD → y.toNat ≤ 0x1F) := by
  simp [Instr.wellFormed, ← BitVec.toNat_inj, imp_iff_not_or]

theorem leafCarries_iff {i : Instr} {c : Scalar} : LeafCarries i c ↔ i.wellFormed = true ∧ tokenSymbol i = some c := by
  constructor
  · intro h
    cases h with
    | one x => exact ⟨rfl, rfl⟩
    | two y x long => exact ⟨decide_eq_true long, rfl⟩
    | three z y x long noSurrogate => exact ⟨(wellFormed_treeLeaf3_iff z y x).2 ⟨long, noSurrogate⟩, rfl⟩
    | four u z y x long top => exact ⟨by simp [Instr.wellFormed, long, top], rfl⟩
  · rintro ⟨hwf, hsym⟩
    cases i with
    | treeLeaf1 x => cases hsym; exact .one x
    | treeLeaf2 y x => cases hsym; exact .two y x (of_decide_eq_true hwf)
    | treeLeaf3 z y x =>
      cases hsym
      obtain ⟨long, noSurrogate⟩ := (wellFormed_treeLeaf3_iff z y x).1 hwf
      exact .three z y x long noSurrogate
    | treeLeaf4 u z y x =>
      cases hsym
      obtain ⟨long, top⟩ : 1 ≤ u.toNat ∧ u.toNat ≤ 0x10 := by simpa [Instr.wellFormed] using hwf
      exact .four u z y x long top
    | _ => cases hsym

section Leaf
variable {i : Instr} {c : Scalar}

theorem encode_of_leafCarries (h : LeafCarries i c) : encode i = leafBits (leafBytes i) := by
  cases h <;> rfl

theorem bitLength_of_leafCarries (h : LeafCarries i c) : i.bitLength = 1 + 8 * (leafBytes i).length := by
  cases h <;> rfl

/-- The symbol of a well-formed leaf token is a scalar value (R107, R182). -/
theorem isScalar_of_leafCarries (h : LeafCarries i c) : isScalar c.toNat = true := by
  cases h <;> simp [isScalar] <;> omega

/-- R110's arithmetic on a leaf token's bytes gives the number of its symbol. -/
theorem utf8Value_leafBytes (h : LeafCarries i c) : utf8Value (leafBytes i) = c.toNat := by
  cases h with
  | one x => rw [leafBytes, utf8Value_one, leadByte1_toNat, leaf1Symbol_toNat]
  | two y x =>
    rw [leafBytes, utf8Value_two, leadByte2_toNat, contByte_toNat, leaf2Symbol_toNat]
    omega
  | three z y x =>
    rw [leafBytes, utf8Value_three, leadByte3_toNat, contByte_toNat, contByte_toNat, leaf3Symbol_toNat]
    omega
  | four u z y x =>
    rw [leafBytes, utf8Value_four, leadByte4_toNat, contByteOfTwo_toNat, contByte_toNat, contByte_toNat, leaf4Symbol_toNat,
      toNat_extractLsb'_eq_div, toNat_extractLsb'_eq_div]
    omega

/-- The bytes of a well-formed leaf token validate (R109). -/
theorem utf8ValidSingle_leafBytes (h : LeafCarries i c) : utf8ValidSingle (leafBytes i) = true := by
  cases h <;>
    simp [utf8ValidSingle, inRange, leafBytes] <;> omega

/-- A leaf token's bytes are read back as its fields (R116). -/
theorem leafInstr_leafBytes (h : LeafCarries i c) : leafInstr (leafBytes i) = i := by
  cases h with
  | one x => exact congrArg Instr.treeLeaf1 (extractLsb'_eq_of_div (by simp; omega))
  | two y x long =>
    simp only [leafBytes, leafInstr, Instr.treeLeaf2.injEq]
    exact ⟨extractLsb'_eq_of_div (by simp; omega), extractLsb'_eq_of_div (by simp; omega)⟩
  | three z y x long noSurrogate =>
    simp only [leafBytes, leafInstr, Instr.treeLeaf3.injEq]
    exact ⟨extractLsb'_eq_of_div (by simp; omega), extractLsb'_eq_of_div (by simp; omega),
      extractLsb'_eq_of_div (by simp; omega)⟩
  | four u z y x long top =>
    simp only [leafBytes, leafInstr, Instr.treeLeaf4.injEq]
    have hhigh : (0b11110#5 ++ u.extractLsb' 2 3 : Byte).extractLsb' 0 3 = u.extractLsb' 2 3 :=
      extractLsb'_eq_of_div (by simp; omega)
    have hlow : (0b10#2 ++ u.extractLsb' 0 2 ++ z : Byte).extractLsb' 4 2 = u.extractLsb' 0 2 :=
      extractLsb'_eq_of_div (by simp; omega)
    refine ⟨?_, extractLsb'_eq_of_div (by simp; omega), extractLsb'_eq_of_div (by simp; omega),
      extractLsb'_eq_of_div (by simp; omega)⟩
    rw [hhigh, hlow]
    refine BitVec.eq_of_toNat_eq ?_
    rw [toNat_append_eq_add (u.extractLsb' 2 3) (u.extractLsb' 0 2), toNat_extractLsb'_eq_div, toNat_extractLsb'_eq_div]
    omega

/-- `Utf8Encode` of a leaf token's symbol gives the token's bytes (R108, R182). -/
theorem utf8Encode_of_leafCarries (h : LeafCarries i c) : utf8Encode c = leafBytes i := by
  cases h with
  | one x =>
    rw [utf8Encode, if_pos (by simp; omega)]
    exact congrArg (fun b => [b]) (extractLsb'_eq_of_div (by simp; omega))
  | two y x long =>
    have hy : (leaf2Symbol y x).extractLsb' 6 5 = y := extractLsb'_eq_of_div (by simp; omega)
    have hx : (leaf2Symbol y x).extractLsb' 0 6 = x := extractLsb'_eq_of_div (by simp; omega)
    rw [utf8Encode, if_neg (by simp; omega), if_pos (by simp; omega), hy, hx]
    rfl
  | three z y x long noSurrogate =>
    have hz : (leaf3Symbol z y x).extractLsb' 12 4 = z := extractLsb'_eq_of_div (by simp; omega)
    have hy : (leaf3Symbol z y x).extractLsb' 6 6 = y := extractLsb'_eq_of_div (by simp; omega)
    have hx : (leaf3Symbol z y x).extractLsb' 0 6 = x := extractLsb'_eq_of_div (by simp; omega)
    rw [utf8Encode, if_neg (by simp; omega), if_neg (by simp; omega), if_pos (by simp; omega), hz, hy, hx]
    rfl
  | four u z y x long top =>
    have hhigh : (leaf4Symbol u z y x).extractLsb' 18 3 = u.extractLsb' 2 3 := extractLsb'_eq_of_div (by simp; omega)
    have hlow : (leaf4Symbol u z y x).extractLsb' 12 6 = u.extractLsb' 0 2 ++ z :=
      extractLsb'_eq_of_div (by simp [toNat_append_eq_add (u.extractLsb' 0 2) z]; omega)
    have hy : (leaf4Symbol u z y x).extractLsb' 6 6 = y := extractLsb'_eq_of_div (by simp; omega)
    have hx : (leaf4Symbol u z y x).extractLsb' 0 6 = x := extractLsb'_eq_of_div (by simp; omega)
    have hsecond : contByte (u.extractLsb' 0 2 ++ z) = 0b10#2 ++ u.extractLsb' 0 2 ++ z := BitVec.eq_of_toNat_eq (by
      simp [contByte, toNat_append_eq_add (u.extractLsb' 0 2) z])
    rw [utf8Encode, if_neg (by simp; omega), if_neg (by simp; omega), if_neg (by simp; omega), hhigh, hlow, hy, hx, hsecond]
    rfl

end Leaf

/-! ### Every valid byte sequence and every scalar value has its token -/

theorem contByte_extract {b : Byte} (h : 0x80 ≤ b.toNat ∧ b.toNat ≤ 0xBF) : 0b10#2 ++ b.extractLsb' 0 6 = b :=
  BitVec.eq_of_toNat_eq (by rw [contByte_toNat, toNat_extractLsb'_eq_div]; omega)

/-- The token read from a valid sequence is well-formed and has these bytes (R109, R116). -/
theorem leafInstr_of_valid {bytes : List Byte} (h : utf8ValidSingle bytes = true) :
    leafBytes (leafInstr bytes) = bytes ∧ ∃ c, LeafCarries (leafInstr bytes) c := by
  match bytes, h with
  | [b1], h =>
    have hb : b1.toNat ≤ 0x7F := by simpa [utf8ValidSingle, inRange] using h
    have h1 : 0b0#1 ++ b1.extractLsb' 0 7 = b1 :=
      BitVec.eq_of_toNat_eq (by rw [leadByte1_toNat, toNat_extractLsb'_eq_div]; omega)
    exact ⟨by rw [leafInstr, leafBytes, h1], _, .one _⟩
  | [b1, b2], h =>
    obtain ⟨hb1, hb2⟩ : (0xC2 ≤ b1.toNat ∧ b1.toNat ≤ 0xDF) ∧ 0x80 ≤ b2.toNat ∧ b2.toNat ≤ 0xBF := by
      simpa [utf8ValidSingle, inRange] using h
    have h1 : 0b110#3 ++ b1.extractLsb' 0 5 = b1 :=
      BitVec.eq_of_toNat_eq (by rw [leadByte2_toNat, toNat_extractLsb'_eq_div]; omega)
    exact ⟨by rw [leafInstr, leafBytes, h1, contByte_extract hb2], _, .two _ _ (by rw [toNat_extractLsb'_eq_div]; omega)⟩
  | [b1, b2, b3], h =>
    simp only [utf8ValidSingle, inRange, Bool.or_eq_true, Bool.and_eq_true, decide_eq_true_eq] at h
    have h1 : 0b1110#4 ++ b1.extractLsb' 0 4 = b1 :=
      BitVec.eq_of_toNat_eq (by rw [leadByte3_toNat, toNat_extractLsb'_eq_div]; omega)
    exact ⟨by rw [leafInstr, leafBytes, h1, contByte_extract (b := b2) (by omega), contByte_extract (b := b3) (by omega)],
      _, .three _ _ _ (by simp only [toNat_extractLsb'_eq_div]; omega) (by simp only [toNat_extractLsb'_eq_div]; omega)⟩
  | [b1, b2, b3, b4], h =>
    simp only [utf8ValidSingle, inRange, Bool.or_eq_true, Bool.and_eq_true, decide_eq_true_eq] at h
    have hu : (b1.extractLsb' 0 3 ++ b2.extractLsb' 4 2).toNat = b1.toNat % 8 * 4 + b2.toNat / 16 % 4 := by
      rw [toNat_append_eq_add (b1.extractLsb' 0 3) (b2.extractLsb' 4 2), toNat_extractLsb'_eq_div, toNat_extractLsb'_eq_div]
      omega
    have h1 : 0b11110#5 ++ (b1.extractLsb' 0 3 ++ b2.extractLsb' 4 2).extractLsb' 2 3 = b1 :=
      BitVec.eq_of_toNat_eq (by rw [leadByte4_toNat, toNat_extractLsb'_eq_div, hu]; omega)
    have h2 : 0b10#2 ++ (b1.extractLsb' 0 3 ++ b2.extractLsb' 4 2).extractLsb' 0 2 ++ b2.extractLsb' 0 4 = b2 :=
      BitVec.eq_of_toNat_eq (by
        rw [contByteOfTwo_toNat, toNat_extractLsb'_eq_div, toNat_extractLsb'_eq_div, hu]; omega)
    exact ⟨by rw [leafInstr, leafBytes, h1, h2, contByte_extract (b := b3) (by omega), contByte_extract (b := b4) (by omega)],
      _, .four _ _ _ _ (by rw [hu]; omega) (by rw [hu]; omega)⟩
  | [], h => cases h
  | _ :: _ :: _ :: _ :: _ :: _, h => cases h

theorem leafCarries_of_toNat_eq {i : Instr} {c d : Scalar} (h : LeafCarries i d) (hd : d.toNat = c.toNat) : LeafCarries i c :=
  BitVec.eq_of_toNat_eq hd ▸ h

/-- Every scalar value is the symbol of a well-formed leaf token: R116's fields by the ranges of R108. -/
theorem exists_leafCarries {c : Scalar} (h : isScalar c.toNat = true) : ∃ i, LeafCarries i c := by
  simp only [isScalar, Bool.or_eq_true, Bool.and_eq_true, decide_eq_true_eq] at h
  by_cases h1 : c.toNat ≤ 0x7F
  · refine ⟨_, leafCarries_of_toNat_eq (.one (c.extractLsb' 0 7)) ?_⟩
    rw [leaf1Symbol_toNat, toNat_extractLsb'_eq_div]
    omega
  by_cases h2 : c.toNat ≤ 0x7FF
  · refine ⟨_, leafCarries_of_toNat_eq (.two (c.extractLsb' 6 5) (c.extractLsb' 0 6) ?_) ?_⟩ <;>
      simp only [leaf2Symbol_toNat, toNat_extractLsb'_eq_div] <;> omega
  by_cases h3 : c.toNat ≤ 0xFFFF
  · refine ⟨_, leafCarries_of_toNat_eq (.three (c.extractLsb' 12 4) (c.extractLsb' 6 6) (c.extractLsb' 0 6) ?_ ?_) ?_⟩ <;>
      simp only [leaf3Symbol_toNat, toNat_extractLsb'_eq_div] <;> omega
  · refine ⟨_, leafCarries_of_toNat_eq
      (.four (c.extractLsb' 16 5) (c.extractLsb' 12 4) (c.extractLsb' 6 6) (c.extractLsb' 0 6) ?_ ?_) ?_⟩ <;>
      simp only [leaf4Symbol_toNat, toNat_extractLsb'_eq_div] <;> omega

/-! ### `Utf8Decode` and the leaf tokens' symbols -/

theorem utf8Decode_of_invalid {bytes : List Byte} (h : utf8ValidSingle bytes = false) : utf8Decode bytes = none := by
  simp [utf8Decode, h]

/-- A well-formed leaf token's bytes decode to its symbol (R110, R186). -/
theorem utf8Decode_leafBytes {i : Instr} {c : Scalar} (h : LeafCarries i c) : utf8Decode (leafBytes i) = some c := by
  rw [utf8Decode, if_pos (utf8ValidSingle_leafBytes h), utf8Value_leafBytes h, BitVec.ofNat_toNat, BitVec.setWidth_eq]

/-- What `Utf8Decode` delivers is carried by the token with these bytes. -/
theorem leafCarries_of_utf8Decode {bytes : List Byte} {c : Scalar} (h : utf8Decode bytes = some c) :
    leafBytes (leafInstr bytes) = bytes ∧ LeafCarries (leafInstr bytes) c := by
  cases hvalid : utf8ValidSingle bytes with
  | false => simp [utf8Decode_of_invalid hvalid] at h
  | true =>
    obtain ⟨hbytes, d, hd⟩ := leafInstr_of_valid hvalid
    have hdec := utf8Decode_leafBytes hd
    rw [hbytes, h] at hdec
    cases hdec
    exact ⟨hbytes, hd⟩

/-- R110's arithmetic is the number of what `Utf8Decode` delivers: no bit is lost. -/
theorem toNat_of_utf8Decode {bytes : List Byte} {c : Scalar} (h : utf8Decode bytes = some c) :
    c.toNat = utf8Value bytes := by
  obtain ⟨hbytes, hc⟩ := leafCarries_of_utf8Decode h
  rw [← utf8Value_leafBytes hc, hbytes]

/-- Settles O4: a valid sequence is the bytes of a leaf token, whose symbol it decodes to and is the encoding of. -/
theorem utf8DecodeRule : Obligations.Utf8DecodeRule := by
  unfold Obligations.Utf8DecodeRule
  refine ⟨fun bytes hvalid => ?inverse, fun _ => utf8Decode_of_invalid, fun _ _ => toNat_of_utf8Decode,
    fun _ _ _ => toNat_of_utf8Decode, fun _ _ _ _ => toNat_of_utf8Decode, fun _ _ _ _ _ => toNat_of_utf8Decode⟩
  obtain ⟨hbytes, c, hc⟩ := leafInstr_of_valid hvalid
  rw [← hbytes]
  exact ⟨c, utf8Decode_leafBytes hc, isScalar_of_leafCarries hc, utf8Encode_of_leafCarries hc⟩

/-- Settles O6: a well-formed leaf token is its scalar value's encoding behind the tag bit, and R116's fields of any scalar
value make one. -/
theorem leafTokensCarryScalars : Obligations.LeafTokensCarryScalars := by
  unfold Obligations.LeafTokensCarryScalars
  refine ⟨fun i c hwf hsym => ?_, fun c hc => ?_⟩
  · have hi : LeafCarries i c := leafCarries_iff.2 ⟨hwf, hsym⟩
    exact ⟨isScalar_of_leafCarries hi, by rw [encode_of_leafCarries hi, leafBits, utf8Encode_of_leafCarries hi]⟩
  · obtain ⟨i, hi⟩ := exists_leafCarries hc
    exact ⟨i, leafCarries_iff.1 hi⟩

end Sys2Proof.Proofs
end

section
/-! PROOF. The decoder and the encoder are inverse (30_encoding.md R101, R103, R104, R106, R111, R116). A tree token is
read byte by byte until the bytes so far validate; the lead byte fixes how many that are, so nothing shorter validates. -/

namespace Sys2Proof.Proofs

open Sys2Proof Sys2Proof.Machine

/-! ### The lengths of valid sequences -/

/-- R111: the lead byte's ranges with the number of bytes that follow. -/
theorem lead_of_valid {b : Byte} {rest : List Byte} (h : utf8ValidSingle (b :: rest) = true) :
    b.toNat ≤ 0x7F ∧ rest.length = 0
    ∨ 0xC2 ≤ b.toNat ∧ b.toNat ≤ 0xDF ∧ rest.length = 1
    ∨ 0xE0 ≤ b.toNat ∧ b.toNat ≤ 0xEF ∧ rest.length = 2
    ∨ 0xF0 ≤ b.toNat ∧ b.toNat ≤ 0xF4 ∧ rest.length = 3 := by
  match rest, h with
  | [], h | [_], h | [_, _], h | [_, _, _], h =>
    simp only [utf8ValidSingle, inRange, Bool.or_eq_true, Bool.and_eq_true, decide_eq_true_eq] at h
    simp
    omega
  | _ :: _ :: _ :: _ :: _, h => cases h

theorem length_le_of_valid {bytes : List Byte} (h : utf8ValidSingle bytes = true) : bytes.length ≤ 4 := by
  cases bytes with
  | nil => cases h
  | cons b rest =>
    have hlead := lead_of_valid h
    rw [List.length_cons]
    omega

/-- R111: two valid sequences with one lead byte are equally long. -/
theorem length_eq_of_valid {b : Byte} {rest other : List Byte} (h : utf8ValidSingle (b :: rest) = true)
    (h' : utf8ValidSingle (b :: other) = true) : rest.length = other.length := by
  have hrest := lead_of_valid h
  have hother := lead_of_valid h'
  omega

/-- No beginning of these bytes is a valid sequence. -/
def NoValidPrefix (bytes : List Byte) : Prop := ∀ p, p <+: bytes → utf8ValidSingle p = false

theorem noValidPrefix_nil : NoValidPrefix [] := fun p hp => by rw [List.prefix_nil.1 hp]; rfl

theorem noValidPrefix_concat {bytes : List Byte} {b : Byte} :
    NoValidPrefix (bytes ++ [b]) ↔ NoValidPrefix bytes ∧ utf8ValidSingle (bytes ++ [b]) = false := by
  refine ⟨fun h => ⟨fun p hp => h p (hp.trans (List.prefix_append ..)), h _ List.prefix_rfl⟩, fun ⟨hinit, hall⟩ p hp => ?_⟩
  rcases List.prefix_concat_iff.1 hp with rfl | hp
  · exact hall
  · exact hinit p hp

theorem NoValidPrefix.of_append {bytes more : List Byte} (h : NoValidPrefix (bytes ++ more)) : NoValidPrefix bytes :=
  fun p hp => h p (hp.trans (List.prefix_append ..))

/-- The constraint of TREE_LEAF_INVALID's payload, which tests the first one to four bytes. -/
theorem noPrefixValid_iff {bytes : List Byte} (hlen : bytes.length = 4) :
    noPrefixValid bytes = true ↔ NoValidPrefix bytes := by
  constructor
  · intro h p hp
    simp only [noPrefixValid, Bool.and_eq_true, Bool.not_eq_true'] at h
    obtain ⟨⟨⟨h1, h2⟩, h3⟩, h4⟩ := h
    have hple : p.length ≤ 4 := hlen ▸ hp.length_le
    rw [List.prefix_iff_eq_take.1 hp]
    interval_cases p.length
    · rfl
    all_goals assumption
  · intro h
    simp [noPrefixValid, h _ (List.take_prefix ..)]

/-- R111: a valid sequence without its last byte has no valid beginning. -/
theorem noValidPrefix_of_concat_valid {bytes : List Byte} {last : Byte} (h : utf8ValidSingle (bytes ++ [last]) = true) :
    NoValidPrefix bytes := by
  intro p hp
  by_contra hvalid
  rw [Bool.not_eq_false] at hvalid
  cases p with
  | nil => cases hvalid
  | cons b rest =>
    obtain ⟨more, rfl⟩ := hp
    have hlen := length_eq_of_valid hvalid (other := rest ++ more ++ [last]) (by simpa using h)
    simp at hlen

/-! ### The loop of R186 -/

theorem readLeaf_byte (fuel : Nat) (sofar : List Byte) (b : Byte) (rest : Bits) :
    readLeaf (fuel + 1) sofar (bitsOf b ++ rest) =
      if utf8ValidSingle (sofar ++ [b]) = true then .valid (sofar ++ [b]) else readLeaf fuel (sofar ++ [b]) rest := by
  rw [readLeaf, takeByte_bitsOf]

/-- The loop passes over bytes as long as nothing validates. -/
theorem readLeaf_skip (fuel : Nat) (rest : Bits) {sofar more : List Byte} (h : NoValidPrefix (sofar ++ more)) :
    readLeaf (fuel + more.length) sofar (more.flatMap bitsOf ++ rest) = readLeaf fuel (sofar ++ more) rest := by
  induction more generalizing sofar with
  | nil => simp
  | cons b more ih =>
    rw [List.append_cons] at h ⊢
    rw [List.flatMap_cons, List.append_assoc, List.length_cons, ← Nat.add_assoc, readLeaf_byte,
      (noValidPrefix_concat.1 h.of_append).2, if_neg Bool.false_ne_true, ih h]

theorem readLeaf_of_valid {bytes : List Byte} (h : utf8ValidSingle bytes = true) (rest : Bits) :
    readLeaf 4 [] (bytes.flatMap bitsOf ++ rest) = .valid bytes := by
  rcases List.eq_nil_or_concat' bytes with rfl | ⟨front, last, rfl⟩
  · cases h
  · have hlen : front.length + 1 ≤ 4 := by simpa using length_le_of_valid h
    obtain ⟨fuel, hfuel⟩ := Nat.exists_eq_add_of_le' hlen
    have hskip := readLeaf_skip (fuel + 1) (bitsOf last ++ rest) (sofar := []) (noValidPrefix_of_concat_valid h)
    rw [show fuel + 1 + front.length = 4 by omega] at hskip
    simpa [readLeaf_byte, h] using hskip

theorem readLeaf_of_noValidPrefix {bytes : List Byte} (h : NoValidPrefix bytes) (hlen : bytes.length = 4) (rest : Bits) :
    readLeaf 4 [] (bytes.flatMap bitsOf ++ rest) = .invalid bytes := by
  have := readLeaf_skip 0 rest (sofar := []) h
  rw [hlen] at this
  exact this

/-- What the loop has read when it stops: the bytes, of which either the last completed a valid sequence, or none did. -/
theorem readLeaf_cases (fuel : Nat) (bits : Bits) {sofar : List Byte} (h : NoValidPrefix sofar) :
    readLeaf fuel sofar bits = .endOfStream
    ∨ ∃ (more : List Byte) (rest : Bits), bits = more.flatMap bitsOf ++ rest ∧
        (readLeaf fuel sofar bits = .valid (sofar ++ more) ∧ utf8ValidSingle (sofar ++ more) = true
        ∨ readLeaf fuel sofar bits = .invalid (sofar ++ more) ∧ NoValidPrefix (sofar ++ more) ∧ more.length = fuel) := by
  induction fuel generalizing sofar bits with
  | zero => exact .inr ⟨[], bits, rfl, .inr ⟨by rw [List.append_nil]; rfl, by rwa [List.append_nil], rfl⟩⟩
  | succ fuel ih =>
    rcases takeByte_cases bits with ⟨-, hnone⟩ | ⟨b, rest, rfl, -⟩
    · exact .inl (by rw [readLeaf, hnone])
    rw [readLeaf_byte]
    cases hvalid : utf8ValidSingle (sofar ++ [b]) with
    | true => exact .inr ⟨[b], rest, by simp, .inl ⟨rfl, hvalid⟩⟩
    | false =>
      rcases ih rest (noValidPrefix_concat.2 ⟨h, hvalid⟩) with hend | ⟨more, rest', rfl, hread⟩
      · exact .inl hend
      · refine .inr ⟨b :: more, rest', by simp, ?_⟩
        rw [List.append_cons]
        simpa using hread

/-! ### Payloads of four bytes -/

theorem payloadWord_toNat (b1 b2 b3 b4 : Byte) : (payloadWord [b1, b2, b3, b4]).toNat =
    b1.toNat * 2 ^ 24 + b2.toNat * 2 ^ 16 + b3.toNat * 2 ^ 8 + b4.toNat := by
  simp only [payloadWord, List.foldl_cons, List.foldl_nil, BitVec.toNat_ofNat]
  omega

theorem payloadBytes_payloadWord (b1 b2 b3 b4 : Byte) : payloadBytes (payloadWord [b1, b2, b3, b4]) = [b1, b2, b3, b4] := by
  have hfield : ∀ (start : Nat) (b : Byte), (payloadWord [b1, b2, b3, b4]).toNat / 2 ^ start % 2 ^ 8 = b.toNat →
      (payloadWord [b1, b2, b3, b4]).extractLsb' start 8 = b := fun _ _ => extractLsb'_eq_of_div
  rw [payloadWord_toNat] at hfield
  rw [payloadBytes, hfield 24 b1 (by omega), hfield 16 b2 (by omega), hfield 8 b3 (by omega), hfield 0 b4 (by omega)]

theorem payloadWord_payloadBytes (w : BitVec 32) : payloadWord (payloadBytes w) = w :=
  BitVec.eq_of_toNat_eq (by
    simp only [payloadBytes, payloadWord_toNat, toNat_extractLsb'_eq_div]
    omega)

/-! ### The encoder -/

theorem encode_length (i : Instr) : (encode i).length = i.bitLength := by
  cases i with
  | encode => exact Laws.EncodedLength.encode
  | decode => exact Laws.EncodedLength.decode
  | illegal w => exact Laws.EncodedLength.illegal w
  | header c => exact Laws.EncodedLength.header c
  | treeInternal => exact Laws.EncodedLength.treeInternal
  | treeLeaf1 x => exact Laws.EncodedLength.treeLeaf1 x
  | treeLeaf2 y x => exact Laws.EncodedLength.treeLeaf2 y x
  | treeLeaf3 z y x => exact Laws.EncodedLength.treeLeaf3 z y x
  | treeLeaf4 u z y x => exact Laws.EncodedLength.treeLeaf4 u z y x
  | treeLeafInvalid b => exact Laws.EncodedLength.treeLeafInvalid b
  | textLeft => exact Laws.EncodedLength.textLeft
  | textRight => exact Laws.EncodedLength.textRight

/-! ### Tree tokens -/

theorem decodeTree_of_valid {bytes : List Byte} {bits : Bits} (h : readLeaf 4 [] bits = .valid bytes) :
    decodeTree (true :: bits) = .ok (leafInstr bytes, 1 + 8 * bytes.length) := by
  rw [decodeTree, h]

theorem decodeTree_of_invalid {bytes : List Byte} {bits : Bits} (h : readLeaf 4 [] bits = .invalid bytes) :
    decodeTree (true :: bits) = .ok (.treeLeafInvalid (payloadWord bytes), 1 + 8 * bytes.length) := by
  rw [decodeTree, h]

theorem decodeTree_of_endOfStream {bits : Bits} (h : readLeaf 4 [] bits = .endOfStream) :
    decodeTree (true :: bits) = .error .endOfStream := by
  rw [decodeTree, h]

theorem decodeTree_of_leafCarries {i : Instr} {c : Scalar} (h : LeafCarries i c) (rest : Bits) :
    decodeTree (encode i ++ rest) = .ok (i, i.bitLength) := by
  rw [encode_of_leafCarries h, leafBits, List.cons_append,
    decodeTree_of_valid (readLeaf_of_valid (utf8ValidSingle_leafBytes h) rest), leafInstr_leafBytes h,
    bitLength_of_leafCarries h]

theorem decodeTree_of_treeLeafInvalid {b : BitVec 32} (h : noPrefixValid (payloadBytes b) = true) (rest : Bits) :
    decodeTree (encode (.treeLeafInvalid b) ++ rest) = .ok (.treeLeafInvalid b, 33) := by
  rw [encode, leafBytes, leafBits, List.cons_append,
    decodeTree_of_invalid (readLeaf_of_noValidPrefix ((noPrefixValid_iff rfl).1 h) rfl rest), payloadWord_payloadBytes]
  rfl

/-- An accepted tree token is well-formed, of its row's length, and its encoding begins the bits it was read from. -/
theorem decodeTree_sound {bits : Bits} {i : Instr} {n : Nat} (h : decodeTree bits = .ok (i, n)) :
    i.wellFormed = true ∧ n = i.bitLength ∧ encode i <+: bits := by
  match bits, h with
  | false :: bits, h =>
    cases h
    exact ⟨rfl, rfl, bits, rfl⟩
  | true :: bits, h =>
    rcases readLeaf_cases 4 bits noValidPrefix_nil with hend | ⟨bytes, rest, rfl, ⟨hread, hvalid⟩ | ⟨hread, hnone, hlen⟩⟩
    · rw [decodeTree_of_endOfStream hend] at h
      cases h
    · rw [decodeTree_of_valid hread] at h
      cases h
      obtain ⟨hbytes, c, hc⟩ := leafInstr_of_valid hvalid
      refine ⟨(leafCarries_iff.1 hc).1, by rw [bitLength_of_leafCarries hc, hbytes], rest, ?_⟩
      rw [encode_of_leafCarries hc, hbytes]
      rfl
    · rw [decodeTree_of_invalid hread] at h
      cases h
      match bytes, hlen with
      | [b1, b2, b3, b4], hlen =>
        have hbytes : payloadBytes (payloadWord ([] ++ [b1, b2, b3, b4])) = [b1, b2, b3, b4] :=
          payloadBytes_payloadWord b1 b2 b3 b4
        refine ⟨(noPrefixValid_iff rfl).2 ?_, rfl, rest, congrArg (leafBits · ++ rest) hbytes⟩
        rw [hbytes]
        exact hnone

/-! ### Words and text bits -/

theorem bitsOf_bitsValue {bits : Bits} {k : Nat} (h : bits.length = k) :
    bitsOf (BitVec.ofNat k (bitsValue bits)) = bits := by
  subst h
  rw [bitsOf, BitVec.toNat_ofNat, Nat.mod_eq_of_lt (bitsValue_lt bits), natBits_bitsValue]

theorem takeWord_sound {bits : Bits} {w : Word} (h : takeWord bits = .ok w) : bitsOf w <+: bits := by
  unfold takeWord at h
  split at h
  case isTrue hlen =>
    cases h
    rw [bitsOf_bitsValue (by simpa using hlen)]
    exact List.take_prefix 32 bits
  case isFalse => cases h

theorem decode_command_bitsOf (w : Word) (rest : Bits) : decode .command (bitsOf w ++ rest) = .ok (decodeCommand w, 32) := by
  rw [decode, takeWord_bitsOf]

theorem decode_artifactHeader_bitsOf (w : Word) (rest : Bits) :
    decode .artifactHeader (bitsOf w ++ rest) = .ok (.header w, 32) := by
  rw [decode, takeWord_bitsOf]

theorem decodeCommand_of_wellFormed_illegal {w : Word} (h : (Instr.illegal w).wellFormed = true) :
    decodeCommand w = .illegal w := by
  obtain ⟨h1, h2⟩ : w ≠ 1#32 ∧ w ≠ 2#32 := by simpa [Instr.wellFormed] using h
  rw [decodeCommand, if_neg h1, if_neg h2]

/-- The command a word stands for is well-formed and encodes to the word. -/
theorem decodeCommand_sound (w : Word) :
    (decodeCommand w).wellFormed = true ∧ (decodeCommand w).bitLength = 32 ∧ encode (decodeCommand w) = bitsOf w := by
  unfold decodeCommand
  split
  · subst w
    exact ⟨rfl, rfl, rfl⟩
  · split
    · subst w
      exact ⟨rfl, rfl, rfl⟩
    · refine ⟨?_, rfl, rfl⟩
      simp [Instr.wellFormed, *]

/-- An accepted text bit is of its row's length, and its encoding begins the bits it was read from. -/
theorem decodeText_sound {bits : Bits} {i : Instr} {n : Nat} (h : decodeText bits = .ok (i, n)) :
    i.wellFormed = true ∧ n = i.bitLength ∧ encode i <+: bits := by
  match bits, h with
  | false :: bits, h | true :: bits, h =>
    cases h
    exact ⟨rfl, rfl, bits, rfl⟩

/-! ### The two directions -/

/-- Settles O2, row by row: a word is read back whole, and a leaf token by the loop of R186, which stops exactly at the end
of its bytes. -/
theorem encodeThenDecode : Obligations.EncodeThenDecode := by
  unfold Obligations.EncodeThenDecode
  intro i rest hwf
  cases i with
  | encode | decode => exact decode_command_bitsOf _ rest
  | illegal w =>
    have hread := decode_command_bitsOf w rest
    rwa [decodeCommand_of_wellFormed_illegal hwf] at hread
  | header c => exact decode_artifactHeader_bitsOf c rest
  | treeLeaf1 | treeLeaf2 | treeLeaf3 | treeLeaf4 => exact decodeTree_of_leafCarries (leafCarries_iff.2 ⟨hwf, rfl⟩) rest
  | treeLeafInvalid b => exact decodeTree_of_treeLeafInvalid hwf rest
  | treeInternal | textLeft | textRight => rfl

/-- What `decode` accepts is well-formed, of its row's length, and its encoding begins the bits it was read from. -/
theorem decode_sound {f : Format} {bits : Bits} {i : Instr} {n : Nat} (h : decode f bits = .ok (i, n)) :
    i.wellFormed = true ∧ n = i.bitLength ∧ encode i <+: bits := by
  cases f with
  | command =>
    rw [decode] at h
    split at h
    case h_1 w hw =>
      cases h
      obtain ⟨hwf, hlen, henc⟩ := decodeCommand_sound w
      exact ⟨hwf, hlen.symm, henc ▸ takeWord_sound hw⟩
    case h_2 => cases h
  | artifactHeader =>
    rw [decode] at h
    split at h
    case h_1 w hw =>
      cases h
      exact ⟨rfl, rfl, takeWord_sound hw⟩
    case h_2 => cases h
  | treeToken => exact decodeTree_sound h
  | textBit => exact decodeText_sound h

/-- Settles O3: the encoding begins the bits read, and is as long as the row says. -/
theorem decodeThenEncode : Obligations.DecodeThenEncode := by
  unfold Obligations.DecodeThenEncode
  intro f bits i n h
  obtain ⟨hwf, rfl, hprefix⟩ := decode_sound h
  refine ⟨hwf, (decode_format h).1, rfl, ?_⟩
  rw [← encode_length]
  exact List.prefix_iff_eq_take.1 hprefix

/-- Settles O1: closed facts, each evaluated. -/
theorem knownWordsDecode : Obligations.KnownWordsDecode := by
  unfold Obligations.KnownWordsDecode
  decide

end Sys2Proof.Proofs
end

section
/-! PROOF. COUNT, BUILD and CODES one step at a time (40_frequency_and_tree.md R140 to R148): an equation for each case of
the stage, and from them the rules of the steps. -/

namespace Sys2Proof.Proofs

open Sys2Proof Sys2Proof.Machine

/-! ### An ENCODE's error (60_exceptions.md R290, R291) -/

/-- Whatever the stage has made of the hidden state, an ENCODE that raises has failed with the error's STATUS word. -/
theorem raise_encodeFailed (e : CommandError) (s : State) (h : Hidden) :
    EncodeFailed (statusFailed e) s (raise .art e { s with hid := h }) where
  status := rfl
  outLen := rfl
  seq := rfl
  inLen := rfl
  sym := rfl
  art _ := rfl

/-! ### COUNT (R140) -/

section Count

variable {s : State}

theorem wordSymbol_of_scalar {w : Word} (h : isScalar w.toNat = true) : wordSymbol w = some (w.setWidth 21) := if_pos h

theorem wordSymbol_of_not_scalar {w : Word} (h : isScalar w.toNat = false) : wordSymbol w = none := by
  simp [wordSymbol, h]

theorem countSymbol_of_not_scalar (h : isScalar (readSym s s.hid.idx).toNat = false) :
    countSymbol s = raise .art .invalidInputSymbol s := by
  simp only [countSymbol, wordSymbol_of_not_scalar h]

theorem countSymbol_of_counted {m : Count} (h : isScalar (readSym s s.hid.idx).toNat = true)
    (hold : Table.get BitVec.toNat ((readSym s s.hid.idx).setWidth 21) s.hid.freq = some m) :
    countSymbol s = tally ((readSym s s.hid.idx).setWidth 21) (m + 1#32) s := by
  simp only [countSymbol, wordSymbol_of_scalar h, hold]

theorem countSymbol_of_full (h : isScalar (readSym s s.hid.idx).toNat = true)
    (hnew : Table.get BitVec.toNat ((readSym s s.hid.idx).setWidth 21) s.hid.freq = none)
    (hfull : s.hid.freq.length = s.caps.leafCap) : countSymbol s = raise .art .capacityExceeded s := by
  simp only [countSymbol, wordSymbol_of_scalar h, hnew, if_pos hfull]

theorem countSymbol_of_new (h : isScalar (readSym s s.hid.idx).toNat = true)
    (hnew : Table.get BitVec.toNat ((readSym s s.hid.idx).setWidth 21) s.hid.freq = none)
    (hroom : s.hid.freq.length ≠ s.caps.leafCap) : countSymbol s = tally ((readSym s s.hid.idx).setWidth 21) 1#32 s := by
  simp only [countSymbol, wordSymbol_of_scalar h, hnew, if_neg hroom]

theorem countStep_of_too_long (hlong : s.caps.symCap < s.hid.latLen.toNat) :
    countStep s = .next (raise .art .capacityExceeded { s with hid := { s.hid with n := s.hid.latLen.toNat } }) :=
  if_pos hlong

theorem countStep_of_turn (hfits : s.hid.latLen.toNat ≤ s.caps.symCap) (hmore : s.hid.idx < s.hid.latLen.toNat) :
    countStep s = .next (countSymbol { s with hid := { s.hid with n := s.hid.latLen.toNat } }) := by
  have hpos : s.hid.latLen.toNat ≠ 0 := Nat.ne_zero_of_lt hmore
  simp only [countStep, if_neg (Nat.not_lt_of_le hfits), if_neg hpos, if_pos hmore]

theorem countStep_of_end (hfits : s.hid.latLen.toNat ≤ s.caps.symCap) (hlen : s.hid.latLen ≠ 0#32)
    (hend : s.hid.latLen.toNat ≤ s.hid.idx) :
    countStep s = .next { s with
      seq := .build, hid := { s.hid with n := s.hid.latLen.toNat, k := s.hid.freq.length } } := by
  have hpos : s.hid.latLen.toNat ≠ 0 := fun h => hlen (BitVec.eq_of_toNat_eq h)
  simp only [countStep, if_neg (Nat.not_lt_of_le hfits), if_neg hpos, if_neg (Nat.not_lt_of_le hend)]

end Count

/-- Settles O32: the step is `countStep`, and each clause is one of its cases or, within a turn, one of `countSymbol`'s. -/
theorem countTurnRule : Obligations.CountTurnRule := by
  unfold Obligations.CountTurnRule
  rintro s w hin hseq rfl
  have hstep : step s = countStep s := step_coreTurn_done hin (coreTurn_count hseq)
  rw [hstep]
  refine ⟨fun hlong => ⟨_, countStep_of_too_long hlong, raise_encodeFailed .capacityExceeded s _⟩, fun hfits hmore => ?turn,
    countStep_of_end⟩
  case turn =>
    rw [countStep_of_turn hfits hmore]
    refine ⟨fun hbad => ⟨_, congrArg _ (countSymbol_of_not_scalar hbad), raise_encodeFailed .invalidInputSymbol s _⟩,
      fun hscalar => ⟨fun m hold => ?counted, fun hnew hfull => ?full, fun hnew hroom => ?new⟩⟩
    case counted => exact congrArg _ (countSymbol_of_counted hscalar hold)
    case full => exact ⟨_, congrArg _ (countSymbol_of_full hscalar hnew hfull), raise_encodeFailed .capacityExceeded s _⟩
    case new => exact congrArg _ (countSymbol_of_new hscalar hnew hroom)

/-! ### BUILD: the leaves (R142) -/

/-- The leaves numbered from `j` on are FREQ's keys with their counts, in FREQ's order, and there are no others. -/
theorem get_leavesFrom (j i : Nat) (freq : Table Scalar Count) :
    Table.get id (j + i) (leavesFrom j freq).1 = freq[i]?.map (fun e => .leaf e.1)
      ∧ Table.get id (j + i) (leavesFrom j freq).2 = freq[i]?.map Prod.snd := by
  induction freq generalizing j i with
  | nil => exact ⟨rfl, rfl⟩
  | cons e rest ih =>
    cases i with
    | zero => simp [leavesFrom, Table.get]
    | succ i =>
      have hrest := ih (j + 1) i
      rw [Nat.add_assoc, Nat.add_comm 1 i] at hrest
      simpa [leavesFrom, Table.get] using hrest

theorem nodeAt_makeLeaves (s : State) (j : Nat) :
    nodeAt (makeLeaves s) j = s.hid.freq[j]?.map fun e => .leaf e.1 := by
  simpa [nodeAt, makeLeaves] using (get_leavesFrom 0 j s.hid.freq).1

theorem weightAt_makeLeaves (s : State) (j : Nat) :
    weightAt (makeLeaves s) j = (s.hid.freq[j]?.map Prod.snd).getD 0#32 := by
  simpa [weightAt, makeLeaves] using congrArg (Option.getD · 0#32) (get_leavesFrom 0 j s.hid.freq).2

theorem buildStep_of_degenerate {s : State} (hstart : s.hid.ncount = 0) (hk : s.hid.k < 2) :
    buildStep s = .next (raise .art .degenerateAlphabet s) := by
  simp only [buildStep, if_pos hstart, if_pos hk]

theorem buildStep_of_start {s : State} (hstart : s.hid.ncount = 0) (hk : 2 ≤ s.hid.k) :
    buildStep s = .next (makeLeaves s) := by
  simp only [buildStep, if_pos hstart, if_neg (Nat.not_lt_of_le hk)]

/-- Settles O35: the leaves are read off `makeLeaves` index by index, and FREQ's canonical form is the rising order. -/
theorem buildStartRule : Obligations.BuildStartRule := by
  unfold Obligations.BuildStartRule
  intro s hin hseq hstart
  have hstep : step s = buildStep s := step_coreTurn_done hin (coreTurn_build hseq)
  rw [hstep]
  refine ⟨fun hk => ⟨_, buildStep_of_degenerate hstart hk, raise_encodeFailed .degenerateAlphabet s s.hid⟩,
    fun hk hlen hsorted => ⟨makeLeaves s, buildStep_of_start hstart hk, rfl, rfl, fun j hj => ⟨?node, ?weight⟩,
      fun j hj => ?noOther, fun i j hi hj hij => List.pairwise_iff_getElem.1 hsorted i j hi hj hij, rfl⟩⟩
  case node => simp [nodeAt_makeLeaves, hj]
  case weight => simp [weightAt_makeLeaves, hj]
  case noOther => simp [nodeAt_makeLeaves, hlen ▸ hj]

/-! ### BUILD: the merges (R143, R144) -/

section Merge

variable {s : State}

/-- What `extract_min` leaves when it takes `i` (R143). -/
def withoutEntry (i : Nat) (s : State) : State :=
  { s with hid := { s.hid with pq := s.hid.pq.filter fun j => decide (j ≠ i) } }

@[simp] theorem mem_withoutEntry_pq {i j : Nat} : j ∈ (withoutEntry i s).hid.pq ↔ j ∈ s.hid.pq ∧ j ≠ i := by
  simp [withoutEntry]

theorem withoutEntry_withoutEntry (a b : Nat) (s : State) : withoutEntry b (withoutEntry a s) =
    { s with hid := { s.hid with pq := s.hid.pq.filter fun j => decide (j ≠ a ∧ j ≠ b) } } := by
  simp [withoutEntry, List.filter_filter, Bool.and_comm]

/-- A queue that is not empty gives up the entry whose key is below all others. -/
theorem extractMin_of_mem {x : Nat} (hx : x ∈ s.hid.pq) :
    ∃ i ∈ s.hid.pq, (∀ j ∈ s.hid.pq, j ≠ i → keyBelow s i j = true) ∧ extractMin s = some (i, withoutEntry i s) :=
  (extractMin_cases s).resolve_left fun hempty => List.ne_nil_of_mem hx hempty.1

/-- A list of at least two different entries has one besides any given one. -/
theorem exists_mem_ne_of_nodup {l : List Nat} (hnodup : l.Nodup) (hlen : 2 ≤ l.length) (a : Nat) : ∃ x ∈ l, x ≠ a := by
  simpa using Finset.exists_mem_ne (s := l.toFinset) (by rwa [List.toFinset_card_of_nodup hnodup]) a

/-- With two different entries in the queue, a merge joins the one with the smallest key and the one with the next. -/
theorem mergeStep_of_two (hnodup : s.hid.pq.Nodup) (htwo : 2 ≤ s.hid.pq.length) :
    ∃ a b, a ∈ s.hid.pq ∧ b ∈ s.hid.pq ∧ a ≠ b ∧ (∀ j ∈ s.hid.pq, j ≠ a → keyBelow s a j = true)
      ∧ (∀ j ∈ s.hid.pq, j ≠ a → j ≠ b → keyBelow s b j = true)
      ∧ mergeStep s = .next (mergeNodes a b (withoutEntry b (withoutEntry a s))) := by
  obtain ⟨a, ha, hamin, hfirst⟩ := extractMin_of_mem (List.getElem_mem (Nat.zero_lt_of_lt htwo))
  obtain ⟨y, hy, hya⟩ := exists_mem_ne_of_nodup hnodup htwo a
  obtain ⟨b, hb, hbmin, hsecond⟩ := extractMin_of_mem (mem_withoutEntry_pq.2 ⟨hy, hya⟩)
  obtain ⟨hbpq, hba⟩ := mem_withoutEntry_pq.1 hb
  refine ⟨a, b, ha, hbpq, hba.symm, hamin, fun j hj hja hjb => hbmin j (mem_withoutEntry_pq.2 ⟨hj, hja⟩) hjb, ?_⟩
  simp only [mergeStep, hfirst, hsecond]

theorem buildStep_of_merge (hmade : s.hid.ncount ≠ 0) (htwo : 2 ≤ s.hid.pq.length) : buildStep s = mergeStep s := by
  simp only [buildStep, if_neg hmade, if_pos htwo]

end Merge

/-- Settles O36: the two entries are those `extract_min` gives one after the other, and their keys compare as R143 says. -/
theorem mergeRule : Obligations.MergeRule := by
  unfold Obligations.MergeRule
  intro s hin hseq hmade htwo hnodup
  obtain ⟨a, b, ha, hb, hne, hamin, hbmin, hmerge⟩ := mergeStep_of_two hnodup htwo
  have hstep : step s = mergeStep s :=
    (step_coreTurn_done hin (coreTurn_build hseq)).trans (buildStep_of_merge hmade htwo)
  refine ⟨a, b, ha, hb, hne, fun j hj hja => (keyBelow_iff s a j).1 (hamin j hj hja),
    fun j hj hja hjb => (keyBelow_iff s b j).1 (hbmin j hj hja hjb), ?_⟩
  rw [hstep, hmerge, withoutEntry_withoutEntry]
  rfl

/-! ### CODES (R148) -/

section Codes

variable {s : State} {i : Nat} {path : Bits} {rest : List (Nat × Bits)}

theorem codesStep_of_end (hwalk : s.hid.walk = []) : codesStep s = .next { s with seq := .size } := by
  simp only [codesStep, hwalk]

theorem codesStep_of_leaf {c : Scalar} (hwalk : s.hid.walk = (i, path) :: rest) (hnode : nodeAt s i = some (.leaf c)) :
    codesStep s = .next { s with
      hid := { s.hid with walk := rest, codes := Table.put BitVec.toNat c path s.hid.codes } } := by
  simp only [codesStep, hwalk, hnode]

theorem codesStep_of_internal {l r : Nat} (hwalk : s.hid.walk = (i, path) :: rest)
    (hnode : nodeAt s i = some (.internal l r)) :
    codesStep s = .next { s with
      hid := { s.hid with walk := (l, path ++ [false]) :: (r, path ++ [true]) :: rest } } := by
  simp only [codesStep, hwalk, hnode]

end Codes

/-- Settles O39: the step is `codesStep`, and each clause is one of its cases. -/
theorem codesStepRule : Obligations.CodesStepRule := by
  unfold Obligations.CodesStepRule
  intro s hin hseq
  have hstep : step s = codesStep s := step_coreTurn_done hin (coreTurn_codes hseq)
  rw [hstep]
  exact ⟨codesStep_of_end, fun i path rest hwalk =>
    ⟨fun c hnode => codesStep_of_leaf hwalk hnode, fun l r hnode => codesStep_of_internal hwalk hnode⟩⟩

end Sys2Proof.Proofs
end

section
/-! PROOF. The tree tokens (41_tree_codec.md R184 to R187): each first allocates the next node, then an equation says what
it does with the node, and one lemma says everything a tree token can make of a state. -/

namespace Sys2Proof.Proofs

open Sys2Proof Sys2Proof.Machine

/-! ### The tokens, and the allocation each begins with (R184) -/

/-- A tree token is TREE_INTERNAL, a leaf with a symbol, or TREE_LEAF_INVALID (R116). -/
theorem treeToken_cases {i : Instr} (h : i.format = .treeToken) :
    i = .treeInternal ∨ (∃ c, tokenSymbol i = some c) ∨ ∃ b, i = .treeLeafInvalid b := by
  cases i with
  | treeInternal => exact .inl rfl
  | treeLeaf1 x => exact .inr (.inl ⟨_, rfl⟩)
  | treeLeaf2 y x => exact .inr (.inl ⟨_, rfl⟩)
  | treeLeaf3 z y x => exact .inr (.inl ⟨_, rfl⟩)
  | treeLeaf4 u z y x => exact .inr (.inl ⟨_, rfl⟩)
  | treeLeafInvalid b => exact .inr (.inr ⟨b, rfl⟩)
  | _ => cases h

/-- The four leaf rows differ in their symbol's fields alone (R186). -/
theorem exec_of_tokenSymbol {i : Instr} {c : Scalar} (h : tokenSymbol i = some c) (s : State) :
    exec i s = allocNode (parseLeaf c) s := by
  cases i with
  | treeLeaf1 x =>
    cases h
    rfl
  | treeLeaf2 y x =>
    cases h
    rfl
  | treeLeaf3 z y x =>
    cases h
    rfl
  | treeLeaf4 u z y x =>
    cases h
    rfl
  | _ => cases h

section Tokens

variable {i : Instr} {c : Scalar} {s : State}

/-- Whatever the token, a full store is found first (R187). -/
theorem exec_treeToken_of_full (h : i.format = .treeToken) (hfull : s.hid.ncount = s.caps.nodeCap) :
    exec i s = .next (raise .sym .capacityExceeded s) := by
  rcases treeToken_cases h with rfl | ⟨c, hsym⟩ | ⟨b, rfl⟩
  · exact if_pos hfull
  · rw [exec_of_tokenSymbol hsym]
    exact if_pos hfull
  · exact if_pos hfull

theorem exec_treeInternal_of_room (hroom : s.hid.ncount ≠ s.caps.nodeCap) :
    exec .treeInternal s = .next { s with
      hid := { s.hid with ncount := s.hid.ncount + 1, deser := .awaitLeft s.hid.ncount :: s.hid.deser } } :=
  if_neg hroom

theorem exec_leaf_of_room (hsym : tokenSymbol i = some c) (hroom : s.hid.ncount ≠ s.caps.nodeCap) :
    exec i s = returnNode s.hid.deser s.hid.ncount
      (writeNode s.hid.ncount (.leaf c) { s with hid := { s.hid with ncount := s.hid.ncount + 1 } }) := by
  rw [exec_of_tokenSymbol hsym]
  exact if_neg hroom

theorem exec_treeLeafInvalid_of_room (b : BitVec 32) (hroom : s.hid.ncount ≠ s.caps.nodeCap) :
    exec (.treeLeafInvalid b) s =
      .next (raise .sym .invalidSymbolEncoding { s with hid := { s.hid with ncount := s.hid.ncount + 1 } }) :=
  if_neg hroom

/-! ### The ends of the tree: DegenerateAlphabet or DEC_TEXT (43_commands.md R247, 42_text_codec.md R212) -/

theorem startText_of_leaf {root : Nat} (h : nodeAt s root = some (.leaf c)) :
    startText root s = .next (raise .sym .degenerateAlphabet s) := by
  simp only [startText, h]

theorem startText_of_internal {root l r : Nat} (h : nodeAt s root = some (.internal l r)) :
    startText root s = .next { s with
      seq := .decText
      hid := { s.hid with root := some root, cur := root, remain := s.hid.count, outidx := 0 } } := by
  simp only [startText, h]

/-! ### A DECODE's error (60_exceptions.md R290, R291) -/

/-- Whatever the stage has made of the hidden state, a DECODE that raises has failed with the error's STATUS word. -/
theorem raise_decodeFailed (e : CommandError) (s : State) (h : Hidden) :
    DecodeFailed (statusFailed e) s (raise .sym e { s with hid := h }) where
  status := rfl
  outLen := rfl
  seq := rfl
  inLen := rfl
  art := rfl
  sym _ := rfl

end Tokens

/-- Settles O16: with room in the store the token is `parseInternal` at the next node number. -/
theorem treeInternalCompletes : Obligations.TreeInternalCompletes := by
  unfold Obligations.TreeInternalCompletes
  intro s hroom
  exact exec_treeInternal_of_room hroom

/-- Settles O19: with room in the store the token raises the error. -/
theorem invalidLeafRule : Obligations.InvalidLeafRule := by
  unfold Obligations.InvalidLeafRule
  intro s b hroom
  exact ⟨_, exec_treeLeafInvalid_of_room b hroom, raise_decodeFailed .invalidSymbolEncoding s _⟩

/-- Settles O17: the new LEAF goes to the frames of the stack from the top; the root is a node just written, so its kind is
known: the LEAF itself on an empty stack, else the INTERNAL node its right child completed. -/
theorem leafTokensComplete : Obligations.LeafTokensComplete := by
  unfold Obligations.LeafTokensComplete
  intro i c s hsym hroom
  rw [exec_leaf_of_room hsym hroom]
  refine ⟨fun hstack => ?_, fun p rest hstack => ?_, fun p l q rest hstack => ?_, fun p l hstack => ?_⟩
  · rw [hstack]
    exact ⟨_, startText_of_leaf (nodeAt_writeNode_same _ _ _), raise_decodeFailed .degenerateAlphabet s _⟩
  · rw [hstack]
    rfl
  · rw [hstack]
    rfl
  · rw [hstack]
    exact startText_of_internal (nodeAt_writeNode_same _ _ _)

/-! ### Everything a tree token can do -/

/-- The state after a tree token's allocation, with these entries in NODES and this stack. -/
def afterAlloc (nodes : Table Nat Node) (deser : List Frame) (s : State) : State :=
  { s with hid := { s.hid with ncount := s.hid.ncount + 1, nodes := nodes, deser := deser } }

/-- What a tree token can make of `s`: the command fails; or the next token follows; or the tree is complete and DEC_TEXT
starts at its root. -/
inductive TreeTurn (s : State) : State → Prop where
  | fails (e : CommandError) (h : Hidden) : TreeTurn s (raise .sym e { s with hid := h })
  | readsOn (nodes : Table Nat Node) (deser : List Frame) : TreeTurn s (afterAlloc nodes deser s)
  | startsText (nodes : Table Nat Node) (root : Nat) :
      TreeTurn s { afterAlloc nodes [] s with
        seq := .decText
        hid := { (afterAlloc nodes [] s).hid with root := some root, cur := root, remain := s.hid.count, outidx := 0 } }

section Turns

variable {nodes : Table Nat Node}

theorem startText_treeTurn (s : State) {root : Nat} {node : Node} (h : Table.get id root nodes = some node) :
    ∃ t, startText root (afterAlloc nodes [] s) = .next t ∧ TreeTurn s t := by
  cases node with
  | leaf c => exact ⟨_, startText_of_leaf h, .fails _ _⟩
  | internal l r => exact ⟨_, startText_of_internal h, .startsText nodes root⟩

/-- A node that is in the store can be returned: each parent it completes is written before it is returned in its turn. -/
theorem returnNode_treeTurn (s : State) (frames deser : List Frame) {i : Nat} {node : Node}
    (h : Table.get id i nodes = some node) :
    ∃ t, returnNode frames i (afterAlloc nodes deser s) = .next t ∧ TreeTurn s t := by
  induction frames generalizing i nodes node with
  | nil => exact startText_treeTurn s h
  | cons f rest ih =>
    cases f with
    | awaitLeft p => exact ⟨_, rfl, .readsOn nodes (.awaitRight p i :: rest)⟩
    | awaitRight p l => exact ih (Table.get_put_same p (.internal l i) nodes)

theorem exec_treeTurn {i : Instr} (h : i.format = .treeToken) (s : State) : ∃ t, exec i s = .next t ∧ TreeTurn s t := by
  by_cases hfull : s.hid.ncount = s.caps.nodeCap
  · exact ⟨_, exec_treeToken_of_full h hfull, .fails _ s.hid⟩
  · rcases treeToken_cases h with rfl | ⟨c, hsym⟩ | ⟨b, rfl⟩
    · exact ⟨_, exec_treeInternal_of_room hfull, .readsOn s.hid.nodes _⟩
    · rw [exec_leaf_of_room hsym hfull]
      exact returnNode_treeTurn s s.hid.deser s.hid.deser (Table.get_put_same s.hid.ncount (.leaf c) s.hid.nodes)
    · exact ⟨_, exec_treeLeafInvalid_of_room b hfull, .fails _ _⟩

end Turns

/-- Settles O18: the next state is the turn's, and on a full store it is the one CapacityExceeded leaves. -/
theorem treeTokensNeverStop : Obligations.TreeTokensNeverStop := by
  unfold Obligations.TreeTokensNeverStop
  intro i s h
  obtain ⟨t, ht, -⟩ := exec_treeTurn h s
  refine ⟨t, ht, fun hfull => ?_⟩
  cases ht.symm.trans (exec_treeToken_of_full h hfull)
  exact raise_decodeFailed .capacityExceeded s s.hid

/-- Settles O21: the frame is read off the three things a tree token can do. -/
theorem treeFrame : Obligations.TreeFrame := by
  unfold Obligations.TreeFrame
  intro i s t h ht
  obtain ⟨u, hu, hturn⟩ := exec_treeTurn h s
  cases ht.symm.trans hu
  cases hturn with
  | fails e h' => exact ⟨fun _ => rfl, rfl, ⟨rfl, rfl, rfl, rfl⟩, absurd rfl⟩
  | readsOn nodes deser =>
    exact ⟨fun _ => rfl, rfl, ⟨rfl, rfl, rfl, rfl⟩, fun _ => ⟨fun _ => rfl, rfl, rfl, rfl, rfl, rfl, rfl, rfl, rfl, rfl,
      rfl, rfl, rfl, rfl, rfl, rfl, rfl, .inr ⟨rfl, rfl, rfl, rfl, rfl⟩⟩⟩
  | startsText nodes root =>
    exact ⟨fun _ => rfl, rfl, ⟨rfl, rfl, rfl, rfl⟩, fun _ => ⟨fun _ => rfl, rfl, rfl, rfl, rfl, rfl, rfl, rfl, rfl, rfl,
      rfl, rfl, rfl, rfl, rfl, rfl, rfl, .inl rfl⟩⟩

end Sys2Proof.Proofs
end

section
/-! PROOF. SER_TREE one step at a time (41_tree_codec.md R180 to R182, 43_commands.md R245): an equation for each case of
the stage, and from them the rule of the step. -/

namespace Sys2Proof.Proofs

open Sys2Proof Sys2Proof.Machine

/-! ### Emission that fits (20_memory.md R64, R65), and the length of a leaf (R182) -/

theorem emit_of_fits {bits : Bits} {s : State} (h : s.hid.wpos + bits.length ≤ 8 * s.caps.artCap) :
    emit bits s = .next (emitBits bits s) := if_pos h

theorem leafBits_length (bytes : List Byte) : (leafBits bytes).length = 1 + 8 * bytes.length := by
  simp [leafBits, List.length_flatMap, Nat.add_comm, Nat.mul_comm]

/-! ### The cases of the step -/

section SerTree

variable {s : State} {i : Nat} {rest : List Nat}

/-- The header always fits: ART holds at least four bytes (00_scope.md R6). -/
theorem serStep_of_header (hstart : s.hid.wpos = 0) : serStep s = .next (emitBits (natBits 32 s.hid.n) s) := by
  have hcap : 4 ≤ s.caps.artCap := s.caps.artCap_ge
  have hfits : s.hid.wpos + (natBits 32 s.hid.n).length ≤ 8 * s.caps.artCap := by
    rw [natBits_length]
    omega
  rw [serStep, if_pos hstart, emit_of_fits hfits]

theorem serStep_of_end (hstarted : s.hid.wpos ≠ 0) (hser : s.hid.ser = []) :
    serStep s = .next { s with seq := .encText, hid := { s.hid with idx := 0 } } := by
  simp only [serStep, if_neg hstarted, hser]

theorem serStep_of_leaf {c : Scalar} (hstarted : s.hid.wpos ≠ 0) (hser : s.hid.ser = i :: rest)
    (hnode : nodeAt s i = some (.leaf c)) (hfits : s.hid.wpos + (leafToken c).length ≤ 8 * s.caps.artCap) :
    serStep s = .next (emitBits (leafToken c) { s with hid := { s.hid with ser := rest } }) := by
  simp only [serStep, if_neg hstarted, hser, hnode]
  exact emit_of_fits hfits

theorem serStep_of_internal {l r : Nat} (hstarted : s.hid.wpos ≠ 0) (hser : s.hid.ser = i :: rest)
    (hnode : nodeAt s i = some (.internal l r)) (hfits : s.hid.wpos + 1 ≤ 8 * s.caps.artCap) :
    serStep s = .next (emitBits [false] { s with hid := { s.hid with ser := l :: r :: rest } }) := by
  simp only [serStep, if_neg hstarted, hser, hnode]
  exact emit_of_fits hfits

end SerTree

/-- Settles O42: the step is `serStep`, and each clause is one of its cases. -/
theorem serTreeRule : Obligations.SerTreeRule := by
  unfold Obligations.SerTreeRule
  intro s hin hseq
  have hstep : step s = serStep s := step_coreTurn_done hin (coreTurn_serTree hseq)
  rw [hstep]
  exact ⟨serStep_of_header, serStep_of_end, fun i rest hstarted hser =>
    ⟨fun c hnode hfits => serStep_of_leaf hstarted hser hnode ((leafBits_length (utf8Encode c)).symm ▸ hfits),
      fun l r hnode hfits => serStep_of_internal hstarted hser hnode hfits⟩⟩

end Sys2Proof.Proofs
end

section
/-! PROOF. The text bits and DEC_TEXT (42_text_codec.md R212 to R215): what a text bit makes of a state, by the kind of the
child it selects, and from it the frame of the text bits and the rules of DEC_TEXT's steps. -/

namespace Sys2Proof.Proofs

open Sys2Proof Sys2Proof.Machine

/-! ### The two text bits as one token (R106, R213) -/

/-- The instruction a text bit is: 0 selects the left child, 1 the right. -/
def textToken : Bool → Instr
  | false => .textLeft
  | true => .textRight

theorem exists_textToken {i : Instr} (h : i.format = .textBit) : ∃ b, i = textToken b := by
  cases i with
  | textLeft => exact ⟨false, rfl⟩
  | textRight => exact ⟨true, rfl⟩
  | _ => cases h

theorem decode_textBit_cons (b : Bool) (bits : Bits) : decode .textBit (b :: bits) = .ok (textToken b, 1) := by
  cases b with
  | false => rfl
  | true => rfl

/-! ### What a text bit makes of a state -/

/-- `EmitSymbol` of the symbol `c` (R214): written at `outidx`, counted down, the pointer at the root. -/
def afterEmit (root : Nat) (c : Scalar) (s : State) : State :=
  { s with
    sym := s.sym.write s.hid.outidx (symbolWord c)
    hid := { s.hid with outidx := s.hid.outidx + 1, remain := s.hid.remain - 1#32, cur := root } }

section TextBits

variable {s : State} {i l r : Nat}

theorem exec_textToken_of_internal (b : Bool) (hcur : nodeAt s s.hid.cur = some (.internal l r)) :
    exec (textToken b) s = moveTo (if b then r else l) s := by
  cases b with
  | false => simp [textToken, exec, execTextLeft, hcur]
  | true => simp [textToken, exec, execTextRight, hcur]

/-- Where the walk stands at no INTERNAL node, a text bit has no child to select. -/
theorem exec_textToken_cases (b : Bool) (s : State) :
    (∃ l r, nodeAt s s.hid.cur = some (.internal l r)) ∨ exec (textToken b) s = .fault .nodeMissing := by
  match hcur : nodeAt s s.hid.cur with
  | some (.internal l r) => exact .inl ⟨l, r, rfl⟩
  | some (.leaf c) | none =>
    right
    cases b with
    | false => simp [textToken, exec, execTextLeft, hcur]
    | true => simp [textToken, exec, execTextRight, hcur]

theorem moveTo_of_internal {a b : Nat} (hnode : nodeAt s i = some (.internal a b)) :
    moveTo i s = .next { s with hid := { s.hid with cur := i } } := by
  simp only [moveTo, hnode]

theorem emitSymbol_of_room {root : Nat} {c : Scalar} (hroot : s.hid.root = some root)
    (hroom : s.hid.outidx < s.caps.symCap) : emitSymbol c s = .next (afterEmit root c s) := by
  simp only [emitSymbol, if_neg (Nat.not_le_of_lt hroom), hroot]
  rfl

theorem moveTo_of_leaf {root : Nat} {c : Scalar} (hnode : nodeAt s i = some (.leaf c)) (hroot : s.hid.root = some root)
    (hroom : s.hid.outidx < s.caps.symCap) : moveTo i s = .next (afterEmit root c s) := by
  simp only [moveTo, hnode]
  exact emitSymbol_of_room hroot hroom

/-- What a text bit can make of `s`: the pointer moves, or the symbol of a LEAF is emitted. -/
inductive TextTurn (s : State) : State → Prop where
  | moves (i : Nat) : TextTurn s { s with hid := { s.hid with cur := i } }
  | emits (i root : Nat) (c : Scalar) (leaf : nodeAt s i = some (.leaf c)) : TextTurn s (afterEmit root c s)

theorem moveTo_textTurn (i : Nat) (s : State) : NextSatisfies (TextTurn s) (moveTo i s) := by
  unfold moveTo
  split
  · next c hleaf =>
    unfold emitSymbol
    split
    · trivial
    · split
      · trivial
      · next root _ => exact .emits i root c hleaf
  · exact .moves i
  · trivial

theorem exec_textTurn (b : Bool) (s : State) : NextSatisfies (TextTurn s) (exec (textToken b) s) := by
  rcases exec_textToken_cases b s with ⟨l, r, hcur⟩ | hfault
  · rw [exec_textToken_of_internal b hcur]
    exact moveTo_textTurn _ s
  · rw [hfault]
    trivial

end TextBits

/-- Settles O22: the child a text bit selects is where `moveTo` goes. -/
theorem textMoveCompletes : Obligations.TextMoveCompletes := by
  unfold Obligations.TextMoveCompletes
  intro s l r hcur
  exact ⟨fun a b hl => (exec_textToken_of_internal false hcur).trans (moveTo_of_internal hl),
    fun a b hr => (exec_textToken_of_internal true hcur).trans (moveTo_of_internal hr)⟩

/-- Settles O23: the child a text bit selects is where `moveTo` goes, and `moveTo` emits a LEAF's symbol. -/
theorem textLeafCompletes : Obligations.TextLeafCompletes := by
  unfold Obligations.TextLeafCompletes
  intro s l r root c hcur hroot hroom
  exact ⟨fun hl => (exec_textToken_of_internal false hcur).trans (moveTo_of_leaf hl hroot hroom),
    fun hr => (exec_textToken_of_internal true hcur).trans (moveTo_of_leaf hr hroot hroom)⟩

/-- Settles O24: the frame is read off the two things a text bit can do. -/
theorem textFrame : Obligations.TextFrame := by
  unfold Obligations.TextFrame
  intro i s t hformat hexec
  obtain ⟨b, rfl⟩ := exists_textToken hformat
  have hturn : TextTurn s t := by simpa [hexec] using exec_textTurn b s
  cases hturn with
  | moves j => exact ⟨fun _ => rfl, fun _ _ => rfl, fun _ => ⟨rfl, rfl⟩, absurd rfl, rfl⟩
  | emits j root c hleaf =>
    exact ⟨fun _ => rfl, fun k hk => readSym_writeSym_other hk (symbolWord c) s,
      fun hsame => absurd hsame (Nat.succ_ne_self _),
      fun _ => ⟨j, c, hleaf, readSym_writeSym_same s.hid.outidx (symbolWord c) s⟩, rfl⟩

/-! ### The steps of DEC_TEXT -/

section TextSteps

variable {s : State}

theorem readAhead_one_of_left (h : s.hid.rpos < 8 * s.hid.latLen.toNat) : readAhead 1 s = [streamBit s s.hid.rpos] := by
  have hone : min 1 (8 * s.hid.latLen.toNat - s.hid.rpos) = 1 := by omega
  simp [readAhead_eq, hone]

theorem readAhead_of_end (k : Nat) (h : 8 * s.hid.latLen.toNat ≤ s.hid.rpos) : readAhead k s = [] := by
  simp [readAhead_eq, Nat.sub_eq_zero_of_le h]

/-- With a symbol to go and a bit left, a step of DEC_TEXT runs the bit at `rpos` as a text bit, read past it. -/
theorem step_decText_of_bit (hin : s.inputs = []) (hseq : s.seq = .decText) (hremain : s.hid.remain ≠ 0#32)
    (hfits : s.hid.latLen.toNat ≤ s.caps.artCap) (hleft : s.hid.rpos < 8 * s.hid.latLen.toNat) :
    step s = exec (textToken (streamBit s s.hid.rpos)) (s.advance 1) := by
  have hdec : decode .textBit (readAhead 1 s) = .ok (textToken (streamBit s s.hid.rpos), 1) := by
    rw [readAhead_one_of_left hleft, decode_textBit_cons]
  exact step_run ((nextEvent_none hin).trans (coreTurn_decText_of_decode hfits hseq hremain hdec))

theorem fetchToken_textBit_of_end (hfits : s.hid.latLen.toNat ≤ s.caps.artCap)
    (hend : 8 * s.hid.latLen.toNat ≤ s.hid.rpos) :
    fetchToken .textBit s = .done (.next (raise .sym .truncatedInput s)) := by
  simp [fetchToken, Nat.not_lt_of_le hfits, readAhead_of_end _ hend, decode, decodeText, streamEnd]

theorem step_decText_of_end (hin : s.inputs = []) (hseq : s.seq = .decText) (hremain : s.hid.remain ≠ 0#32)
    (hfits : s.hid.latLen.toNat ≤ s.caps.artCap) (hend : 8 * s.hid.latLen.toNat ≤ s.hid.rpos) :
    step s = .next (raise .sym .truncatedInput s) :=
  step_coreTurn_done hin (by rw [coreTurn_decText hseq, textFetch_of_remain hremain, fetchToken_textBit_of_end hfits hend])

theorem step_decText_of_done (hin : s.inputs = []) (hseq : s.seq = .decText) (hremain : s.hid.remain = 0#32) :
    step s = .next (textDone s) :=
  step_coreTurn_done hin ((coreTurn_decText hseq).trans (if_pos hremain))

/-- A command that succeeds has ended as 43_commands.md R251 says. -/
theorem succeed_succeeded (len : Word) (s : State) : Succeeded len s (succeed len s) where
  status := rfl
  outLen := rfl
  seq := rfl
  inLen := rfl

end TextSteps

/-- Settles O25: the step is the stream's end or the text bit at `rpos`, whose two cases are `moveTo`'s. -/
theorem textStepRule : Obligations.TextStepRule := by
  unfold Obligations.TextStepRule
  intro s l r root hin hseq hremain hfits hcur hroot hroom
  refine ⟨fun hend => ⟨_, step_decText_of_end hin hseq hremain hfits hend, raise_decodeFailed .truncatedInput s s.hid⟩,
    fun hleft child hchild => ?bit⟩
  case bit =>
    have hstep : step s = moveTo child (s.advance 1) := by
      rw [step_decText_of_bit hin hseq hremain hfits hleft, hchild]
      exact exec_textToken_of_internal _ hcur
    rw [hstep]
    exact ⟨fun a b hnode => moveTo_of_internal hnode, fun c hnode => moveTo_of_leaf hnode hroot hroom⟩

/-- Settles O26: the step is `textDone`. -/
theorem textDoneRule : Obligations.TextDoneRule := by
  unfold Obligations.TextDoneRule
  intro s hin hseq hremain
  exact ⟨_, step_decText_of_done hin hseq hremain, succeed_succeeded s.hid.count s, rfl, rfl⟩

end Sys2Proof.Proofs
end

section
/-! PROOF. A sound DECODE never stops the machine: at each of its stages the token the core fetches has a next state
(42_text_codec.md R213, R216, 41_tree_codec.md R184, 43_commands.md R248). -/

namespace Sys2Proof.Proofs

open Sys2Proof Sys2Proof.Machine

/-! ### The tokens of each stage -/

theorem exec_header_next {i : Instr} (h : i.format = .artifactHeader) (s : State) : ∃ t, exec i s = .next t := by
  cases i with
  | header count =>
    change ∃ t, execHeader count s = .next t
    unfold execHeader
    split
    · exact ⟨_, rfl⟩
    · split
      · exact ⟨_, rfl⟩
      · exact ⟨_, rfl⟩
  | _ => cases h

/-- A node that has been written can be moved to, where a LEAF's symbol has room and there is a root to return to. -/
theorem moveTo_next {s : State} {i root : Nat} (hnode : Present s i) (hroot : s.hid.root = some root)
    (hroom : s.hid.outidx < s.caps.symCap) : ∃ t, moveTo i s = .next t := by
  obtain ⟨node, hnode⟩ := Option.isSome_iff_exists.1 hnode
  cases node with
  | leaf c => exact ⟨_, moveTo_of_leaf hnode hroot hroom⟩
  | internal a b => exact ⟨_, moveTo_of_internal hnode⟩

/-- The walk stands at an INTERNAL node, whose children are there; with symbols to go `outidx` is below `count`. -/
theorem exec_textBit_next {i : Instr} {s : State} (h : i.format = .textBit) (hwalk : TextWalking s)
    (hcount : s.hid.count.toNat ≤ s.caps.symCap) (hremain : s.hid.remain ≠ 0#32) : ∃ t, exec i s = .next t := by
  obtain ⟨b, rfl⟩ := exists_textToken h
  obtain ⟨l, r, hcur⟩ := hwalk.cur_internal
  obtain ⟨root, -, -, hroot, -⟩ := hwalk.root_internal
  obtain ⟨hl, hr⟩ := hwalk.closed s.hid.cur l r hcur
  have hroom : s.hid.outidx < s.caps.symCap := by
    have hdown : s.hid.remain.toNat + s.hid.outidx = s.hid.count.toNat := hwalk.countdown
    have hpos : s.hid.remain.toNat ≠ 0 := fun hzero => hremain (BitVec.eq_of_toNat_eq hzero)
    omega
  have hchild : Present s (if b then r else l) := by
    cases b with
    | false => exact hl
    | true => exact hr
  rw [exec_textToken_of_internal b hcur]
  exact moveTo_next hchild hroot hroom

/-- Reading on in the stream does not touch the walk (10_state.md R34). -/
theorem textWalking_advance {s : State} (hwalk : TextWalking s) (len : Nat) : TextWalking (s.advance len) :=
  ⟨hwalk.closed, hwalk.all_present, hwalk.root_internal, hwalk.cur_internal, hwalk.countdown⟩

/-! ### The step -/

section NeverStops

variable {s : State}

/-- A fetch from a stream that fits ART answers a next state where every token of its format does. -/
theorem step_fetchToken_next {f : Format} {u : State} (hevent : nextEvent s = fetchToken f u)
    (hfits : u.hid.latLen.toNat ≤ u.caps.artCap)
    (hexec : ∀ (i : Instr) (len : Nat), i.format = f → ∃ t, exec i (u.advance len) = .next t) :
    ∃ t, step s = .next t := by
  rcases fetchToken_cases f u with ⟨hout, -⟩ | ⟨-, ⟨i, len, hdec, hfetch⟩ | hfetch⟩
  · exact absurd hfits (Nat.not_le_of_lt hout)
  · rw [step_run (hevent.trans hfetch)]
    exact hexec i len (decode_format hdec).1
  · exact ⟨_, step_done (hevent.trans hfetch)⟩

theorem step_hdr_next (hin : s.inputs = []) (hseq : s.seq = .hdr) : ∃ t, step s = .next t := by
  have hevent := (nextEvent_none hin).trans (coreTurn_hdr hseq)
  by_cases hfits : s.hid.latLen.toNat ≤ s.caps.artCap
  · exact step_fetchToken_next (hevent.trans (headerFetch_of_fits hfits)) hfits fun i len h => exec_header_next h _
  · exact ⟨_, step_done (hevent.trans (if_pos (Nat.lt_of_not_le hfits)))⟩

theorem step_deserTree_next (hin : s.inputs = []) (hseq : s.seq = .deserTree) (hok : StreamOk s) :
    ∃ t, step s = .next t := by
  refine step_fetchToken_next ((nextEvent_none hin).trans (coreTurn_deserTree hseq)) hok.input_fits fun i len h => ?_
  obtain ⟨t, ht, -⟩ := exec_treeTurn h (s.advance len)
  exact ⟨t, ht⟩

theorem step_decText_next (hin : s.inputs = []) (hseq : s.seq = .decText) (hok : StreamOk s) (hwalk : TextWalking s) :
    ∃ t, step s = .next t := by
  by_cases hremain : s.hid.remain = 0#32
  · exact ⟨_, step_decText_of_done hin hseq hremain⟩
  · have hevent : nextEvent s = fetchToken .textBit s := by
      rw [nextEvent_none hin, coreTurn_decText hseq, textFetch_of_remain hremain]
    refine step_fetchToken_next hevent hok.input_fits fun i len h => ?_
    exact exec_textBit_next h (textWalking_advance hwalk len) hok.count_le hremain

end NeverStops

/-- Settles O50, stage by stage: the header ends or goes on, a tree token always has a next state, and the walker's child
is there. -/
theorem decodeNeverStops : Obligations.DecodeNeverStops := by
  unfold Obligations.DecodeNeverStops
  intro s hok hin hstage
  simp only [decodeStages, List.mem_cons, List.not_mem_nil, or_false] at hstage
  rcases hstage with hseq | hseq | hseq
  · exact step_hdr_next hin hseq
  · exact step_deserTree_next hin hseq (hok.stream (.inl hseq))
  · exact step_decText_next hin hseq (hok.stream (.inr hseq)) (hok.text hseq)

end Sys2Proof.Proofs
end

section
/-! PROOF. ENC_TEXT one step at a time (42_text_codec.md R210): an equation for each case of the stage, and from them the
rule of the step. -/

namespace Sys2Proof.Proofs

open Sys2Proof Sys2Proof.Machine

/-- The SYM word of a scalar value holds it (30_encoding.md R114). -/
theorem wordSymbol_symbolWord {c : Scalar} (h : isScalar c.toNat = true) : wordSymbol (symbolWord c) = some c := by
  have hback : (c.setWidth 32).setWidth 21 = c := by simp
  have hscalar : isScalar (symbolWord c).toNat = true := by
    rwa [symbolWord, BitVec.toNat_setWidth_of_le (by decide)]
  rw [wordSymbol_of_scalar hscalar, symbolWord, hback]

section EncText

variable {s : State} {c : Scalar}

theorem encTextStep_of_end (hend : s.hid.n ≤ s.hid.idx) : encTextStep s = .next { s with seq := .pad } := if_pos hend

theorem encTextStep_of_code {code : Bits} (hmore : s.hid.idx < s.hid.n) (hroom : s.hid.idx < s.caps.symCap)
    (hsym : wordSymbol (readSym s s.hid.idx) = some c) (hcode : codeOf s c = some code)
    (hfits : s.hid.wpos + code.length ≤ 8 * s.caps.artCap) :
    encTextStep s = .next (emitBits code { s with hid := { s.hid with idx := s.hid.idx + 1 } }) := by
  simp only [encTextStep, if_neg (Nat.not_le_of_lt hmore), if_neg (Nat.not_le_of_lt hroom), hsym, Option.bind_some, hcode]
  exact emit_of_fits hfits

theorem encTextStep_of_no_code (hmore : s.hid.idx < s.hid.n) (hroom : s.hid.idx < s.caps.symCap)
    (hsym : wordSymbol (readSym s s.hid.idx) = some c) (hcode : codeOf s c = none) :
    encTextStep s = .fault .codeMissing := by
  simp only [encTextStep, if_neg (Nat.not_le_of_lt hmore), if_neg (Nat.not_le_of_lt hroom), hsym, Option.bind_some, hcode]

end EncText

/-- Settles O44: the step is `encTextStep`, and each clause is one of its cases. -/
theorem encTextRule : Obligations.EncTextRule := by
  unfold Obligations.EncTextRule
  intro s hin hseq
  have hstep : step s = encTextStep s := step_coreTurn_done hin (coreTurn_encText hseq)
  rw [hstep]
  refine ⟨encTextStep_of_end, fun c hmore hroom hscalar hword => ?symbol⟩
  case symbol =>
    have hsym : wordSymbol (readSym s s.hid.idx) = some c := by rw [hword, wordSymbol_symbolWord hscalar]
    exact ⟨fun code hcode hfits => encTextStep_of_code hmore hroom hsym hcode hfits,
      encTextStep_of_no_code hmore hroom hsym⟩

end Sys2Proof.Proofs
end

section
/-! PROOF. The command words (43_commands.md R240, R241, R252): what each of them can do, the step of a host's CMD write,
and their frame. -/

namespace Sys2Proof.Proofs

open Sys2Proof Sys2Proof.Machine

/-! ### Busy and idle (R240) -/

section CommandWords

variable {s : State} {i : Instr}

theorem whileIdle_of_busy (act : State → State) (hbusy : s.busy = true) : whileIdle act s = .next s := if_pos hbusy

theorem whileIdle_of_idle (act : State → State) (hidle : s.busy = false) : whileIdle act s = .next (act s) :=
  if_neg (Bool.eq_false_iff.1 hidle)

/-- While BUSY a command word is ignored, whichever it is (R240, R326). -/
theorem exec_command_of_busy (h : i.format = .command) (hbusy : s.busy = true) : exec i s = .next s := by
  cases i with
  | encode => exact whileIdle_of_busy _ hbusy
  | decode => exact whileIdle_of_busy _ hbusy
  | illegal w => exact whileIdle_of_busy _ hbusy
  | _ => cases h

theorem exec_illegal_of_idle (w : Word) (hidle : s.busy = false) : exec (.illegal w) s = .next (illegalCommand s) :=
  whileIdle_of_idle _ hidle

/-- While idle ENCODE and DECODE are accepted, and any other command word is illegal (R241, R252). -/
theorem exec_command_of_idle (h : i.format = .command) (hidle : s.busy = false) :
    ((i = .encode ∨ i = .decode) ∧ ∃ v stage, exec i s = .next (accept v stage s)) ∨
      exec i s = .next (illegalCommand s) := by
  cases i with
  | encode => exact .inl ⟨.inl rfl, _, _, whileIdle_of_idle _ hidle⟩
  | decode => exact .inl ⟨.inr rfl, _, _, whileIdle_of_idle _ hidle⟩
  | illegal w => exact .inr (exec_illegal_of_idle w hidle)
  | _ => cases h

end CommandWords

/-! ### The host's write of CMD (R240) -/

theorem decodeCommand_of_other {v : Word} (hencode : v ≠ 0x00000001#32) (hdecode : v ≠ 0x00000002#32) :
    decodeCommand v = .illegal v := by
  rw [decodeCommand, if_neg hencode, if_neg hdecode]

theorem step_cmdWrite {s : State} {v : Word} {rest : List Input} (hin : s.inputs = .host (.regWrite 0x00 4 v) :: rest) :
    step s = exec (decodeCommand v) { s with inputs := rest } :=
  step_run (nextEvent_host hin)

/-- Settles O7: the step runs what the word decodes to, which is a command word. -/
theorem stepRunsCommandWord : Obligations.StepRunsCommandWord := by
  unfold Obligations.StepRunsCommandWord
  intro s v rest hin
  rw [step_cmdWrite hin]
  refine ⟨rfl, exec_command_of_busy (s := { s with inputs := rest }) (decodeCommand_format v),
    fun _ => ⟨?encode, ?decode, ?illegal⟩⟩
  case encode =>
    rintro rfl
    rfl
  case decode =>
    rintro rfl
    rfl
  case illegal =>
    intro hencode hdecode
    rw [decodeCommand_of_other hencode hdecode]

/-- Settles O10: an illegal word runs `illegalCommand`. -/
theorem illegalCommandRule : Obligations.IllegalCommandRule := by
  unfold Obligations.IllegalCommandRule
  intro s opword hidle
  exact exec_illegal_of_idle opword hidle

/-- Settles O12: the next state is `s` itself, `accept`'s or `illegalCommand`'s. -/
theorem commandFrame : Obligations.CommandFrame := by
  unfold Obligations.CommandFrame
  intro i s t hformat hexec
  cases hbusy : s.busy with
  | true =>
    rw [exec_command_of_busy hformat hbusy] at hexec
    cases hexec
    simp
  | false =>
    rcases exec_command_of_idle hformat hbusy with ⟨hi, v, stage, haccept⟩ | hillegal
    · rw [haccept] at hexec
      cases hexec
      have hnot : ¬ (false = true ∨ i ≠ .encode ∧ i ≠ .decode) := by
        rintro (hfalse | ⟨hencode, hdecode⟩)
        · cases hfalse
        · exact hi.elim hencode hdecode
      exact ⟨fun _ => rfl, fun _ => rfl, rfl, rfl, rfl, rfl, fun h => absurd h hnot, rfl, rfl, rfl, rfl, rfl, rfl, rfl,
        rfl, rfl, rfl⟩
    · rw [hillegal] at hexec
      cases hexec
      exact ⟨fun _ => rfl, fun _ => rfl, rfl, rfl, rfl, rfl, fun _ => rfl, rfl, rfl, rfl, rfl, rfl, rfl, rfl, rfl, rfl,
        rfl⟩

end Sys2Proof.Proofs
end

section
/-! PROOF. HEADER (43_commands.md R248, R249): an equation for each of its three cases, and from them its effect and its
frame. -/

namespace Sys2Proof.Proofs

open Sys2Proof Sys2Proof.Machine

section Header

variable {s : State} {c : Word}

theorem exec_header_zero (s : State) : exec (.header 0#32) s = .next (succeed 0x00000000#32 s) := rfl

theorem exec_header_of_large (hlarge : s.caps.symCap < c.toNat) :
    exec (.header c) s = .next (raise .sym .capacityExceeded s) := by
  have hpos : c ≠ 0#32 := by
    rintro rfl
    exact Nat.not_lt_zero _ hlarge
  exact (if_neg hpos).trans (if_pos hlarge)

theorem exec_header_of_fits (hpos : c ≠ 0#32) (hfits : c.toNat ≤ s.caps.symCap) :
    exec (.header c) s = .next { s with seq := .deserTree, hid := { s.hid with count := c } } :=
  (if_neg hpos).trans (if_neg (Nat.not_lt_of_le hfits))

end Header

/-- Settles O13: the three cases of HEADER. -/
theorem headerCompletes : Obligations.HeaderCompletes := by
  unfold Obligations.HeaderCompletes
  intro s c
  refine ⟨?empty, fun hlarge => ⟨_, exec_header_of_large hlarge, raise_decodeFailed .capacityExceeded s s.hid⟩,
    exec_header_of_fits⟩
  case empty =>
    rintro rfl
    exact ⟨_, exec_header_zero s, succeed_succeeded _ s, rfl, rfl⟩

/-- Settles O14: only the failure discards SYM, and only the third case goes on. -/
theorem headerFrame : Obligations.HeaderFrame := by
  unfold Obligations.HeaderFrame
  intro s t c hexec
  by_cases hzero : c = 0#32
  · rw [hzero, exec_header_zero] at hexec
    cases hexec
    exact ⟨fun _ => rfl, rfl, ⟨rfl, rfl, rfl, rfl⟩, fun _ _ => rfl, fun hpos => absurd hzero hpos⟩
  by_cases hfits : c.toNat ≤ s.caps.symCap
  · rw [exec_header_of_fits hzero hfits] at hexec
    cases hexec
    exact ⟨fun _ => rfl, rfl, ⟨rfl, rfl, rfl, rfl⟩, fun _ _ => rfl, fun _ _ => ⟨rfl, rfl, rfl⟩⟩
  · rw [exec_header_of_large (Nat.lt_of_not_le hfits)] at hexec
    cases hexec
    exact ⟨fun _ => rfl, rfl, ⟨rfl, rfl, rfl, rfl⟩, fun hle => absurd hle hfits, fun _ hle => absurd hle hfits⟩

end Sys2Proof.Proofs
end

section
/-! PROOF. The stages of 43_commands.md in an ENCODE: the empty input (R243), SIZE (R244) and PAD (R245, R251). -/

namespace Sys2Proof.Proofs

open Sys2Proof Sys2Proof.Machine

/-! ### The empty input (R243) -/

theorem readArt_writeArt (a c : Nat) (b : Byte) (s : State) :
    readArt (writeArt a b s) c = if c = a then b else readArt s c := by
  split
  case isTrue h => rw [h, readArt_writeArt_same]
  case isFalse h => exact readArt_writeArt_other h b s

theorem readArt_encodeEmpty (s : State) (a : Nat) :
    readArt (encodeEmpty s) a = if a < 4 then 0x00#8 else readArt s a := by
  change readArt (writeArt 3 0x00#8 (writeArt 2 0x00#8 (writeArt 1 0x00#8 (writeArt 0 0x00#8 s)))) a = _
  simp only [readArt_writeArt]
  by_cases ha : a < 4
  · have hbyte : a = 0 ∨ a = 1 ∨ a = 2 ∨ a = 3 := by omega
    rw [if_pos ha]
    rcases hbyte with rfl | rfl | rfl | rfl <;> rfl
  · have hpast : a ≠ 3 ∧ a ≠ 2 ∧ a ≠ 1 ∧ a ≠ 0 := by omega
    obtain ⟨h3, h2, h1, h0⟩ := hpast
    rw [if_neg ha, if_neg h3, if_neg h2, if_neg h1, if_neg h0]

theorem countStep_of_empty {s : State} (hlen : s.hid.latLen = 0#32) :
    countStep s = .next (encodeEmpty { s with hid := { s.hid with n := s.hid.latLen.toNat } }) := by
  have hzero : s.hid.latLen.toNat = 0 := by rw [hlen]; rfl
  simp only [countStep, hzero, if_neg (Nat.not_lt_zero _), if_pos]

/-- Settles O31: COUNT runs `encodeEmpty`, which writes ART bytes 0 to 3. -/
theorem encodeEmptyRule : Obligations.EncodeEmptyRule := by
  unfold Obligations.EncodeEmptyRule
  intro s hin hseq hlen
  refine ⟨_, (step_coreTurn_done hin (coreTurn_count hseq)).trans (countStep_of_empty hlen), ⟨rfl, rfl, rfl, rfl⟩,
    fun a ha => ?header, fun a ha => ?past, rfl⟩
  case header => rw [readArt_encodeEmpty, if_pos ha]
  case past =>
    rw [readArt_encodeEmpty, if_neg (Nat.not_lt_of_le ha)]
    rfl

/-! ### SIZE (R244) -/

theorem payloadLength_eq_sum (freq : Table Scalar Count) :
    payloadLength freq = (freq.map fun e => (utf8Encode e.1).length).sum := by
  induction freq with
  | nil => rfl
  | cons e rest ih => rw [payloadLength, ih, List.map_cons, List.sum_cons]

/-- Where every key has a code, `X` is the sum R244 writes. -/
theorem textLength_of_codes {s : State} {freq : Table Scalar Count} (hcodes : ∀ e ∈ freq, (codeOf s e.1).isSome = true) :
    textLength s freq = some (freq.map fun e => e.2.toNat * ((codeOf s e.1).getD []).length).sum := by
  induction freq with
  | nil => rfl
  | cons e rest ih =>
    obtain ⟨hhead, htail⟩ := List.forall_mem_cons.1 hcodes
    obtain ⟨code, hcode⟩ := Option.isSome_iff_exists.1 hhead
    rw [textLength, hcode, ih htail, List.map_cons, List.sum_cons, hcode, Option.getD_some]

/-- With the text's length and the root known, SIZE only compares the artifact's length with ART's. -/
theorem sizeStep_of_text {s : State} {root total x : Nat} (hroot : s.hid.root = some root)
    (htext : textLength s s.hid.freq = some x)
    (htotal : total = 32 + (2 * s.hid.k - 1 + 8 * payloadLength s.hid.freq) + x) :
    sizeStep s =
      if s.caps.artCap < bytesFor total then .next (raise .art .capacityExceeded s)
      else .next { s with seq := .serTree, hid := { s.hid with totalBits := total, wpos := 0, ser := [root] } } := by
  rw [sizeStep, htext, hroot, htotal]

/-- Settles O41: the model's `payloadLength` and `textLength` are the sums of R244, so SIZE's test is the one stated. -/
theorem sizeRule : Obligations.SizeRule := by
  unfold Obligations.SizeRule
  intro s root total hin hseq hroot hcodes htotal
  rw [← payloadLength_eq_sum] at htotal
  rw [step_coreTurn_done hin (coreTurn_size hseq), sizeStep_of_text hroot (textLength_of_codes hcodes) htotal]
  exact ⟨fun hlarge => ⟨_, if_pos hlarge, raise_encodeFailed .capacityExceeded s s.hid⟩,
    fun hfits => if_neg (Nat.not_lt_of_le hfits)⟩

/-! ### PAD (R245, R251) -/

/-- Settles O45: PAD is `succeed` with the artifact's length in bytes. -/
theorem padRule : Obligations.PadRule := by
  unfold Obligations.PadRule
  intro s hin hseq
  exact ⟨_, step_coreTurn_done hin (coreTurn_pad hseq), succeed_succeeded _ s, rfl, rfl⟩

end Sys2Proof.Proofs
end

section
/-! PROOF. The exception entry (60_exceptions.md R290, R291): what `raise` leaves of the outside, and of the output
memory. -/

namespace Sys2Proof.Proofs

open Sys2Proof Sys2Proof.Machine

theorem raise_outsideKept (out : OutputMemory) (e : CommandError) (s : State) : OutsideKept s (raise out e s) where
  inputs := raise_inputs out e s
  busData := raise_busData out e s
  endShown := raise_endShown out e s
  caps := raise_caps out e s

theorem raise_art_written (e : CommandError) (s : State) (a : Nat) : (raise .art e s).art.written a = none := by
  rw [raise_art_art, Memory.unspecified_written]

theorem raise_sym_written (e : CommandError) (s : State) (j : Nat) : (raise .sym e s).sym.written j = none := by
  rw [raise_sym_sym, Memory.unspecified_written]

/-- Settles O30: the registers and the outside fare alike with either output memory; only that memory is discarded. -/
theorem raiseRule : Obligations.RaiseRule := by
  unfold Obligations.RaiseRule
  intro s e
  refine ⟨fun out => ?registers, raise_art_sym e s, raise_art_written e s, raise_sym_art e s, raise_sym_written e s⟩
  case registers =>
    exact ⟨raise_status out e s, raise_outLen out e s, raise_seq out e s, raise_inLen out e s, raise_outsideKept out e s⟩

end Sys2Proof.Proofs
end

section
/-! PROOF. Reset and the hazards between the host and a running command (70_reset_and_hazards.md R320, R321, R324,
R326): command words while BUSY, the host's accesses to the cells of SYM and ART, and the step of a reset. -/

namespace Sys2Proof.Proofs

open Sys2Proof Sys2Proof.Machine

/-! ### Command words while BUSY (R326) -/

/-- Settles O11: while BUSY each of the three command words is ignored. -/
theorem commandsIgnoredWhileBusy : Obligations.CommandsIgnoredWhileBusy := by
  unfold Obligations.CommandsIgnoredWhileBusy
  intro i s hformat hbusy
  exact exec_command_of_busy hformat hbusy

/-! ### Cells of SYM and ART (R324, 20_memory.md R64, R73) -/

section Cells

variable {s moved : State} {inside : Prop} [Decidable inside] {outside : Refusal}

theorem hostMemory_of_busy (hbusy : s.busy = true) :
    hostMemory inside outside moved s = .refused .accessWhileBusy := if_pos hbusy

theorem hostMemory_of_end_unseen (hidle : s.busy = false) (hunseen : s.endShown = false) :
    hostMemory inside outside moved s = .refused .accessBeforeEndShown := by
  simp [hostMemory, hidle, hunseen]

theorem hostMemory_of_outside (hidle : s.busy = false) (hseen : s.endShown = true) (hout : ¬ inside) :
    hostMemory inside outside moved s = .refused outside := by
  simp [hostMemory, hidle, hseen, hout]

theorem hostMemory_of_inside (hidle : s.busy = false) (hseen : s.endShown = true) (hinside : inside) :
    hostMemory inside outside moved s = .next moved := by
  simp [hostMemory, hidle, hseen, hinside]

end Cells

section CellSteps

variable {s : State} {rest : List Input} {tx : HostTx} {j : Nat} {v : Word} {b : Byte}

theorem step_symWrite (hin : s.inputs = .host (.symWrite j v) :: rest) :
    step s = hostMemory (j < s.caps.symCap) .symIndex { s with inputs := rest, sym := s.sym.write j v }
      { s with inputs := rest } := step_done (nextEvent_host hin)

theorem step_symRead (hin : s.inputs = .host (.symRead j) :: rest) :
    step s = hostMemory (j < s.caps.symCap) .symIndex { s with inputs := rest, busData := some (.word (readSym s j)) }
      { s with inputs := rest } := step_done (nextEvent_host hin)

theorem step_artWrite (hin : s.inputs = .host (.artWrite j b) :: rest) :
    step s = hostMemory (j < s.caps.artCap) .artIndex { s with inputs := rest, art := s.art.write j b }
      { s with inputs := rest } := step_done (nextEvent_host hin)

theorem step_artRead (hin : s.inputs = .host (.artRead j) :: rest) :
    step s = hostMemory (j < s.caps.artCap) .artIndex { s with inputs := rest, busData := some (.byte (readArt s j)) }
      { s with inputs := rest } := step_done (nextEvent_host hin)

/-- The tests of BUSY and of the end seen come before anything that tells the four accesses apart (log entry 14). -/
theorem step_cellAccess (hin : s.inputs = .host tx :: rest)
    (h : tx ∈ [.symWrite j v, .symRead j, .artWrite j b, .artRead j]) :
    ∃ (inside : Prop) (_ : Decidable inside) (outside : Refusal) (moved : State),
      step s = hostMemory inside outside moved { s with inputs := rest } := by
  simp only [List.mem_cons, List.not_mem_nil, or_false] at h
  obtain rfl | rfl | rfl | rfl := h
  · exact ⟨_, _, _, _, step_symWrite hin⟩
  · exact ⟨_, _, _, _, step_symRead hin⟩
  · exact ⟨_, _, _, _, step_artWrite hin⟩
  · exact ⟨_, _, _, _, step_artRead hin⟩

end CellSteps

/-- Settles O59: each access is one `hostMemory`, whose four outcomes are the clauses: while BUSY, before the end is
seen, outside the memory, and inside it. -/
theorem hostMemoryRule : Obligations.HostMemoryRule := by
  unfold Obligations.HostMemoryRule
  intro s rest j v b tx hin
  refine ⟨?whileBusy, ?beforeEnd, fun hidle hseen =>
    ⟨?symOutside, ?artOutside, ?symWritten, ?symReturned, ?artWritten, ?artReturned⟩⟩
  case whileBusy =>
    intro hbusy htx
    obtain ⟨_, _, _, _, hstep⟩ := step_cellAccess hin htx
    exact hstep.trans (hostMemory_of_busy hbusy)
  case beforeEnd =>
    intro hidle hunseen htx
    obtain ⟨_, _, _, _, hstep⟩ := step_cellAccess hin htx
    exact hstep.trans (hostMemory_of_end_unseen hidle hunseen)
  case symOutside =>
    rintro hout (rfl | rfl)
    · exact (step_symWrite hin).trans (hostMemory_of_outside hidle hseen hout.not_gt)
    · exact (step_symRead hin).trans (hostMemory_of_outside hidle hseen hout.not_gt)
  case artOutside =>
    rintro hout (rfl | rfl)
    · exact (step_artWrite hin).trans (hostMemory_of_outside hidle hseen hout.not_gt)
    · exact (step_artRead hin).trans (hostMemory_of_outside hidle hseen hout.not_gt)
  case symWritten =>
    rintro hinside rfl
    exact (step_symWrite hin).trans (hostMemory_of_inside hidle hseen hinside)
  case symReturned =>
    rintro hinside rfl
    exact (step_symRead hin).trans (hostMemory_of_inside hidle hseen hinside)
  case artWritten =>
    rintro hinside rfl
    exact (step_artWrite hin).trans (hostMemory_of_inside hidle hseen hinside)
  case artReturned =>
    rintro hinside rfl
    exact (step_artRead hin).trans (hostMemory_of_inside hidle hseen hinside)

/-! ### Reset as an event (R320, R321) -/

theorem nextEvent_reset {s : State} {rest : List Input} (h : s.inputs = .reset :: rest) :
    nextEvent s = .done (.next (resetEvent { s with inputs := rest })) := by
  simp [nextEvent, h]

theorem step_reset {s : State} {rest : List Input} (hin : s.inputs = .reset :: rest) :
    step s = .next (resetEvent { s with inputs := rest }) := step_done (nextEvent_reset hin)

/-- Settles O60: the step is `resetEvent`, whatever the state, and no cell of an unspecified memory is written. -/
theorem resetRule : Obligations.ResetRule := by
  unfold Obligations.ResetRule
  intro s rest hin
  refine ⟨resetEvent { s with inputs := rest }, step_reset hin, resetEvent_status _, resetEvent_inLen _,
    resetEvent_outLen _, rfl, resetEvent_seq _, fun j => ?symUnwritten, fun a => ?artUnwritten, resetEvent_inputs _,
    resetEvent_busData _, resetEvent_endShown _, resetEvent_caps _⟩
  case symUnwritten => rw [resetEvent_sym, Memory.unspecified_written]
  case artUnwritten => rw [resetEvent_art, Memory.unspecified_written]

end Sys2Proof.Proofs
end

section
/-! PROOF. What one step can do, whoever moves: the host, or the core at its stage. From it the two invariants that speak
of every stage at once, of the registers (10_state.md R23, R29, R31) and of the memories (20_memory.md R60, R64). -/

namespace Sys2Proof.Proofs

open Sys2Proof Sys2Proof.Machine

/-! ### The core's turn as an outcome -/

/-- The core's turn: the outcome of an ENCODE's stage, or of the token a DECODE has fetched. -/
def coreStep (s : State) : Outcome :=
  match coreTurn s with
  | .run i t => exec i t
  | .done o => o

section CoreStep

variable {s t : State}

theorem coreStep_of_run {i : Instr} (h : coreTurn s = .run i t) : coreStep s = exec i t := by simp only [coreStep, h]

theorem coreStep_of_done {o : Outcome} (h : coreTurn s = .done o) : coreStep s = o := by simp only [coreStep, h]

theorem step_eq_coreStep (hevent : nextEvent s = coreTurn t) : step s = coreStep t := by
  cases hturn : coreTurn t with
  | run i u => rw [step_run (hevent.trans hturn), coreStep_of_run hturn]
  | done o => rw [step_done (hevent.trans hturn), coreStep_of_done hturn]

theorem coreStep_count (h : s.seq = .count) : coreStep s = countStep s := coreStep_of_done (coreTurn_count h)
theorem coreStep_build (h : s.seq = .build) : coreStep s = buildStep s := coreStep_of_done (coreTurn_build h)
theorem coreStep_codes (h : s.seq = .codes) : coreStep s = codesStep s := coreStep_of_done (coreTurn_codes h)
theorem coreStep_size (h : s.seq = .size) : coreStep s = sizeStep s := coreStep_of_done (coreTurn_size h)
theorem coreStep_serTree (h : s.seq = .serTree) : coreStep s = serStep s := coreStep_of_done (coreTurn_serTree h)
theorem coreStep_encText (h : s.seq = .encText) : coreStep s = encTextStep s := coreStep_of_done (coreTurn_encText h)
theorem coreStep_pad (h : s.seq = .pad) : coreStep s = .next (padStep s) := coreStep_of_done (coreTurn_pad h)

/-- What holds of the state a token is run at, and then of whatever the token makes of it, holds after the core's turn. -/
theorem coreStep_fetchToken_satisfies {P : State → Prop} {f : Format} (hturn : coreTurn s = fetchToken f t)
    (hend : P (streamEnd f t))
    (hexec : ∀ (i : Instr) (len : Nat), i.format = f → len ≤ (readAhead f.maxLength t).length →
      NextSatisfies P (exec i (t.advance len))) : NextSatisfies P (coreStep s) := by
  rcases fetchToken_cases f t with ⟨-, hfetch⟩ | ⟨-, ⟨i, len, hdec, hfetch⟩ | hfetch⟩
  · rw [coreStep_of_done (hturn.trans hfetch)]
    trivial
  · rw [coreStep_of_run (hturn.trans hfetch)]
    exact hexec i len (decode_format hdec).1 (decode_length_le hdec)
  · rw [coreStep_of_done (hturn.trans hfetch)]
    exact hend

end CoreStep

/-! ### What the host can do -/

/-- What a step of the host or the platform can make of `s`: registers of the host's side and IN_LEN change; a cell is
written or a command word acts, both only while idle; or reset. -/
inductive HostTurn (s : State) : State → Prop where
  | registers (inLen : Word) (inputs : List Input) (busData : Option BusData) (endShown : Bool)
      (unseen : s.busy = true → endShown = s.endShown) :
      HostTurn s { s with inLen := inLen, inputs := inputs, busData := busData, endShown := endShown }
  | symWrite (i : Nat) (v : Word) (rest : List Input) (idle : s.busy = false) (inside : i < s.caps.symCap) :
      HostTurn s (writeSym i v { s with inputs := rest })
  | artWrite (a : Nat) (b : Byte) (rest : List Input) (idle : s.busy = false) (inside : a < s.caps.artCap) :
      HostTurn s (writeArt a b { s with inputs := rest })
  | accepts (v : Word) (stage : Seq) (rest : List Input) (idle : s.busy = false) (first : stage = .count ∨ stage = .hdr) :
      HostTurn s (accept v stage { s with inputs := rest })
  | illegal (rest : List Input) (idle : s.busy = false) : HostTurn s (illegalCommand { s with inputs := rest })
  | reset (rest : List Input) : HostTurn s (resetEvent { s with inputs := rest })

section HostTurns

variable {s : State} {rest : List Input}

/-- An access that moves nothing but pending inputs. -/
theorem hostTurn_inputs (rest : List Input) : HostTurn s { s with inputs := rest } :=
  .registers s.inLen rest s.busData s.endShown fun _ => rfl

theorem noteRead_hostTurn (offset : Nat) (v : Word) (inputs : List Input) :
    HostTurn s { noteRead offset v s with inputs := inputs } :=
  .registers s.inLen inputs (some (.word v)) (noteRead offset v s).endShown fun hbusy => by rw [noteRead_busy hbusy]

theorem exec_command_hostTurn {i : Instr} (h : i.format = .command) :
    NextSatisfies (HostTurn s) (exec i { s with inputs := rest }) := by
  cases hbusy : s.busy with
  | true =>
    rw [exec_command_of_busy h (s := { s with inputs := rest }) hbusy]
    exact hostTurn_inputs rest
  | false =>
    cases i with
    | encode =>
      rw [exec, execEncode, whileIdle_of_idle _ (s := { s with inputs := rest }) hbusy]
      exact .accepts _ _ rest hbusy (.inl rfl)
    | decode =>
      rw [exec, execDecode, whileIdle_of_idle _ (s := { s with inputs := rest }) hbusy]
      exact .accepts _ _ rest hbusy (.inr rfl)
    | illegal w =>
      rw [exec_illegal_of_idle w (s := { s with inputs := rest }) hbusy]
      exact .illegal rest hbusy
    | _ => cases h

theorem hostRegRead_hostTurn (offset size : Nat) :
    NextSatisfies (HostTurn s) (hostRegRead offset size { s with inputs := rest }) := by
  unfold hostRegRead
  split
  · split
    · exact noteRead_hostTurn offset _ rest
    · trivial
  · trivial

theorem hostRegWrite_hostTurn (offset : Nat) (v : Word) :
    NextSatisfies (HostTurn s) (hostRegWrite offset v { s with inputs := rest }) := by
  unfold hostRegWrite
  split
  · exact hostTurn_inputs rest
  · exact .registers v rest s.busData s.endShown fun _ => rfl
  · exact hostTurn_inputs rest
  · trivial

theorem hostMemory_hostTurn {inside : Prop} [Decidable inside] {outside : Refusal} {moved : State}
    (h : s.busy = false → inside → HostTurn s moved) :
    NextSatisfies (HostTurn s) (hostMemory inside outside moved { s with inputs := rest }) := by
  rcases hostMemory_cases inside outside moved { s with inputs := rest } with
    ⟨-, ho⟩ | ⟨-, -, ho⟩ | ⟨-, -, -, ho⟩ | ⟨hidle, -, hin, ho⟩
  · rw [ho]
    trivial
  · rw [ho]
    trivial
  · rw [ho]
    trivial
  · rw [ho]
    exact h hidle hin

theorem step_host_hostTurn {tx : HostTx} (hin : s.inputs = .host tx :: rest) : NextSatisfies (HostTurn s) (step s) := by
  cases tx with
  | regWrite offset size v =>
    by_cases hbad : size ≠ 4 ∨ offset ∉ [0x00, 0x04, 0x08, 0x0C]
    · rw [step_regWrite_refused hin hbad]
      trivial
    · obtain rfl : size = 4 := not_not.1 fun h => hbad (.inl h)
      by_cases hcmd : offset = 0x00
      · subst hcmd
        rw [step_cmdWrite hin]
        exact exec_command_hostTurn (decodeCommand_format v)
      · rw [step_regWrite_register hin hcmd]
        exact hostRegWrite_hostTurn offset v
  | regRead offset size =>
    rw [step_regRead hin]
    exact hostRegRead_hostTurn offset size
  | symWrite i v =>
    rw [step_symWrite hin]
    exact hostMemory_hostTurn fun hidle hinside => .symWrite i v rest hidle hinside
  | symRead i =>
    rw [step_symRead hin]
    exact hostMemory_hostTurn fun _ _ => .registers s.inLen rest _ s.endShown fun _ => rfl
  | artWrite a b =>
    rw [step_artWrite hin]
    exact hostMemory_hostTurn fun hidle hinside => .artWrite a b rest hidle hinside
  | artRead a =>
    rw [step_artRead hin]
    exact hostMemory_hostTurn fun _ _ => .registers s.inLen rest _ s.endShown fun _ => rfl

theorem step_poll {rest : List Input} (hin : s.inputs = .poll :: rest) : step s = .next (hostPoll rest s) :=
  step_done (by simp [nextEvent, hin])

/-- A step is the host's or the platform's, or it is the core's turn with some inputs left pending. -/
theorem step_cases (s : State) :
    NextSatisfies (HostTurn s) (step s) ∨ ∃ rest, step s = coreStep { s with inputs := rest } := by
  match hin : s.inputs with
  | [] => exact .inr ⟨s.inputs, step_eq_coreStep (nextEvent_none hin)⟩
  | .core :: rest => exact .inr ⟨rest, step_eq_coreStep (nextEvent_core hin)⟩
  | .host tx :: rest => exact .inl (step_host_hostTurn hin)
  | .poll :: rest =>
    rw [step_poll hin]
    exact .inl (noteRead_hostTurn 0x04 s.status _)
  | .reset :: rest =>
    rw [step_reset hin]
    exact .inl (.reset rest)

end HostTurns

/-! ### What the core can do -/

/-- The stages that can follow a stage while the command goes on (10_state.md R31). -/
def nextStages : Seq → List Seq
  | .idle => []
  | .count => [.count, .build]
  | .build => [.build, .codes]
  | .codes => [.codes, .size]
  | .size => [.serTree]
  | .serTree => [.serTree, .encText]
  | .encText => [.encText, .pad]
  | .pad => []
  | .hdr => [.deserTree]
  | .deserTree => [.deserTree, .decText]
  | .decText => [.decText]

/-- What the core's turn can make of `s`: nothing while idle; the command's end by error, by success, or by R243 on the
empty input; the next stage of the same command, with both memories as they were; bits emitted into ART; a SYM word
written. -/
inductive CoreTurn (s : State) : State → Prop where
  | rests (idle : s.seq = .idle) : CoreTurn s s
  | fails (out : OutputMemory) (e : CommandError) (h : Hidden) : CoreTurn s (raise out e { s with hid := h })
  | succeeds (len : Word) (h : Hidden) : CoreTurn s (succeed len { s with hid := h })
  | emptyInput (h : Hidden) : CoreTurn s (encodeEmpty { s with hid := h })
  | goesOn (stage : Seq) (h : Hidden) (follows : stage ∈ nextStages s.seq) :
      CoreTurn s { s with seq := stage, hid := h }
  | emits (bits : Bits) (h : Hidden) (emitting : s.seq = .serTree ∨ s.seq = .encText)
      (fits : h.wpos + bits.length ≤ 8 * s.caps.artCap) : CoreTurn s (emitBits bits { s with hid := h })
  | writesSym (i : Nat) (v : Word) (h : Hidden) (inText : s.seq = .decText) (inside : i < s.caps.symCap) :
      CoreTurn s { writeSym i v s with hid := h }

section CoreTurns

variable {s : State} {h : Hidden}

theorem coreTurn_stays (h : Hidden) (hstay : s.seq ∈ nextStages s.seq) : CoreTurn s { s with hid := h } :=
  .goesOn s.seq h hstay

theorem emit_coreTurn (bits : Bits) (h : Hidden) (hseq : s.seq = .serTree ∨ s.seq = .encText) :
    NextSatisfies (CoreTurn s) (emit bits { s with hid := h }) := by
  rcases emit_cases bits { s with hid := h } with ⟨hfits, he⟩ | ⟨-, he⟩
  · rw [he]
    exact .emits bits h hseq hfits
  · rw [he]
    trivial

theorem countSymbol_coreTurn (h : Hidden) (hseq : s.seq = .count) : CoreTurn s (countSymbol { s with hid := h }) := by
  unfold countSymbol
  split
  · exact .fails _ _ h
  · split
    · exact coreTurn_stays _ (by simp [hseq, nextStages])
    · split
      · exact .fails _ _ h
      · exact coreTurn_stays _ (by simp [hseq, nextStages])

theorem countStep_coreTurn (hseq : s.seq = .count) : NextSatisfies (CoreTurn s) (countStep s) := by
  unfold countStep
  extract_lets hid s'
  split
  · exact .fails _ _ _
  · split
    · exact .emptyInput _
    · split
      · exact countSymbol_coreTurn _ hseq
      · exact .goesOn .build _ (by simp [hseq, nextStages])

theorem mergeStep_coreTurn (hseq : s.seq = .build) : NextSatisfies (CoreTurn s) (mergeStep s) := by
  unfold mergeStep
  split
  · trivial
  · next a t ht =>
    split
    · trivial
    · next b u hu =>
      rw [extractMin_frame hu, extractMin_frame ht]
      exact coreTurn_stays _ (by simp [hseq, nextStages])

theorem takeRoot_coreTurn (hseq : s.seq = .build) : NextSatisfies (CoreTurn s) (takeRoot s) := by
  unfold takeRoot
  split
  · trivial
  · next r t ht =>
    rw [extractMin_frame ht]
    exact .goesOn .codes _ (by simp [hseq, nextStages])

theorem buildStep_coreTurn (hseq : s.seq = .build) : NextSatisfies (CoreTurn s) (buildStep s) := by
  unfold buildStep
  split
  · split
    · exact .fails _ _ s.hid
    · exact coreTurn_stays _ (by simp [hseq, nextStages])
  · split
    · exact mergeStep_coreTurn hseq
    · exact takeRoot_coreTurn hseq

theorem codesStep_coreTurn (hseq : s.seq = .codes) : NextSatisfies (CoreTurn s) (codesStep s) := by
  have hstay : s.seq ∈ nextStages s.seq := by simp [hseq, nextStages]
  unfold codesStep
  split
  · exact .goesOn .size s.hid (by simp [hseq, nextStages])
  · split
    · trivial
    · exact coreTurn_stays _ hstay
    · exact coreTurn_stays _ hstay

theorem sizeStep_coreTurn (hseq : s.seq = .size) : NextSatisfies (CoreTurn s) (sizeStep s) := by
  unfold sizeStep
  split
  · trivial
  · trivial
  · extract_lets total
    split
    · exact .fails _ _ s.hid
    · exact .goesOn .serTree _ (by simp [hseq, nextStages])

theorem serStep_coreTurn (hseq : s.seq = .serTree) : NextSatisfies (CoreTurn s) (serStep s) := by
  unfold serStep
  split
  · exact emit_coreTurn _ s.hid (.inl hseq)
  · split
    · exact .goesOn .encText _ (by simp [hseq, nextStages])
    · split
      · trivial
      · exact emit_coreTurn _ _ (.inl hseq)
      · exact emit_coreTurn _ _ (.inl hseq)

theorem encTextStep_coreTurn (hseq : s.seq = .encText) : NextSatisfies (CoreTurn s) (encTextStep s) := by
  unfold encTextStep
  split
  · exact .goesOn .pad s.hid (by simp [hseq, nextStages])
  · split
    · trivial
    · split
      · trivial
      · exact emit_coreTurn _ _ (.inr hseq)

theorem streamEnd_coreTurn (f : Format) (h : Hidden) : CoreTurn s (streamEnd f { s with hid := h }) := by
  rcases streamEnd_cases f { s with hid := h } with hend | hend
  · rw [hend]
    exact .fails _ _ h
  · rw [hend]
    exact .fails _ _ h

theorem execHeader_coreTurn (count : Word) (h : Hidden) (hseq : s.seq = .hdr) :
    NextSatisfies (CoreTurn s) (execHeader count { s with hid := h }) := by
  unfold execHeader
  split
  · exact .succeeds _ h
  · split
    · exact .fails _ _ h
    · exact .goesOn .deserTree _ (by simp [hseq, nextStages])

theorem exec_treeToken_coreTurn {i : Instr} (hi : i.format = .treeToken) (h : Hidden) (hseq : s.seq = .deserTree) :
    NextSatisfies (CoreTurn s) (exec i { s with hid := h }) := by
  obtain ⟨t, ht, hturn⟩ := exec_treeTurn hi { s with hid := h }
  rw [ht]
  cases hturn with
  | fails e h' => exact .fails _ _ h'
  | readsOn nodes deser => exact coreTurn_stays _ (by simp [hseq, nextStages])
  | startsText nodes root => exact .goesOn .decText _ (by simp [hseq, nextStages])

theorem moveTo_coreTurn (i : Nat) (h : Hidden) (hseq : s.seq = .decText) :
    NextSatisfies (CoreTurn s) (moveTo i { s with hid := h }) := by
  unfold moveTo
  split
  · unfold emitSymbol
    split
    · trivial
    · next hroom =>
      split
      · trivial
      · exact .writesSym _ _ _ hseq (Nat.lt_of_not_le hroom)
  · exact coreTurn_stays _ (by simp [hseq, nextStages])
  · trivial

theorem exec_textBit_coreTurn {i : Instr} (hi : i.format = .textBit) (h : Hidden) (hseq : s.seq = .decText) :
    NextSatisfies (CoreTurn s) (exec i { s with hid := h }) := by
  obtain ⟨b, rfl⟩ := exists_textToken hi
  rcases exec_textToken_cases b { s with hid := h } with ⟨l, r, hcur⟩ | hfault
  · rw [exec_textToken_of_internal b hcur]
    exact moveTo_coreTurn _ h hseq
  · rw [hfault]
    trivial

theorem coreStep_hdr_coreTurn (hseq : s.seq = .hdr) : NextSatisfies (CoreTurn s) (coreStep s) := by
  by_cases hfits : s.hid.latLen.toNat ≤ s.caps.artCap
  · refine coreStep_fetchToken_satisfies ((coreTurn_hdr hseq).trans (headerFetch_of_fits hfits))
      (streamEnd_coreTurn _ _) fun i len hi _ => ?_
    cases i with
    | header count => exact execHeader_coreTurn count _ hseq
    | _ => cases hi
  · rw [coreStep_of_done ((coreTurn_hdr hseq).trans (if_pos (Nat.lt_of_not_le hfits)))]
    exact .fails _ _ s.hid

theorem coreStep_decText_coreTurn (hseq : s.seq = .decText) : NextSatisfies (CoreTurn s) (coreStep s) := by
  by_cases hremain : s.hid.remain = 0#32
  · rw [coreStep_of_done ((coreTurn_decText hseq).trans (if_pos hremain))]
    exact .succeeds _ s.hid
  · exact coreStep_fetchToken_satisfies ((coreTurn_decText hseq).trans (textFetch_of_remain hremain))
      (streamEnd_coreTurn _ s.hid) fun i len hi _ => exec_textBit_coreTurn hi _ hseq

theorem coreStep_coreTurn (s : State) : NextSatisfies (CoreTurn s) (coreStep s) := by
  cases hseq : s.seq with
  | idle =>
    rw [coreStep_of_done (o := .next s) (by simp [coreTurn, hseq])]
    exact .rests hseq
  | count => exact coreStep_count hseq ▸ countStep_coreTurn hseq
  | build => exact coreStep_build hseq ▸ buildStep_coreTurn hseq
  | codes => exact coreStep_codes hseq ▸ codesStep_coreTurn hseq
  | size => exact coreStep_size hseq ▸ sizeStep_coreTurn hseq
  | serTree => exact coreStep_serTree hseq ▸ serStep_coreTurn hseq
  | encText => exact coreStep_encText hseq ▸ encTextStep_coreTurn hseq
  | pad => exact coreStep_pad hseq ▸ .succeeds _ s.hid
  | hdr => exact coreStep_hdr_coreTurn hseq
  | deserTree =>
    exact coreStep_fetchToken_satisfies (coreTurn_deserTree hseq) (streamEnd_coreTurn _ s.hid)
      fun i len hi _ => exec_treeToken_coreTurn hi _ hseq
  | decText => exact coreStep_decText_coreTurn hseq

end CoreTurns

/-- A property that the host's turns keep, and the core's turns at any pending inputs, is kept by every step. -/
theorem step_keeps {P : State → State → Prop} {s t : State} (hstep : step s = .next t)
    (hhost : ∀ t, HostTurn s t → P s t) (hcore : ∀ rest t, coreStep { s with inputs := rest } = .next t → P s t) :
    P s t := by
  rcases step_cases s with h | ⟨rest, h⟩
  · rw [hstep] at h
    exact hhost t h
  · exact hcore rest t (h.symm.trans hstep)

/-- The core's turn that answers `t` is one of the things it can do. -/
theorem coreTurn_of_coreStep {s t : State} (h : coreStep s = .next t) : CoreTurn s t := by
  simpa [h] using coreStep_coreTurn s

/-! ### The registers -/

section Registers

variable {s t : State}

/-- A state with a legal STATUS word that shows BUSY 0, and an idle sequencer, needs nothing more. -/
theorem registersOk_of_idle (hlegal : t.status ∈ legalStatus) (hseq : t.seq = .idle) (hidle : t.busy = false) :
    RegistersOk t where
  status_legal := hlegal
  idle_iff := iff_of_true hseq hidle
  outLen_zero hbusy := by simp [hidle] at hbusy
  end_unseen hbusy := by simp [hidle] at hbusy

/-- While the command runs on, the registers stay as they are. -/
theorem registersOk_of_running (hok : RegistersOk s) (hrun : s.seq ≠ .idle) (hseq : t.seq ≠ .idle)
    (hstatus : t.status = s.status) (houtLen : t.outLen = s.outLen) (hshown : t.endShown = s.endShown) :
    RegistersOk t := by
  have hbusy : s.busy = true := by simpa using mt hok.idle_iff.2 hrun
  have hbusy' : t.busy = true := by rw [State.busy, hstatus]; exact hbusy
  exact ⟨hstatus ▸ hok.status_legal, iff_of_false hseq (by simp [hbusy']), fun _ => houtLen ▸ hok.outLen_zero hbusy,
    fun _ => hshown ▸ hok.end_unseen hbusy⟩

theorem nextStages_running {a b : Seq} (h : b ∈ nextStages a) : a ≠ .idle ∧ b ≠ .idle := by
  constructor
  · rintro rfl
    cases h
  · rintro rfl
    cases a <;> simp [nextStages] at h

theorem registersOk_of_hostTurn (hok : RegistersOk s) (hturn : HostTurn s t) : RegistersOk t := by
  cases hturn with
  | registers inLen inputs busData endShown unseen =>
    exact ⟨hok.status_legal, hok.idle_iff, hok.outLen_zero, fun hbusy => (unseen hbusy).trans (hok.end_unseen hbusy)⟩
  | symWrite | artWrite => exact ⟨hok.status_legal, hok.idle_iff, hok.outLen_zero, hok.end_unseen⟩
  | accepts v stage rest idle first =>
    have hseq : stage ≠ .idle := by rcases first with rfl | rfl <;> decide
    exact ⟨statusRunning_legal, iff_of_false hseq (by simp [State.busy]), fun _ => rfl, fun _ => rfl⟩
  | illegal rest idle =>
    exact registersOk_of_idle (statusFailed_legal _) (hok.idle_iff.2 idle) (statusFailed_busy _)
  | reset rest => exact registersOk_of_idle List.mem_cons_self rfl (by simp [State.busy])

theorem registersOk_of_coreTurn (hok : RegistersOk s) (hturn : CoreTurn s t) : RegistersOk t := by
  cases hturn with
  | rests idle => exact hok
  | fails out e h => exact registersOk_of_idle (statusFailed_legal e) rfl (statusFailed_busy e)
  | succeeds | emptyInput => exact registersOk_of_idle statusSucceeded_legal rfl statusSucceeded_busy
  | goesOn stage h follows =>
    obtain ⟨hrun, hstage⟩ := nextStages_running follows
    exact registersOk_of_running hok hrun hstage rfl rfl rfl
  | emits bits h emitting fits =>
    have hrun : s.seq ≠ .idle := by rcases emitting with hseq | hseq <;> simp [hseq]
    rw [emitBits_frame]
    exact registersOk_of_running hok hrun hrun rfl rfl rfl
  | writesSym i v h inText inside =>
    have hrun : s.seq ≠ .idle := by simp [inText]
    exact registersOk_of_running hok hrun hrun rfl rfl rfl

/-- Inputs that stay pending do not matter to the registers. -/
theorem registersOk_inputs (hok : RegistersOk s) (rest : List Input) : RegistersOk { s with inputs := rest } :=
  ⟨hok.status_legal, hok.idle_iff, hok.outLen_zero, hok.end_unseen⟩

end Registers

/-- Settles O47: the host changes STATUS only by starting a command while idle, and the core changes it only where it
leaves the sequencer idle. -/
theorem registersInvariant : Obligations.RegistersInvariant := by
  unfold Obligations.RegistersInvariant
  intro s t hok hstep
  exact step_keeps (P := fun _ => RegistersOk) hstep (fun t => registersOk_of_hostTurn hok) fun rest t h =>
    registersOk_of_coreTurn (registersOk_inputs hok rest) (coreTurn_of_coreStep h)

/-! ### The memories -/

section Memories

variable {w : Nat} {m m' : Memory w} {cap draws draws' : Nat}

/-- One memory's share of `MemoriesOk`: canonical, inside its address space, its draw an earlier one than the next. -/
structure MemoryOk (cap draws : Nat) (m : Memory w) : Prop where
  wf : m.wf
  below : ∀ c ∈ m.cells, c.1 < cap
  epoch : m.epoch < draws

/-- What a step may do to one memory: cells are written inside it, or the whole of it takes the next draw. -/
structure MemoryKept (cap draws draws' : Nat) (m m' : Memory w) : Prop where
  ok : MemoryOk cap draws' m'
  epoch : m'.epoch = m.epoch ∨ m'.epoch = draws ∧ draws < draws'

theorem memoryOk_iff {s : State} :
    MemoriesOk s ↔ MemoryOk s.caps.symCap s.draws s.sym ∧ MemoryOk s.caps.artCap s.draws s.art :=
  ⟨fun h => ⟨⟨h.sym_wf, h.sym_below, h.sym_epoch⟩, ⟨h.art_wf, h.art_below, h.art_epoch⟩⟩,
    fun ⟨hsym, hart⟩ => ⟨hsym.wf, hart.wf, hsym.below, hart.below, hsym.epoch, hart.epoch⟩⟩

theorem memoryKept_refl (h : MemoryOk cap draws m) (hdraws : draws ≤ draws') : MemoryKept cap draws draws' m m :=
  ⟨⟨h.wf, h.below, Nat.lt_of_lt_of_le h.epoch hdraws⟩, .inl rfl⟩

theorem memoryKept_write {i : Nat} (v : BitVec w) (hi : i < cap) (h : MemoryKept cap draws draws' m m') :
    MemoryKept cap draws draws' m (m'.write i v) :=
  ⟨⟨Memory.write_wf h.ok.wf i v, Memory.write_below h.ok.below hi, h.ok.epoch⟩, h.epoch⟩

theorem memoryKept_unspecified : MemoryKept cap draws (draws + 1) m (Memory.unspecified draws) :=
  ⟨⟨Memory.unspecified_wf draws, fun _ hc => absurd hc List.not_mem_nil, Nat.lt_succ_self draws⟩,
    .inr ⟨rfl, Nat.lt_succ_self draws⟩⟩

/-- Every byte an emission that fits can fill is in ART (20_memory.md R64). -/
theorem memoryKept_emitBits {art : Memory 8} (bits : Bits) {s : State}
    (hfits : s.hid.wpos + bits.length ≤ 8 * cap) (h : MemoryKept cap draws draws' art s.art) :
    MemoryKept cap draws draws' art (emitBits bits s).art := by
  induction bits generalizing s with
  | nil => exact h
  | cons b bits ih =>
    rw [List.length_cons] at hfits
    exact ih (by rw [emitBit_wpos]; omega) (memoryKept_write _ (by omega) h)

/-- What a step may do to the memories and the counter of draws. -/
structure MemoriesKept (s t : State) : Prop where
  sym : MemoryKept s.caps.symCap s.draws t.draws s.sym t.sym
  art : MemoryKept s.caps.artCap s.draws t.draws s.art t.art
  draws : s.draws ≤ t.draws

theorem memoriesKept_of_hostTurn {s t : State} (hok : MemoriesOk s) (hturn : HostTurn s t) : MemoriesKept s t := by
  obtain ⟨hsym, hart⟩ := memoryOk_iff.1 hok
  have hsame := memoryKept_refl hsym (Nat.le_refl s.draws)
  have hsame' := memoryKept_refl hart (Nat.le_refl s.draws)
  cases hturn with
  | registers | accepts | illegal => exact ⟨hsame, hsame', Nat.le_refl _⟩
  | symWrite i v rest idle inside => exact ⟨memoryKept_write v inside hsame, hsame', Nat.le_refl _⟩
  | artWrite a b rest idle inside => exact ⟨hsame, memoryKept_write b inside hsame', Nat.le_refl _⟩
  | reset rest => exact ⟨memoryKept_unspecified, memoryKept_unspecified, Nat.le_succ _⟩

theorem memoriesKept_of_coreTurn {s t : State} (hok : MemoriesOk s) (hturn : CoreTurn s t) : MemoriesKept s t := by
  obtain ⟨hsym, hart⟩ := memoryOk_iff.1 hok
  have hsame := memoryKept_refl hsym (Nat.le_refl s.draws)
  have hsame' := memoryKept_refl hart (Nat.le_refl s.draws)
  have hsucc := memoryKept_refl hsym (Nat.le_succ s.draws)
  have hsucc' := memoryKept_refl hart (Nat.le_succ s.draws)
  cases hturn with
  | rests | goesOn => exact ⟨hsame, hsame', Nat.le_refl _⟩
  | fails out e h =>
    cases out with
    | art => exact ⟨hsucc, memoryKept_unspecified, Nat.le_succ _⟩
    | sym => exact ⟨memoryKept_unspecified, hsucc', Nat.le_succ _⟩
  | succeeds len h => exact ⟨hsucc, hsucc', Nat.le_succ _⟩
  | emptyInput h =>
    have hheader : ∀ a, a < 4 → a < s.caps.artCap := fun a ha => Nat.lt_of_lt_of_le ha s.caps.artCap_ge
    exact ⟨hsucc, memoryKept_write _ (hheader 3 (by decide)) (memoryKept_write _ (hheader 2 (by decide))
      (memoryKept_write _ (hheader 1 (by decide)) (memoryKept_write _ (hheader 0 (by decide)) hsucc'))), Nat.le_succ _⟩
  | emits bits h emitting fits =>
    have hart := memoryKept_emitBits (s := { s with hid := h }) bits fits hsame'
    rw [emitBits_frame]
    exact ⟨hsame, hart, Nat.le_refl _⟩
  | writesSym i v h inText inside => exact ⟨memoryKept_write v inside hsame, hsame', Nat.le_refl _⟩

/-- Inputs that stay pending do not matter to the memories. -/
theorem memoriesOk_inputs {s : State} (hok : MemoriesOk s) (rest : List Input) : MemoriesOk { s with inputs := rest } :=
  ⟨hok.sym_wf, hok.art_wf, hok.sym_below, hok.art_below, hok.sym_epoch, hok.art_epoch⟩

end Memories

/-- Settles O48: cells are written inside the memory only, and a memory that loses its cells takes the next draw. -/
theorem memoriesInvariant : Obligations.MemoriesInvariant := by
  unfold Obligations.MemoriesInvariant
  intro s t hok hstep
  have hkept : MemoriesKept s t := step_keeps hstep (fun t => memoriesKept_of_hostTurn hok) fun rest t h =>
    have hturn := memoriesKept_of_coreTurn (memoriesOk_inputs hok rest) (coreTurn_of_coreStep h)
    ⟨hturn.sym, hturn.art, hturn.draws⟩
  have hcaps : t.caps = s.caps := capacitiesFixed s t hstep
  exact ⟨memoryOk_iff.2 ⟨hcaps ▸ hkept.sym.ok, hcaps ▸ hkept.art.ok⟩, hkept.draws, hkept.sym.epoch, hkept.art.epoch⟩

end Sys2Proof.Proofs
end

section
/-! PROOF. Acceptance (43_commands.md R241), the lengths of valid sequences (30_encoding.md R109, R111), and the errors of
the header and of a tree token at the ends of the stream (43_commands.md R247, R248, 41_tree_codec.md R187). -/

namespace Sys2Proof.Proofs

open Sys2Proof Sys2Proof.Machine

/-- Settles O9: while idle the two command words run `accept`. -/
theorem acceptRule : Obligations.AcceptRule := by
  unfold Obligations.AcceptRule
  intro s hidle
  exact ⟨whileIdle_of_idle _ hidle, whileIdle_of_idle _ hidle⟩

/-! ### The lengths of valid sequences -/

/-- R111: a valid sequence has no valid beginning but itself. -/
theorem take_of_valid {bytes : List Byte} (h : utf8ValidSingle bytes = true) {j : Nat} (hj : j < bytes.length) :
    utf8ValidSingle (bytes.take j) = false := by
  rcases List.eq_nil_or_concat' bytes with rfl | ⟨front, last, rfl⟩
  · cases h
  · have hfront : j ≤ front.length := by
      rw [List.length_append] at hj
      exact Nat.le_of_lt_succ hj
    rw [List.take_append_of_le_length hfront]
    exact noValidPrefix_of_concat_valid h _ (List.take_prefix j front)

/-- Settles O5: a scalar's encoding is the bytes of its token, and the lead byte's ranges give the lengths. -/
theorem leadByteFixesLength : Obligations.LeadByteFixesLength := by
  unfold Obligations.LeadByteFixesLength
  refine ⟨fun c hc => ?_, fun bytes h => ⟨?_, length_le_of_valid h, fun j => take_of_valid h⟩,
    fun b rest => lead_of_valid, fun b rest other => length_eq_of_valid⟩
  · obtain ⟨i, hi⟩ := exists_leafCarries hc
    rw [utf8Encode_of_leafCarries hi]
    exact utf8ValidSingle_leafBytes hi
  · cases bytes with
    | nil => cases h
    | cons b rest => exact Nat.succ_pos _

/-! ### Bit strings in the stream -/

/-- These bits stand in the stream from bit `p` on (20_memory.md R63). -/
def Spells (s : State) (p : Nat) (bits : Bits) : Prop := ∀ j (h : j < bits.length), streamBit s (p + j) = bits[j]

/-- The `k` stream bits from bit `p` on. -/
def streamBits (s : State) (p k : Nat) : Bits := (List.range k).map fun j => streamBit s (p + j)

section Stream

variable {s : State} {p k : Nat}

@[simp] theorem streamBits_length (s : State) (p k : Nat) : (streamBits s p k).length = k := by simp [streamBits]

theorem streamBits_add (s : State) (p a b : Nat) : streamBits s p (a + b) = streamBits s p a ++ streamBits s (p + a) b := by
  simp [streamBits, List.range_add, Nat.add_assoc]

theorem streamBits_succ (s : State) (p k : Nat) : streamBits s p (k + 1) = streamBit s p :: streamBits s (p + 1) k := by
  rw [Nat.add_comm, streamBits_add]
  rfl

theorem spells_iff {bits : Bits} : Spells s p bits ↔ streamBits s p bits.length = bits := by
  constructor
  · intro h
    refine List.ext_getElem (streamBits_length ..) fun j hj hj' => ?_
    simpa [streamBits] using h j hj'
  · intro h j hj
    have hget : (streamBits s p bits.length)[j]? = bits[j]? := by rw [h]
    simpa [streamBits, hj] using hget

theorem spells_append {xs ys : Bits} : Spells s p (xs ++ ys) ↔ Spells s p xs ∧ Spells s (p + xs.length) ys := by
  rw [spells_iff, spells_iff, spells_iff, List.length_append, streamBits_add]
  exact ⟨fun h => List.append_inj' h (streamBits_length ..), fun ⟨hx, hy⟩ => by rw [hx, hy]⟩

/-- Reading ahead delivers the stream's bits from `rpos` on, up to its end. -/
theorem readAhead_eq_streamBits (k : Nat) (s : State) :
    readAhead k s = streamBits s s.hid.rpos (min k (8 * s.hid.latLen.toNat - s.hid.rpos)) := readAhead_eq k s

/-- Bits that stand in the stream before its end are read ahead first. -/
theorem readAhead_of_spells {bits : Bits} (hspells : Spells s s.hid.rpos bits)
    (hfits : s.hid.rpos + bits.length ≤ 8 * s.hid.latLen.toNat) (hk : bits.length ≤ k) :
    ∃ rest, readAhead k s = bits ++ rest := by
  obtain ⟨more, hmore⟩ := Nat.exists_eq_add_of_le (show bits.length ≤ min k (8 * s.hid.latLen.toNat - s.hid.rpos) by omega)
  rw [readAhead_eq_streamBits, hmore, streamBits_add, spells_iff.1 hspells]
  exact ⟨_, rfl⟩

end Stream

/-! ### Bytes in the stream -/

theorem natBits_eq_map (k v : Nat) : natBits k v = (List.range k).map fun j => v.testBit (k - 1 - j) := by
  induction k with
  | zero => rfl
  | succ k ih =>
    rw [natBits, ih, List.range_succ_eq_map, List.map_cons, List.map_map]
    refine congrArg _ (List.map_congr_left fun j _ => congrArg v.testBit ?_)
    simp only [Nat.succ_eq_add_one]
    omega

theorem bitsValue_append (xs ys : Bits) : bitsValue (xs ++ ys) = bitsValue xs * 2 ^ ys.length + bitsValue ys := by
  rw [bitsValue, List.foldl_append, bitsValue_foldl, ← bitsValue]

/-- Byte `a` of ART stands in the stream most significant bit first (20_memory.md R63). -/
theorem streamBits_byte (s : State) (a : Nat) : streamBits s (8 * a) 8 = bitsOf (readArt s a) := by
  rw [bitsOf, natBits_eq_map, streamBits]
  refine List.map_congr_left fun j hj => ?_
  have hj : j < 8 := List.mem_range.1 hj
  have hbyte : (8 * a + j) / 8 = a ∧ 7 - (8 * a + j) % 8 = 8 - 1 - j := by omega
  rw [streamBit, hbyte.1, hbyte.2, BitVec.getLsbD]

/-! ### The stage HDR (43_commands.md R247, R248) -/

section HeaderStage

variable {s : State}

theorem fetchToken_of_error {f : Format} (hfits : s.hid.latLen.toNat ≤ s.caps.artCap)
    (hdec : decode f (readAhead f.maxLength s) = .error .endOfStream) :
    fetchToken f s = .done (.next (streamEnd f s)) := by
  simp only [fetchToken, if_neg (Nat.not_lt_of_le hfits), hdec]

theorem streamEnd_of_other {f : Format} (hf : f ≠ .treeToken) (s : State) :
    streamEnd f s = raise .sym .truncatedInput s := if_neg fun h => hf h.1

theorem step_hdr_of_too_long (hin : s.inputs = []) (hseq : s.seq = .hdr) (hlong : s.caps.artCap < s.hid.latLen.toNat) :
    step s = .next (raise .sym .capacityExceeded s) :=
  step_coreTurn_done hin ((coreTurn_hdr hseq).trans (if_pos hlong))

/-- Fewer than four bytes hold no header. -/
theorem step_hdr_of_short (hin : s.inputs = []) (hseq : s.seq = .hdr) (hfits : s.hid.latLen.toNat ≤ s.caps.artCap)
    (hshort : s.hid.latLen.toNat < 4) :
    step s = .next (raise .sym .truncatedInput { s with hid := { s.hid with rpos := 0 } }) := by
  have hlen : ¬ 32 ≤ (readAhead 32 { s with hid := { s.hid with rpos := 0 } }).length := by
    rw [readAhead_length]
    change ¬ 32 ≤ min 32 (8 * s.hid.latLen.toNat - 0)
    omega
  have hdec : decode .artifactHeader (readAhead 32 { s with hid := { s.hid with rpos := 0 } }) = .error .endOfStream := by
    rw [decode, takeWord, if_neg hlen]
  have hturn := (coreTurn_hdr hseq).trans ((headerFetch_of_fits hfits).trans
    (fetchToken_of_error (s := { s with hid := { s.hid with rpos := 0 } }) hfits hdec))
  rw [step_coreTurn_done hin hturn, streamEnd_of_other (by decide)]

/-- A word at the front of the stream is the header (30_encoding.md R103). -/
theorem step_hdr_of_word {c : Word} (hin : s.inputs = []) (hseq : s.seq = .hdr)
    (hfits : s.hid.latLen.toNat ≤ s.caps.artCap) (hlong : 4 ≤ s.hid.latLen.toNat) (hword : Spells s 0 (bitsOf c)) :
    step s = exec (.header c) { s with hid := { s.hid with rpos := 32 } } := by
  have hroom : (bitsOf c).length ≤ 8 * s.hid.latLen.toNat := by
    rw [bitsOf_length]
    omega
  obtain ⟨rest, hread⟩ := readAhead_of_spells (s := { s with hid := { s.hid with rpos := 0 } }) (k := 32) hword
    (by simpa using hroom) (bitsOf_length c).le
  have hdec := decode_artifactHeader_bitsOf c rest
  rw [← hread] at hdec
  exact step_run ((nextEvent_none hin).trans (coreTurn_hdr_of_decode hfits hseq hdec))

/-- Four bytes spell the big-endian word they are the digits of (30_encoding.md R103). -/
theorem spells_bigEndian {c : Word} (hc : c.toNat = (readArt s 0).toNat * 2 ^ 24 + (readArt s 1).toNat * 2 ^ 16
    + (readArt s 2).toNat * 2 ^ 8 + (readArt s 3).toNat) : Spells s 0 (bitsOf c) := by
  have hbits : streamBits s 0 32 = bitsOf (readArt s 0) ++ bitsOf (readArt s 1) ++ bitsOf (readArt s 2)
      ++ bitsOf (readArt s 3) := by
    rw [show (32 : Nat) = 8 + 8 + 8 + 8 from rfl, streamBits_add, streamBits_add, streamBits_add]
    exact congrArg₂ _ (congrArg₂ _ (congrArg₂ _ (streamBits_byte s 0) (streamBits_byte s 1)) (streamBits_byte s 2))
      (streamBits_byte s 3)
  have hvalue : bitsValue (streamBits s 0 32) = c.toNat := by
    simp only [hbits, bitsValue_append, bitsValue_bitsOf, bitsOf_length, hc]
    omega
  rw [spells_iff, bitsOf_length, ← bitsOf_bitsValue (streamBits_length s 0 32), hvalue, BitVec.ofNat_toNat,
    BitVec.setWidth_eq]

end HeaderStage

/-- Settles O15: the length check, the short stream, and the word the first four bytes spell. -/
theorem headerStageRule : Obligations.HeaderStageRule := by
  unfold Obligations.HeaderStageRule
  intro s hin hseq
  refine ⟨fun hlong => ⟨_, step_hdr_of_too_long hin hseq hlong, raise_decodeFailed .capacityExceeded s s.hid⟩,
    fun hfits hshort => ⟨_, step_hdr_of_short hin hseq hfits hshort, raise_decodeFailed .truncatedInput s _⟩,
    fun hfits hlong c hc => ?word⟩
  have hstep := step_hdr_of_word hin hseq hfits hlong (spells_bigEndian hc)
  refine ⟨hstep, ?empty, fun hlarge => ⟨_, hstep.trans (exec_header_of_large hlarge),
    raise_decodeFailed .capacityExceeded s _⟩⟩
  rintro rfl
  exact ⟨_, hstep, ⟨rfl, rfl, rfl, rfl⟩, rfl, rfl⟩

/-! ### The errors of DESER_TREE at one token (41_tree_codec.md R187) -/

section TreeErrors

variable {s : State} {j : Nat}

theorem leafPrefix_succ (s : State) (j : Nat) : leafPrefix s (j + 1) =
    leafPrefix s j ++ [BitVec.ofNat 8 (bitsValue (streamBits s (s.hid.rpos + 1 + 8 * j) 8))] := by
  rw [leafPrefix, List.range_succ (n := j), List.map_append]
  rfl

/-- The bytes of `leafPrefix` are the stream's bits behind the tag bit. -/
theorem leafPrefix_bits (s : State) (j : Nat) :
    (leafPrefix s j).flatMap bitsOf = streamBits s (s.hid.rpos + 1) (8 * j) := by
  induction j with
  | zero => rfl
  | succ j ih =>
    rw [leafPrefix_succ, List.flatMap_append, ih, List.flatMap_singleton, bitsOf_bitsValue (streamBits_length ..),
      Nat.mul_succ, streamBits_add]

@[simp] theorem leafPrefix_length (s : State) (j : Nat) : (leafPrefix s j).length = j := by simp [leafPrefix]

theorem noValidPrefix_leafPrefix (h : ∀ m, 1 ≤ m → m ≤ j → utf8ValidSingle (leafPrefix s m) = false) :
    NoValidPrefix (leafPrefix s j) := by
  induction j with
  | zero => exact noValidPrefix_nil
  | succ j ih =>
    have hsucc := h (j + 1) (Nat.succ_pos j) (Nat.le_refl _)
    rw [leafPrefix_succ] at hsucc ⊢
    exact noValidPrefix_concat.2 ⟨ih fun m hm hmj => h m hm (Nat.le_succ_of_le hmj), hsucc⟩

/-- With the tag bit of a leaf read, what is read ahead is that bit and the bits behind it, up to the stream's end. -/
theorem readAhead_leaf (hleft : s.hid.rpos < 8 * s.hid.latLen.toNat) (htag : streamBit s s.hid.rpos = true) :
    readAhead 33 s = true :: streamBits s (s.hid.rpos + 1) (min 32 (8 * s.hid.latLen.toNat - (s.hid.rpos + 1))) := by
  have hmin : min 33 (8 * s.hid.latLen.toNat - s.hid.rpos)
      = min 32 (8 * s.hid.latLen.toNat - (s.hid.rpos + 1)) + 1 := by omega
  rw [readAhead_eq_streamBits, hmin, streamBits_succ, htag]

/-- After `j` bytes of which no beginning validates, the loop of R186 misses the next byte. -/
theorem decodeTree_of_missing_byte (hj : j < 4) (hleft : s.hid.rpos < 8 * s.hid.latLen.toNat)
    (htag : streamBit s s.hid.rpos = true) (hthere : s.hid.rpos + 1 + 8 * j ≤ 8 * s.hid.latLen.toNat)
    (hmissing : 8 * s.hid.latLen.toNat < s.hid.rpos + 1 + 8 * (j + 1)) (hnone : NoValidPrefix (leafPrefix s j)) :
    decodeTree (readAhead 33 s) = .error .endOfStream := by
  obtain ⟨more, hmore, hfew⟩ : ∃ more, min 32 (8 * s.hid.latLen.toNat - (s.hid.rpos + 1)) = 8 * j + more ∧ more < 8 :=
    ⟨_, (Nat.add_sub_of_le (show 8 * j ≤ _ by omega)).symm, by omega⟩
  have hskip := readLeaf_skip (4 - j) (streamBits s (s.hid.rpos + 1 + 8 * j) more) (sofar := []) (more := leafPrefix s j) hnone
  rw [leafPrefix_length, Nat.sub_add_cancel hj.le, leafPrefix_bits, ← streamBits_add, ← hmore] at hskip
  obtain ⟨fuel, hfuel⟩ : ∃ fuel, 4 - j = fuel + 1 := ⟨3 - j, by omega⟩
  have hnobyte : takeByte (streamBits s (s.hid.rpos + 1 + 8 * j) more) = none := by
    rw [takeByte, if_neg (by simpa using hfew)]
  rw [readAhead_leaf hleft htag]
  refine decodeTree_of_endOfStream (hskip.trans ?_)
  rw [hfuel, readLeaf, hnobyte]

/-- Four bytes of which no beginning validates are a TREE_LEAF_INVALID. -/
theorem decodeTree_of_invalid_bytes (hthere : s.hid.rpos + 33 ≤ 8 * s.hid.latLen.toNat)
    (htag : streamBit s s.hid.rpos = true) (hnone : NoValidPrefix (leafPrefix s 4)) :
    ∃ b len, decodeTree (readAhead 33 s) = .ok (.treeLeafInvalid b, len) := by
  have hmin : min 32 (8 * s.hid.latLen.toNat - (s.hid.rpos + 1)) = 8 * 4 := by omega
  have hread := readLeaf_of_noValidPrefix hnone (leafPrefix_length s 4) []
  rw [List.append_nil, leafPrefix_bits, ← hmin] at hread
  rw [readAhead_leaf (by omega) htag]
  exact ⟨_, _, decodeTree_of_invalid hread⟩

theorem step_deserTree_of_error (hin : s.inputs = []) (hseq : s.seq = .deserTree)
    (hfits : s.hid.latLen.toNat ≤ s.caps.artCap) (hdec : decodeTree (readAhead 33 s) = .error .endOfStream) :
    step s = .next (streamEnd .treeToken s) :=
  step_coreTurn_done hin ((coreTurn_deserTree hseq).trans (fetchToken_of_error hfits hdec))

theorem streamEnd_of_room (f : Format) (h : s.hid.ncount ≠ s.caps.nodeCap) :
    streamEnd f s = raise .sym .truncatedInput s := if_neg fun hfull => h hfull.2.2

/-- With the tag bit read, a full store is found whatever follows. -/
theorem step_deserTree_of_full (hin : s.inputs = []) (hseq : s.seq = .deserTree)
    (hfits : s.hid.latLen.toNat ≤ s.caps.artCap) (hleft : s.hid.rpos < 8 * s.hid.latLen.toNat)
    (hfull : s.hid.ncount = s.caps.nodeCap) : ∃ h, step s = .next (raise .sym .capacityExceeded { s with hid := h }) := by
  have hevent := (nextEvent_none hin).trans (coreTurn_deserTree hseq)
  rcases fetchToken_cases .treeToken s with ⟨hout, -⟩ | ⟨-, ⟨i, len, hdec, hfetch⟩ | hfetch⟩
  · exact absurd hfits (Nat.not_le_of_lt hout)
  · exact ⟨_, (step_run (hevent.trans hfetch)).trans (exec_treeToken_of_full (decode_format hdec).1 hfull)⟩
  · refine ⟨s.hid, (step_done (hevent.trans hfetch)).trans (congrArg _ (if_pos ⟨rfl, ?_, hfull⟩))⟩
    rw [readAhead_one_of_left hleft]
    exact List.cons_ne_nil _ _

end TreeErrors

/-- Settles O20: the tag bit first, then the store, then the leaf's bytes. -/
theorem deserErrorOrder : Obligations.DeserErrorOrder := by
  unfold Obligations.DeserErrorOrder
  intro s hin hseq hfits
  refine ⟨fun hend => ⟨_, ?noTag, raise_decodeFailed .truncatedInput s s.hid⟩, fun hleft hfull => ?full,
    fun hroom hleft htag => ⟨fun j hj hthere hmissing hnone => ⟨_, ?missing, raise_decodeFailed .truncatedInput s s.hid⟩,
      fun hthere hnone => ?invalid⟩⟩
  case noTag =>
    have hnoBits : readAhead 33 s = [] := readAhead_of_end 33 hend
    have hnoTag : readAhead 1 s = [] := readAhead_of_end 1 hend
    rw [step_deserTree_of_error hin hseq hfits (by rw [hnoBits]; rfl), streamEnd, if_neg fun h => h.2.1 hnoTag]
  case full =>
    obtain ⟨h, hstep⟩ := step_deserTree_of_full hin hseq hfits hleft hfull
    exact ⟨_, hstep, raise_decodeFailed .capacityExceeded s h⟩
  case missing =>
    have hdec := decodeTree_of_missing_byte hj hleft htag hthere hmissing (noValidPrefix_leafPrefix hnone)
    rw [step_deserTree_of_error hin hseq hfits hdec, streamEnd_of_room _ hroom]
  case invalid =>
    obtain ⟨b, len, hdec⟩ := decodeTree_of_invalid_bytes hthere htag (noValidPrefix_leafPrefix hnone)
    have hstep := step_run ((nextEvent_none hin).trans (coreTurn_deserTree_of_decode hfits hseq hdec))
    exact ⟨_, hstep.trans (exec_treeLeafInvalid_of_room b hroom), raise_decodeFailed .invalidSymbolEncoding s _⟩

end Sys2Proof.Proofs
end

section
/-! PROOF. COUNT (40_frequency_and_tree.md R140, R141): everything one turn can do, the loop invariant, and what the loop
leaves: FREQ as the counts of the list of words read. -/

namespace Sys2Proof.Proofs

open Sys2Proof Sys2Proof.Machine

/-! ### Which stage a turn leads to -/

section Stages

variable {s t : State}

/-- After the core's turn the command has ended, or one of the stages that can follow is reached. -/
theorem seq_of_coreTurn (h : CoreTurn s t) : t.seq = .idle ∨ t.seq ∈ nextStages s.seq := by
  cases h with
  | rests idle => exact .inl idle
  | fails | succeeds | emptyInput => exact .inl rfl
  | goesOn stage h follows => exact .inr follows
  | emits bits h emitting fits =>
    rw [emitBits_frame]
    rcases emitting with hseq | hseq <;> simp [hseq, nextStages]
  | writesSym i v h inText inside => simp [inText, nextStages]

theorem count_of_follows (a : Seq) : .count ∈ nextStages a → a = .count := by cases a <;> decide

/-- A stage of ENCODE follows only a stage of ENCODE. -/
theorem encodeStages_of_follows (a : Seq) : ∀ b ∈ nextStages a, b ∈ encodeStages → a ∈ encodeStages := by
  cases a <;> decide

/-- A stage of DECODE follows only a stage of DECODE. -/
theorem decodeStages_of_follows (a : Seq) : ∀ b ∈ nextStages a, b ∈ decodeStages → a ∈ decodeStages := by
  cases a <;> decide

end Stages

/-! ### Everything a turn of COUNT can do (R140) -/

/-- Each turn first copies `lat_len` to `n` (43_commands.md R242, log entry 19). -/
def withLength (s : State) : State := { s with hid := { s.hid with n := s.hid.latLen.toNat } }

/-- What a turn of COUNT can make of `s`: an error; the end on an empty input (R243); one more word counted; the end of the
loop. -/
inductive CountTurn (s : State) : State → Prop where
  | fails (e : CommandError) (h : Hidden) : CountTurn s (raise .art e { s with hid := h })
  | empty (zero : s.hid.latLen = 0#32) :
      CountTurn s (encodeEmpty (withLength s))
  | counts (c : Scalar) (m : Count) (inRange : s.hid.latLen.toNat ≤ s.caps.symCap) (more : s.hid.idx < s.hid.latLen.toNat)
      (scalar : isScalar c.toNat = true) (word : readSym s s.hid.idx = symbolWord c)
      (old : m = (Table.get BitVec.toNat c s.hid.freq).getD 0#32 + 1#32)
      (room : Table.get BitVec.toNat c s.hid.freq = none → s.hid.freq.length ≠ s.caps.leafCap) :
      CountTurn s (tally c m (withLength s))
  | ends (inRange : s.hid.latLen.toNat ≤ s.caps.symCap) (nonempty : s.hid.latLen ≠ 0#32)
      (last : s.hid.latLen.toNat ≤ s.hid.idx) :
      CountTurn s { s with seq := .build, hid := { s.hid with n := s.hid.latLen.toNat, k := s.hid.freq.length } }

/-- A scalar value's word is the word of the symbol it holds (30_encoding.md R114). -/
theorem symbolWord_setWidth {w : Word} (h : isScalar w.toNat = true) : symbolWord (w.setWidth 21) = w := by
  have hlt : w.toNat < 2 ^ 21 := by
    simp only [isScalar, Bool.or_eq_true, Bool.and_eq_true, decide_eq_true_eq] at h
    omega
  refine BitVec.eq_of_toNat_eq ?_
  simp only [symbolWord, BitVec.toNat_setWidth]
  omega

theorem isScalar_setWidth {w : Word} (h : isScalar w.toNat = true) : isScalar (w.setWidth 21).toNat = true := by
  rwa [← symbolWord_setWidth h, symbolWord, BitVec.toNat_setWidth_of_le (by decide)] at h

theorem symbolWord_inj {c d : Scalar} : symbolWord c = symbolWord d ↔ c = d := by
  refine ⟨fun h => BitVec.eq_of_toNat_eq ?_, congrArg _⟩
  have hnat := congrArg BitVec.toNat h
  simp only [symbolWord, BitVec.toNat_setWidth] at hnat
  omega

section CountTurns

variable {s : State}

theorem countSymbol_turn (inRange : s.hid.latLen.toNat ≤ s.caps.symCap) (more : s.hid.idx < s.hid.latLen.toNat) :
    CountTurn s (countSymbol (withLength s)) := by
  cases hscalar : isScalar (readSym s s.hid.idx).toNat with
  | false =>
    rw [countSymbol_of_not_scalar (s := withLength s) hscalar]
    exact .fails _ _
  | true =>
    have hcounts := fun m => CountTurn.counts (s := s) ((readSym s s.hid.idx).setWidth 21) m inRange more
      (isScalar_setWidth hscalar) (symbolWord_setWidth hscalar).symm
    cases hold : Table.get BitVec.toNat ((readSym s s.hid.idx).setWidth 21) s.hid.freq with
    | some m =>
      rw [countSymbol_of_counted (s := withLength s) hscalar hold]
      exact hcounts _ (by rw [hold]; rfl) fun hnone => nomatch hold.symm.trans hnone
    | none =>
      by_cases hfull : s.hid.freq.length = s.caps.leafCap
      · rw [countSymbol_of_full (s := withLength s) hscalar hold hfull]
        exact .fails _ _
      · rw [countSymbol_of_new (s := withLength s) hscalar hold hfull]
        exact hcounts _ (by rw [hold]; rfl) fun _ => hfull

theorem countStep_turn (s : State) : ∃ t, countStep s = .next t ∧ CountTurn s t := by
  by_cases inRange : s.hid.latLen.toNat ≤ s.caps.symCap
  · by_cases zero : s.hid.latLen = 0#32
    · exact ⟨_, countStep_of_empty zero, .empty zero⟩
    · by_cases more : s.hid.idx < s.hid.latLen.toNat
      · exact ⟨_, countStep_of_turn inRange more, countSymbol_turn inRange more⟩
      · exact ⟨_, countStep_of_end inRange zero (Nat.le_of_not_lt more), .ends inRange zero (Nat.le_of_not_lt more)⟩
  · exact ⟨_, countStep_of_too_long (Nat.lt_of_not_le inRange), .fails _ _⟩

end CountTurns

/-! ### The loop invariant -/

section Invariant

variable {s t : State}

theorem occurrences_succ (s : State) (m : Nat) (c : Scalar) :
    occurrences s (m + 1) c = occurrences s m c + if readSym s m = symbolWord c then 1 else 0 := by
  rw [occurrences, List.range_succ, List.filter_append, List.length_append, ← occurrences]
  by_cases h : readSym s m = symbolWord c <;> simp [h]

theorem occurrences_le (s : State) (m : Nat) (c : Scalar) : occurrences s m c ≤ m := by
  simpa [occurrences] using List.length_filter_le (fun i => decide (readSym s i = symbolWord c)) (List.range m)

/-- What FREQ holds for a scalar value, with 0 where it holds nothing. -/
theorem freq_getD (h : Counting s) {c : Scalar} (hc : isScalar c.toNat = true) :
    (Table.get BitVec.toNat c s.hid.freq).getD 0#32 = BitVec.ofNat 32 (occurrences s s.hid.idx c) := by
  rw [h.counts c hc]
  split
  case isTrue hzero => rw [hzero]; rfl
  case isFalse => rfl

/-- A new key finds room, an old one needs none. -/
theorem freq_put_length (h : Counting s) {c : Scalar} (m : Count)
    (room : Table.get BitVec.toNat c s.hid.freq = none → s.hid.freq.length ≠ s.caps.leafCap) :
    (Table.put BitVec.toNat c m s.hid.freq).length ≤ s.caps.leafCap := by
  have hle : s.hid.freq.length ≤ s.caps.leafCap := h.size_le
  cases hold : Table.get BitVec.toNat c s.hid.freq with
  | some v => rwa [Table.length_put_old h.sorted hold]
  | none =>
    rw [Table.length_put_new hold]
    exact Nat.lt_of_le_of_ne hle (room hold)

theorem counting_tally (h : Counting s) {c : Scalar} {m : Count} (inRange : s.hid.latLen.toNat ≤ s.caps.symCap)
    (more : s.hid.idx < s.hid.latLen.toNat) (scalar : isScalar c.toNat = true)
    (word : readSym s s.hid.idx = symbolWord c) (old : m = (Table.get BitVec.toNat c s.hid.freq).getD 0#32 + 1#32)
    (room : Table.get BitVec.toNat c s.hid.freq = none → s.hid.freq.length ≠ s.caps.leafCap) :
    Counting (tally c m (withLength s)) where
  sorted := Table.put_sorted h.sorted
  size_le := freq_put_length h m room
  idx_le := more
  in_range := .inr inRange
  scalars i hi := by
    change i < s.hid.idx + 1 at hi
    change isScalar (readSym s i).toNat = true
    rcases Nat.lt_succ_iff_lt_or_eq.1 hi with hlt | rfl
    · exact h.scalars i hlt
    · rwa [word, symbolWord, BitVec.toNat_setWidth_of_le (by decide)]
  counts d hd := by
    change Table.get BitVec.toNat d (Table.put BitVec.toNat c m s.hid.freq) = if occurrences s (s.hid.idx + 1) d = 0 then
      none else some (BitVec.ofNat 32 (occurrences s (s.hid.idx + 1) d))
    rw [occurrences_succ, word]
    by_cases hdc : d = c
    · subst hdc
      rw [Table.get_put_same, if_pos rfl, if_neg (Nat.succ_ne_zero _), old, freq_getD h hd, BitVec.ofNat_add]
    · rw [Table.get_put_other (mt BitVec.eq_of_toNat_eq hdc), h.counts d hd, if_neg (mt symbolWord_inj.1 (Ne.symm hdc)),
        Nat.add_zero]
  keys e he := by
    rcases Table.mem_put he with rfl | he
    · exact scalar
    · exact h.keys e he

/-- An accepted ENCODE has counted nothing yet (43_commands.md R241). -/
theorem counting_accept (v : Word) (s : State) : Counting (accept v .count s) where
  sorted := List.Pairwise.nil
  size_le := Nat.zero_le _
  idx_le := Nat.zero_le _
  in_range := .inl rfl
  scalars i hi := absurd hi (Nat.not_lt_zero i)
  counts _ _ := rfl
  keys _ he := absurd he List.not_mem_nil

theorem countOk_of_countTurn (h : Counting s) (hturn : CountTurn s t) : CountOk t := by
  cases hturn with
  | fails e h' => exact countOk_of_idle rfl
  | empty zero => exact countOk_of_idle rfl
  | counts c m inRange more scalar word old room => exact fun _ => counting_tally h inRange more scalar word old room
  | ends inRange nonempty last => exact fun hseq => nomatch hseq

/-- Only COUNT's own turns reach COUNT. -/
theorem countOk_of_coreStep (h : CountOk s) (hstep : coreStep s = .next t) : CountOk t := by
  by_cases hseq : s.seq = .count
  · obtain ⟨u, hu, hturn⟩ := countStep_turn s
    rw [coreStep_count hseq, hu] at hstep
    cases hstep
    exact countOk_of_countTurn (h hseq) hturn
  · rcases seq_of_coreTurn (coreTurn_of_coreStep hstep) with hidle | hnext
    · exact countOk_of_idle hidle
    · exact fun ht => absurd (count_of_follows s.seq (ht ▸ hnext)) hseq

/-- COUNT reads SYM, so the host must not write it: it cannot while BUSY. -/
theorem countOk_of_hostTurn (hregs : RegistersOk s) (h : CountOk s) (hturn : HostTurn s t) : CountOk t := by
  have hidle : s.busy = false → s.seq = .idle := hregs.idle_iff.2
  cases hturn with
  | registers inLen inputs busData endShown unseen =>
    exact fun hseq => ⟨(h hseq).sorted, (h hseq).size_le, (h hseq).idx_le, (h hseq).in_range, (h hseq).scalars,
      (h hseq).counts, (h hseq).keys⟩
  | symWrite i v rest idle => exact countOk_of_idle (hidle idle)
  | artWrite a b rest idle => exact countOk_of_idle (hidle idle)
  | accepts v stage rest idle first =>
    rcases first with rfl | rfl
    · exact fun _ => counting_accept v _
    · exact fun hseq => nomatch hseq
  | illegal rest idle => exact countOk_of_idle (hidle idle)
  | reset rest => exact countOk_of_idle rfl

end Invariant

/-- Settles O33: a turn of COUNT counts the word at `idx`, and no other step touches what the invariant speaks of. -/
theorem countInvariant : Obligations.CountInvariant := by
  unfold Obligations.CountInvariant
  intro s t hregs h hstep
  exact step_keeps (P := fun _ => CountOk) hstep (fun t => countOk_of_hostTurn hregs h) fun rest t hcore =>
    countOk_of_coreStep (s := { s with inputs := rest }) (fun hseq => ⟨(h hseq).sorted, (h hseq).size_le, (h hseq).idx_le,
      (h hseq).in_range, (h hseq).scalars, (h hseq).counts, (h hseq).keys⟩) hcore

/-! ### What COUNT leaves (R141) -/

/-- The symbols of the first `m` words of SYM. -/
def symbolsRead (s : State) (m : Nat) : List Scalar := (List.range m).map fun i => (readSym s i).setWidth 21

section Result

variable {s : State}

theorem count_symbolsRead {m : Nat} (h : ∀ i, i < m → isScalar (readSym s i).toNat = true) (c : Scalar) :
    (symbolsRead s m).count c = occurrences s m c := by
  rw [symbolsRead, List.count, List.countP_map, occurrences, ← List.countP_eq_length_filter]
  refine List.countP_congr fun i hi => ?_
  have hword := symbolWord_setWidth (h i (List.mem_range.1 hi))
  simp only [Function.comp, beq_iff_eq, decide_eq_true_eq]
  rw [← symbolWord_inj, hword]

/-- A key's count is its number of occurrences, which is not 0 and fits the counter. -/
theorem count_of_mem_freq (h : Counting s) {e : Scalar × Count} (he : e ∈ s.hid.freq) :
    e.2.toNat = (symbolsRead s s.hid.idx).count e.1 ∧ 1 ≤ e.2.toNat := by
  have hget := Table.get_of_mem (k := e.1) (v := e.2) h.sorted he
  rw [h.counts e.1 (h.keys e he), ← count_symbolsRead h.scalars] at hget
  have hle : (symbolsRead s s.hid.idx).count e.1 ≤ s.hid.latLen.toNat := by
    rw [count_symbolsRead h.scalars]
    exact Nat.le_trans (occurrences_le s s.hid.idx e.1) h.idx_le
  have hlt := s.hid.latLen.isLt
  split at hget
  · cases hget
  · rw [← Option.some.inj hget, BitVec.toNat_ofNat, Nat.mod_eq_of_lt (Nat.lt_of_le_of_lt hle hlt)]
    exact ⟨rfl, Nat.one_le_iff_ne_zero.2 ‹_›⟩

theorem freq_keys_nodup {freq : Table Scalar Count} (h : Table.Sorted BitVec.toNat freq) : (freq.map Prod.fst).Nodup :=
  List.pairwise_map.2 (h.imp fun hlt heq => Nat.ne_of_lt hlt (congrArg _ heq))

theorem mem_freq_keys (h : Counting s) (c : Scalar) : c ∈ s.hid.freq.map Prod.fst ↔ c ∈ symbolsRead s s.hid.idx := by
  constructor
  · intro hc
    obtain ⟨e, he, rfl⟩ := List.mem_map.1 hc
    obtain ⟨hcount, hpos⟩ := count_of_mem_freq h he
    exact List.count_pos_iff.1 (by omega)
  · intro hc
    have hscalar : isScalar c.toNat = true := by
      obtain ⟨i, hi, rfl⟩ := List.mem_map.1 hc
      exact isScalar_setWidth (h.scalars i (List.mem_range.1 hi))
    have hget := h.counts c hscalar
    rw [← count_symbolsRead h.scalars, if_neg (Nat.ne_of_gt (List.count_pos_iff.2 hc))] at hget
    obtain ⟨a, ha, hmem⟩ := Table.mem_of_get hget
    exact List.mem_map.2 ⟨_, hmem, BitVec.eq_of_toNat_eq ha⟩

/-- Summing over FREQ, each key with its count, is summing over the words read. -/
theorem sum_freq (h : Counting s) (f : Scalar → Nat) :
    (s.hid.freq.map fun e => e.2.toNat * f e.1).sum = ((symbolsRead s s.hid.idx).map f).sum := by
  have hkeys : (s.hid.freq.map Prod.fst).toFinset = (symbolsRead s s.hid.idx).toFinset := by
    ext c
    simpa using mem_freq_keys h c
  calc (s.hid.freq.map fun e => e.2.toNat * f e.1).sum
      = ((s.hid.freq.map Prod.fst).map fun c => (symbolsRead s s.hid.idx).count c • f c).sum := by
        rw [List.map_map]
        exact congrArg List.sum (List.map_congr_left fun e he => by rw [(count_of_mem_freq h he).1]; rfl)
    _ = ((symbolsRead s s.hid.idx).map f).sum := by
        rw [← List.sum_toFinset _ (freq_keys_nodup h.sorted), hkeys, Finset.sum_list_map_count]

theorem sum_freq_counts (h : Counting s) : (s.hid.freq.map fun e => e.2.toNat).sum = s.hid.idx := by
  simpa [symbolsRead, Function.comp_def] using sum_freq h fun _ => 1

theorem freq_length_le (h : Counting s) : s.hid.freq.length ≤ s.hid.idx := by
  have hsum := List.card_nsmul_le_sum (s.hid.freq.map fun e => e.2.toNat) 1 (by
    intro m hm
    obtain ⟨e, he, rfl⟩ := List.mem_map.1 hm
    exact (count_of_mem_freq h he).2)
  rw [sum_freq_counts h] at hsum
  simpa using hsum

end Result

/-- Settles O34: FREQ's keys are the symbols of the words read, all of them read at the end of the loop. -/
theorem countResult : Obligations.CountResult := by
  unfold Obligations.CountResult
  intro s t hin hseq h hstep hbuild
  obtain ⟨u, hu, hturn⟩ := countStep_turn s
  rw [step_coreTurn_done hin (coreTurn_count hseq), hu] at hstep
  cases hstep
  cases hturn with
  | fails | empty => exact nomatch hbuild
  | counts => exact nomatch hseq.symm.trans hbuild
  | ends inRange nonempty last =>
    have hidx : s.hid.latLen.toNat = s.hid.idx := Nat.le_antisymm last h.idx_le
    have hpos : 0 < s.hid.idx := by
      rw [← hidx]
      exact Nat.pos_of_ne_zero fun hzero => nonempty (BitVec.eq_of_toNat_eq hzero)
    have hkey : ∀ i, i < s.hid.idx → (readSym s i).setWidth 21 ∈ s.hid.freq.map Prod.fst := fun i hi =>
      (mem_freq_keys h _).2 (List.mem_map.2 ⟨i, List.mem_range.2 hi, rfl⟩)
    refine ⟨h.sorted, fun i hi => ⟨(readSym s i).setWidth 21, ?word, ?key⟩, fun c m hget => ?count, ?sum, rfl, rfl, ?one,
      Nat.le_min.2 ⟨?short, h.size_le⟩⟩
    all_goals simp only [hidx] at *
    case word => exact (symbolWord_setWidth (h.scalars i hi)).symm
    case key =>
      obtain ⟨e, he, hc⟩ := List.mem_map.1 (hkey i hi)
      rw [← hc, Table.get_of_mem h.sorted he]
      rfl
    case count =>
      obtain ⟨a, ha, hmem⟩ := Table.mem_of_get hget
      obtain rfl : a = c := BitVec.eq_of_toNat_eq ha
      obtain ⟨hcount, hpos⟩ := count_of_mem_freq h hmem
      exact ⟨hcount.trans (count_symbolsRead h.scalars a), hpos⟩
    case sum => exact sum_freq_counts h
    case one =>
      obtain ⟨e, he, -⟩ := List.mem_map.1 (hkey 0 hpos)
      exact List.length_pos_of_mem he
    case short => exact freq_length_le h

end Sys2Proof.Proofs
end

section
/-! PROOF. BUILD (40_frequency_and_tree.md R142 to R145): from the leaves on, each merge keeps the shape of a forest whose
roots are the entries of PQ, and the last root's tree is what the stages after BUILD traverse. -/

namespace Sys2Proof.Proofs

open Sys2Proof Sys2Proof.Machine

/-! ### The invariants look at few registers -/

/-- The tree's nodes, its keys and their numbers are the same in both states. -/
structure SameNodes (s t : State) : Prop where
  k : t.hid.k = s.hid.k
  freq : t.hid.freq = s.hid.freq
  ncount : t.hid.ncount = s.hid.ncount
  nodes : t.hid.nodes = s.hid.nodes

section Same

variable {s t : State}

theorem nodeAt_of_nodes (h : t.hid.nodes = s.hid.nodes) : nodeAt t = nodeAt s := by
  funext i
  rw [nodeAt, nodeAt, h]

theorem parentOf_of_nodes (h : t.hid.nodes = s.hid.nodes) (p c : Nat) : ParentOf t p c ↔ ParentOf s p c := by
  simp only [ParentOf, nodeAt_of_nodes h]

theorem nodesBuilt_of_same (h : NodesBuilt s) (hsame : SameNodes s t) : NodesBuilt t := by
  obtain ⟨hk, hfreq, hncount, hnodes⟩ := hsame
  have hnode := nodeAt_of_nodes hnodes
  exact ⟨hk ▸ h.two_symbols, by rw [hk, hfreq]; exact h.keys_counted, hfreq ▸ h.keys_rising,
    by simpa [hnode, hfreq] using h.leaf_keys, by rw [hk, hncount]; exact h.leaves_made,
    by simpa [Present, hnode, hncount] using h.present_iff, by simpa [hnode, hk, hncount] using h.leaf_iff,
    by simpa [hnode] using h.children_below, by simpa only [parentOf_of_nodes hnodes] using h.one_parent⟩

theorem treeBuilt_of_same (h : TreeBuilt s) (hsame : SameNodes s t) (hroot : t.hid.root = s.hid.root)
    (hwalk : ∀ e ∈ t.hid.walk, e.1 < s.hid.ncount) (hser : ∀ i ∈ t.hid.ser, i < s.hid.ncount) : TreeBuilt t where
  built := nodesBuilt_of_same h.built hsame
  node_count := by rw [hsame.ncount, hsame.k]; exact h.node_count
  root_last := by rw [hroot, hsame.k]; exact h.root_last
  parentless := by simpa only [hsame.ncount, hroot, parentOf_of_nodes hsame.nodes] using h.parentless
  walk_below := hsame.ncount.symm ▸ hwalk
  ser_below := hsame.ncount.symm ▸ hser

theorem merging_of_hid (h : Merging s) (hhid : t.hid = s.hid) : Merging t where
  built := nodesBuilt_of_same h.built ⟨by rw [hhid], by rw [hhid], by rw [hhid], by rw [hhid]⟩
  balance := hhid.symm ▸ h.balance
  pq_rising := hhid.symm ▸ h.pq_rising
  pq_below := hhid.symm ▸ h.pq_below
  newest := hhid.symm ▸ h.newest
  parentless := by simpa only [hhid, parentOf_of_nodes (congrArg Hidden.nodes hhid)] using h.parentless

theorem buildOk_of_hid (h : BuildOk s) (hseq : t.seq = s.seq) (hhid : t.hid = s.hid) : BuildOk t where
  count hs := by rw [hhid]; exact h.count (hseq ▸ hs)
  build hs := by
    obtain ⟨hwalk, hser, hstart | hmerging⟩ := h.build (hseq ▸ hs)
    · exact ⟨hhid.symm ▸ hwalk, hhid.symm ▸ hser, .inl (hhid.symm ▸ hstart)⟩
    · exact ⟨hhid.symm ▸ hwalk, hhid.symm ▸ hser, .inr (merging_of_hid hmerging hhid)⟩
  tree hs := by
    have htree := h.tree (hseq ▸ hs)
    exact treeBuilt_of_same htree ⟨by rw [hhid], by rw [hhid], by rw [hhid], by rw [hhid]⟩ (by rw [hhid])
      (hhid.symm ▸ htree.walk_below) (hhid.symm ▸ htree.ser_below)

theorem buildOk_of_count (hseq : t.seq = .count) (h : t.hid.ncount = 0 ∧ t.hid.nodes = [] ∧ t.hid.walk = []
    ∧ t.hid.ser = [] ∧ Table.Sorted BitVec.toNat t.hid.freq) : BuildOk t where
  count _ := h
  build hs := nomatch hseq.symm.trans hs
  tree hs := by simp [hseq] at hs

theorem buildOk_of_merging (hseq : t.seq = .build) (hwalk : t.hid.walk = []) (hser : t.hid.ser = []) (h : Merging t) :
    BuildOk t where
  count hs := nomatch hseq.symm.trans hs
  build _ := ⟨hwalk, hser, .inr h⟩
  tree hs := by simp [hseq] at hs

theorem buildOk_of_tree (hcount : t.seq ≠ .count) (hbuild : t.seq ≠ .build) (h : TreeBuilt t) : BuildOk t :=
  ⟨fun hs => absurd hs hcount, fun hs => absurd hs hbuild, fun _ => h⟩

theorem buildOk_of_not_encode (h : t.seq ∉ encodeStages) : BuildOk t := by
  simp only [encodeStages, List.mem_cons, List.not_mem_nil, or_false, not_or] at h
  obtain ⟨hcount, hbuild, htree⟩ := h
  exact ⟨fun hs => absurd hs hcount, fun hs => absurd hs hbuild, fun hs => by simp [htree] at hs⟩

end Same

/-! ### The leaves (R142) -/

section Leaves

variable {s : State}

theorem not_internal_makeLeaves (i l r : Nat) : nodeAt (makeLeaves s) i ≠ some (.internal l r) := by
  rw [nodeAt_makeLeaves]
  cases s.hid.freq[i]? <;> simp

theorem not_parentOf_makeLeaves (p c : Nat) : ¬ ParentOf (makeLeaves s) p c :=
  fun ⟨l, r, hnode, _⟩ => not_internal_makeLeaves p l r hnode

theorem nodesBuilt_makeLeaves (hk : 2 ≤ s.hid.k) (hkeys : s.hid.k = s.hid.freq.length)
    (hsorted : Table.Sorted BitVec.toNat s.hid.freq) : NodesBuilt (makeLeaves s) where
  two_symbols := hk
  keys_counted := hkeys
  keys_rising := hsorted
  leaf_keys j hj := by
    change j < s.hid.freq.length at hj
    rw [nodeAt_makeLeaves, List.getElem?_eq_getElem hj]
    rfl
  leaves_made := Nat.le_refl _
  present_iff i := by
    change Present (makeLeaves s) i ↔ i < s.hid.k
    simp [Present, nodeAt_makeLeaves, hkeys]
  leaf_iff i hi := by
    change i < s.hid.k at hi
    exact iff_of_true hi ⟨_, by rw [nodeAt_makeLeaves, List.getElem?_eq_getElem (hkeys ▸ hi)]; rfl⟩
  children_below i l r hnode := absurd hnode (not_internal_makeLeaves i l r)
  one_parent p q c hp := absurd hp (not_parentOf_makeLeaves p c)

theorem merging_makeLeaves (hk : 2 ≤ s.hid.k) (hkeys : s.hid.k = s.hid.freq.length)
    (hsorted : Table.Sorted BitVec.toNat s.hid.freq) : Merging (makeLeaves s) where
  built := nodesBuilt_makeLeaves hk hkeys hsorted
  balance := by
    change s.hid.k + (List.range s.hid.k).length = 2 * s.hid.k
    rw [List.length_range, Nat.two_mul]
  pq_rising := List.pairwise_lt_range
  pq_below _ hi := List.mem_range.1 hi
  newest := List.mem_range.2 (Nat.sub_lt (Nat.lt_of_lt_of_le Nat.two_pos hk) Nat.one_pos)
  parentless c hc := iff_of_true (List.mem_range.2 hc) fun p => not_parentOf_makeLeaves p c

end Leaves

/-! ### A merge (R144) -/

section MergeKept

variable {s : State} {a b : Nat}

/-- The queue is the two entries taken and the others. -/
theorem perm_of_two {l : List Nat} (hnodup : l.Nodup) (ha : a ∈ l) (hb : b ∈ l) (hne : a ≠ b) :
    l.Perm (a :: b :: l.filter fun j => decide (j ≠ a ∧ j ≠ b)) := by
  refine (List.perm_ext_iff_of_nodup hnodup ?_).2 fun j => ?_
  · simp [hnodup.filter, hne]
  · by_cases hja : j = a
    · simp [hja, ha]
    · by_cases hjb : j = b
      · simp [hjb, hb]
      · simp [hja, hjb]

/-- What a merge of `a` and `b` leaves (R144). -/
def merged (a b : Nat) (s : State) : State := mergeNodes a b (withoutEntry b (withoutEntry a s))

theorem merged_pq (a b : Nat) (s : State) :
    (merged a b s).hid.pq = (s.hid.pq.filter fun j => decide (j ≠ a ∧ j ≠ b)) ++ [s.hid.ncount] := by
  rw [merged, withoutEntry_withoutEntry]
  rfl

theorem nodeAt_merged_new (a b : Nat) (s : State) : nodeAt (merged a b s) s.hid.ncount = some (.internal a b) :=
  Table.get_put_same ..

theorem nodeAt_merged_old {i : Nat} (hi : i ≠ s.hid.ncount) : nodeAt (merged a b s) i = nodeAt s i :=
  Table.get_put_other (rank := id) hi _ _

/-- A node that is not below `ncount` is not there. -/
theorem nodeAt_of_ge (h : NodesBuilt s) {i : Nat} (hi : s.hid.ncount ≤ i) : nodeAt s i = none := by
  simpa [Present] using mt (h.present_iff i).1 (Nat.not_lt_of_le hi)

/-- The merge adds the two nodes' parent and no other. -/
theorem parentOf_merged_iff (h : NodesBuilt s) (p c : Nat) :
    ParentOf (merged a b s) p c ↔ ParentOf s p c ∨ p = s.hid.ncount ∧ (c = a ∨ c = b) := by
  by_cases hp : p = s.hid.ncount
  · subst hp
    have hnone := nodeAt_of_ge h (Nat.le_refl s.hid.ncount)
    simp [ParentOf, nodeAt_merged_new, hnone]
  · simp [ParentOf, nodeAt_merged_old hp, hp]

theorem lt_of_parentOf (h : NodesBuilt s) {p c : Nat} (hp : ParentOf s p c) : c < p ∧ p < s.hid.ncount := by
  obtain ⟨l, r, hnode, hc⟩ := hp
  obtain ⟨hl, hr, -⟩ := h.children_below p l r hnode
  exact ⟨by rcases hc with rfl | rfl <;> assumption, (h.present_iff p).1 (by simp [Present, hnode])⟩

theorem nodesBuilt_merged (h : Merging s) (ha : a ∈ s.hid.pq) (hb : b ∈ s.hid.pq) (hne : a ≠ b) :
    NodesBuilt (merged a b s) where
  two_symbols := h.built.two_symbols
  keys_counted := h.built.keys_counted
  keys_rising := h.built.keys_rising
  leaf_keys j hj := by
    have hjk : j < s.hid.k := h.built.keys_counted ▸ hj
    rw [nodeAt_merged_old (Nat.ne_of_lt (Nat.lt_of_lt_of_le hjk h.built.leaves_made))]
    exact h.built.leaf_keys j hj
  leaves_made := Nat.le_succ_of_le h.built.leaves_made
  present_iff i := by
    change Present (merged a b s) i ↔ i < s.hid.ncount + 1
    by_cases hi : i = s.hid.ncount
    · subst hi
      simp [Present, nodeAt_merged_new]
    · rw [Present, nodeAt_merged_old hi, ← Present, h.built.present_iff]
      omega
  leaf_iff i hi := by
    change i < s.hid.ncount + 1 at hi
    change i < s.hid.k ↔ _
    by_cases hnew : i = s.hid.ncount
    · subst hnew
      simpa [nodeAt_merged_new] using h.built.leaves_made
    · rw [nodeAt_merged_old hnew]
      exact h.built.leaf_iff i (by omega)
  children_below i l r hnode := by
    by_cases hnew : i = s.hid.ncount
    · subst hnew
      rw [nodeAt_merged_new] at hnode
      cases hnode
      exact ⟨h.pq_below _ ha, h.pq_below _ hb, hne⟩
    · exact h.built.children_below i l r (nodeAt_merged_old hnew ▸ hnode)
  one_parent p q c hp hq := by
    have horphan : c = a ∨ c = b → ∀ p, ¬ ParentOf s p c := by
      rintro (rfl | rfl)
      · exact (h.parentless _ (h.pq_below _ ha)).1 ha
      · exact (h.parentless _ (h.pq_below _ hb)).1 hb
    rcases (parentOf_merged_iff h.built p c).1 hp with hp | ⟨rfl, hc⟩
    · rcases (parentOf_merged_iff h.built q c).1 hq with hq | ⟨rfl, hc⟩
      · exact h.built.one_parent p q c hp hq
      · exact absurd hp (horphan hc p)
    · rcases (parentOf_merged_iff h.built q c).1 hq with hq | ⟨rfl, -⟩
      · exact absurd hq (horphan hc q)
      · rfl

theorem merging_merged (h : Merging s) (ha : a ∈ s.hid.pq) (hb : b ∈ s.hid.pq) (hne : a ≠ b) : Merging (merged a b s) where
  built := nodesBuilt_merged h ha hb hne
  balance := by
    have hlen := (perm_of_two h.pq_rising.nodup ha hb hne).length_eq
    have hbalance : s.hid.ncount + s.hid.pq.length = 2 * s.hid.k := h.balance
    change s.hid.ncount + 1 + (merged a b s).hid.pq.length = 2 * s.hid.k
    rw [merged_pq, List.length_append]
    simp only [List.length_cons, List.length_nil] at hlen ⊢
    omega
  pq_rising := by
    rw [merged_pq]
    refine List.pairwise_append.2 ⟨h.pq_rising.filter _, List.pairwise_singleton .., fun i hi j hj => ?_⟩
    rw [List.mem_singleton.1 hj]
    exact h.pq_below i (List.mem_filter.1 hi).1
  pq_below i hi := by
    rw [merged_pq] at hi
    change i < s.hid.ncount + 1
    rcases List.mem_append.1 hi with hi | hi
    · exact Nat.lt_succ_of_lt (h.pq_below i (List.mem_filter.1 hi).1)
    · rw [List.mem_singleton.1 hi]
      exact Nat.lt_succ_self _
  newest := by
    rw [merged_pq]
    exact List.mem_append_right _ (List.mem_singleton_self _)
  parentless c hc := by
    change c < s.hid.ncount + 1 at hc
    have hmem : c ∈ (merged a b s).hid.pq ↔ c = s.hid.ncount ∨ c ∈ s.hid.pq ∧ c ≠ a ∧ c ≠ b := by
      rw [merged_pq]
      simp [or_comm]
    simp only [hmem, parentOf_merged_iff h.built, not_or, not_and]
    by_cases hnew : c = s.hid.ncount
    · subst hnew
      have hab : ¬ s.hid.ncount = a ∧ ¬ s.hid.ncount = b :=
        ⟨(Nat.ne_of_gt (h.pq_below a ha)), (Nat.ne_of_gt (h.pq_below b hb))⟩
      refine iff_of_true (.inl rfl) fun p => ⟨fun hp => ?_, fun _ => hab⟩
      obtain ⟨hlt, hlt'⟩ := lt_of_parentOf h.built hp
      exact Nat.lt_asymm hlt hlt'
    · rw [h.parentless c (by omega)]
      constructor
      · rintro (heq | ⟨hnone, hab⟩)
        · exact absurd heq hnew
        · exact fun p => ⟨hnone p, fun _ => hab⟩
      · exact fun hnone => .inr ⟨fun p => (hnone p).1, (hnone s.hid.ncount).2 rfl⟩

end MergeKept

/-! ### The root (R144, R145) -/

section Root

variable {s : State}

/-- BUILD's end: `r` is taken as the root, and CODES starts there. -/
def rootTaken (r : Nat) (s : State) : State :=
  { withoutEntry r s with
    seq := .codes, hid := { (withoutEntry r s).hid with root := some r, codes := [], walk := [(r, [])] } }

theorem takeRoot_of_mem {x : Nat} (hx : x ∈ s.hid.pq) : ∃ r ∈ s.hid.pq, takeRoot s = .next (rootTaken r s) := by
  obtain ⟨r, hr, -, hmin⟩ := extractMin_of_mem hx
  exact ⟨r, hr, by simp only [takeRoot, hmin]; rfl⟩

theorem treeBuilt_rootTaken (h : Merging s) (hone : ¬ 2 ≤ s.hid.pq.length) (hser : s.hid.ser = []) {r : Nat}
    (hr : r ∈ s.hid.pq) : TreeBuilt (rootTaken r s) := by
  have hbalance : s.hid.ncount + s.hid.pq.length = 2 * s.hid.k := h.balance
  have hpos := List.length_pos_of_mem hr
  have hlen : s.hid.pq.length = 1 := by omega
  obtain ⟨x, hx⟩ := List.length_eq_one_iff.1 hlen
  have hnewest := h.newest
  rw [hx, List.mem_singleton] at hnewest hr
  have htwo : 2 ≤ s.hid.k := h.built.two_symbols
  refine ⟨nodesBuilt_of_same h.built ⟨rfl, rfl, rfl, rfl⟩, ?count, ?last, fun c hc => ?parentless, fun e he => ?walk,
    fun i hi => ?ser⟩
  case count =>
    change s.hid.ncount = 2 * s.hid.k - 1
    omega
  case last =>
    change some r = some (2 * s.hid.k - 2)
    exact congrArg some (by omega)
  case parentless =>
    have hpq := h.parentless c hc
    rw [hx, List.mem_singleton, ← hr] at hpq
    rw [show (rootTaken r s).hid.root = some r from rfl, Option.some_inj, eq_comm]
    exact hpq
  case walk =>
    rw [List.mem_singleton.1 he]
    change r < s.hid.ncount
    omega
  case ser => exact absurd (hser ▸ hi) List.not_mem_nil

end Root

/-! ### The steps -/

section Steps

variable {s t : State}

/-- A sound BUILD step answers, and the next state is sound: the leaves, a merge, the root, or DegenerateAlphabet. -/
theorem buildStep_next (h : BuildOk s) (hseq : s.seq = .build) : ∃ t, buildStep s = .next t ∧ BuildOk t := by
  obtain ⟨hwalk, hser, ⟨hstart, hkeys, hsorted⟩ | hmerging⟩ := h.build hseq
  · by_cases hk : s.hid.k < 2
    · exact ⟨_, buildStep_of_degenerate hstart hk, buildOk_of_idle rfl⟩
    · have hk : 2 ≤ s.hid.k := Nat.le_of_not_lt hk
      exact ⟨_, buildStep_of_start hstart hk, buildOk_of_merging hseq hwalk hser (merging_makeLeaves hk hkeys hsorted)⟩
  · have hmade : s.hid.ncount ≠ 0 := by
      have hk := hmerging.built.two_symbols
      have hle := hmerging.built.leaves_made
      omega
    by_cases htwo : 2 ≤ s.hid.pq.length
    · obtain ⟨a, b, ha, hb, hne, -, -, hmerge⟩ := mergeStep_of_two hmerging.pq_rising.nodup htwo
      exact ⟨merged a b s, (buildStep_of_merge hmade htwo).trans hmerge,
        buildOk_of_merging hseq hwalk hser (merging_merged hmerging ha hb hne)⟩
    · obtain ⟨r, hr, htake⟩ := takeRoot_of_mem hmerging.newest
      have hbuild : buildStep s = takeRoot s := by simp only [buildStep, if_neg hmade, if_neg htwo]
      exact ⟨_, hbuild.trans htake, buildOk_of_tree (by simp [rootTaken]) (by simp [rootTaken])
        (treeBuilt_rootTaken hmerging htwo hser hr)⟩

/-- Every node the walk stands at is there, and so are its children. -/
theorem codesStep_next (h : BuildOk s) (hseq : s.seq = .codes) : ∃ t, codesStep s = .next t ∧ BuildOk t := by
  have htree := h.tree (.inl hseq)
  have hkept : ∀ (stage : Seq) (codes : Table Scalar Bits) (walk : List (Nat × Bits)), stage ≠ .count → stage ≠ .build →
      (∀ e ∈ walk, e.1 < s.hid.ncount) →
      BuildOk { s with seq := stage, hid := { s.hid with walk := walk, codes := codes } } :=
    fun stage codes walk hcount hbuild hwalk => buildOk_of_tree hcount hbuild
      (treeBuilt_of_same htree ⟨rfl, rfl, rfl, rfl⟩ rfl hwalk htree.ser_below)
  match hwalk : s.hid.walk with
  | [] =>
    exact ⟨_, codesStep_of_end hwalk, hkept .size s.hid.codes s.hid.walk (by decide) (by decide) htree.walk_below⟩
  | (i, path) :: rest =>
    obtain ⟨hi, hrest⟩ := List.forall_mem_cons.1 (hwalk ▸ htree.walk_below)
    obtain ⟨node, hnode⟩ := Option.isSome_iff_exists.1 ((htree.built.present_iff i).2 hi)
    cases node with
    | leaf c => exact ⟨_, codesStep_of_leaf hwalk hnode, hkept s.seq _ rest (by simp [hseq]) (by simp [hseq]) hrest⟩
    | internal l r =>
      obtain ⟨hl, hr, -⟩ := htree.built.children_below i l r hnode
      exact ⟨_, codesStep_of_internal hwalk hnode, hkept s.seq s.hid.codes _ (by simp [hseq]) (by simp [hseq])
        (List.forall_mem_cons.2 ⟨Nat.lt_trans hl hi, List.forall_mem_cons.2 ⟨Nat.lt_trans hr hi, hrest⟩⟩)⟩

theorem buildOk_of_countTurn (h : BuildOk s) (hseq : s.seq = .count) (hturn : CountTurn s t) : BuildOk t := by
  obtain ⟨hncount, hnodes, hwalk, hser, hsorted⟩ := h.count hseq
  cases hturn with
  | fails e h' => exact buildOk_of_idle rfl
  | empty zero => exact buildOk_of_idle rfl
  | counts c m inRange more scalar word old room =>
    exact buildOk_of_count hseq ⟨hncount, hnodes, hwalk, hser, Table.put_sorted hsorted⟩
  | ends inRange nonempty last =>
    exact ⟨nofun, fun _ => ⟨hwalk, hser, .inl ⟨hncount, rfl, hsorted⟩⟩, fun hs => by simp at hs⟩

/-- Emission and the ends of the later stages leave the tree alone. -/
theorem emit_buildOk (bits : Bits) {h : Hidden} (htree : TreeBuilt { s with hid := h }) (hcount : s.seq ≠ .count)
    (hbuild : s.seq ≠ .build) : NextSatisfies BuildOk (emit bits { s with hid := h }) := by
  refine emit_satisfies ?_
  rw [emitBits_frame]
  exact buildOk_of_tree hcount hbuild
    (treeBuilt_of_same htree ⟨rfl, rfl, rfl, rfl⟩ rfl htree.walk_below htree.ser_below)

theorem sizeStep_buildOk (htree : TreeBuilt s) : NextSatisfies BuildOk (sizeStep s) := by
  unfold sizeStep
  split
  · trivial
  · trivial
  · next root _ hroot =>
    extract_lets total
    split
    · exact buildOk_of_idle rfl
    · have hlast := hroot.symm.trans htree.root_last
      have hbelow : root < s.hid.ncount := by
        have hk := htree.built.two_symbols
        rw [Option.some.inj hlast, htree.node_count]
        omega
      exact buildOk_of_tree nofun nofun (treeBuilt_of_same htree ⟨rfl, rfl, rfl, rfl⟩ rfl htree.walk_below
        (List.forall_mem_singleton.2 hbelow))

theorem serStep_buildOk (htree : TreeBuilt s) (hseq : s.seq = .serTree) : NextSatisfies BuildOk (serStep s) := by
  have hcount : s.seq ≠ .count := by simp [hseq]
  have hbuild : s.seq ≠ .build := by simp [hseq]
  have hkept : ∀ ser, (∀ i ∈ ser, i < s.hid.ncount) → TreeBuilt { s with hid := { s.hid with ser := ser } } :=
    fun ser hser => treeBuilt_of_same htree ⟨rfl, rfl, rfl, rfl⟩ rfl htree.walk_below hser
  unfold serStep
  split
  · exact emit_buildOk _ (h := s.hid) htree hcount hbuild
  · split
    · exact buildOk_of_tree nofun nofun
        (treeBuilt_of_same htree ⟨rfl, rfl, rfl, rfl⟩ rfl htree.walk_below htree.ser_below)
    · next i rest hser =>
      obtain ⟨hi, hrest⟩ := List.forall_mem_cons.1 (hser ▸ htree.ser_below)
      split
      · trivial
      · exact emit_buildOk _ (hkept rest hrest) hcount hbuild
      · next l r hnode =>
        obtain ⟨hl, hr, -⟩ := htree.built.children_below i l r hnode
        exact emit_buildOk _ (hkept _ (List.forall_mem_cons.2 ⟨Nat.lt_trans hl hi,
          List.forall_mem_cons.2 ⟨Nat.lt_trans hr hi, hrest⟩⟩)) hcount hbuild

theorem encTextStep_buildOk (htree : TreeBuilt s) (hseq : s.seq = .encText) :
    NextSatisfies BuildOk (encTextStep s) := by
  unfold encTextStep
  split
  · exact buildOk_of_tree nofun nofun
      (treeBuilt_of_same htree ⟨rfl, rfl, rfl, rfl⟩ rfl htree.walk_below htree.ser_below)
  · split
    · trivial
    · split
      · trivial
      · exact emit_buildOk _ (treeBuilt_of_same htree ⟨rfl, rfl, rfl, rfl⟩ rfl htree.walk_below htree.ser_below)
          (by simp [hseq]) (by simp [hseq])

/-- Outside an ENCODE no turn leads into one (10_state.md R31). -/
theorem coreStep_buildOk_of_not_encode (h : s.seq ∉ encodeStages) : NextSatisfies BuildOk (coreStep s) := by
  cases hstep : coreStep s with
  | next t =>
    rcases seq_of_coreTurn (coreTurn_of_coreStep hstep) with hidle | hnext
    · exact buildOk_of_idle hidle
    · exact buildOk_of_not_encode fun ht => h (encodeStages_of_follows s.seq t.seq hnext ht)
  | fault | refused => trivial

theorem coreStep_buildOk (h : BuildOk s) : NextSatisfies BuildOk (coreStep s) := by
  cases hseq : s.seq with
  | count =>
    obtain ⟨t, ht, hturn⟩ := countStep_turn s
    rw [coreStep_count hseq, ht]
    exact buildOk_of_countTurn h hseq hturn
  | build =>
    obtain ⟨t, ht, hok⟩ := buildStep_next h hseq
    rw [coreStep_build hseq, ht]
    exact hok
  | codes =>
    obtain ⟨t, ht, hok⟩ := codesStep_next h hseq
    rw [coreStep_codes hseq, ht]
    exact hok
  | size => exact coreStep_size hseq ▸ sizeStep_buildOk (h.tree (by simp [hseq]))
  | serTree => exact coreStep_serTree hseq ▸ serStep_buildOk (h.tree (by simp [hseq])) hseq
  | encText => exact coreStep_encText hseq ▸ encTextStep_buildOk (h.tree (by simp [hseq])) hseq
  | pad => exact coreStep_pad hseq ▸ buildOk_of_idle rfl
  | idle | hdr | deserTree | decText => exact coreStep_buildOk_of_not_encode (by simp [hseq, encodeStages])

theorem buildOk_of_hostTurn (h : BuildOk s) (hturn : HostTurn s t) : BuildOk t := by
  cases hturn with
  | registers | symWrite | artWrite | illegal => exact buildOk_of_hid h rfl rfl
  | accepts v stage rest idle first =>
    rcases first with rfl | rfl
    · exact buildOk_of_count rfl ⟨rfl, rfl, rfl, rfl, List.Pairwise.nil⟩
    · exact buildOk_of_not_encode (by simp [encodeStages])
  | reset rest => exact buildOk_of_idle rfl

end Steps

/-- Settles O37: the leaves have the shape, a merge keeps it, and the stages after BUILD change traversal stacks only. -/
theorem buildInvariant : Obligations.BuildInvariant := by
  unfold Obligations.BuildInvariant
  intro s t h hstep
  refine step_keeps (P := fun _ => BuildOk) hstep (fun t => buildOk_of_hostTurn h) fun rest t hcore => ?_
  have hnext := coreStep_buildOk (buildOk_of_hid (t := { s with inputs := rest }) h rfl rfl)
  rwa [hcore] at hnext

/-- Settles O38: COUNT's turns always answer, and in BUILD and CODES the invariant provides queue entries and nodes. -/
theorem buildAndCodesNeverStop : Obligations.BuildAndCodesNeverStop := by
  unfold Obligations.BuildAndCodesNeverStop
  intro s h hin hstage
  rcases hstage with hseq | hseq | hseq
  · obtain ⟨t, ht, -⟩ := countStep_turn s
    exact ⟨t, (step_coreTurn_done hin (coreTurn_count hseq)).trans ht⟩
  · obtain ⟨t, ht, -⟩ := buildStep_next h hseq
    exact ⟨t, (step_coreTurn_done hin (coreTurn_build hseq)).trans ht⟩
  · obtain ⟨t, ht, -⟩ := codesStep_next h hseq
    exact ⟨t, (step_coreTurn_done hin (coreTurn_codes hseq)).trans ht⟩

end Sys2Proof.Proofs
end

section
/-! PROOF. No code made and no path still to walk begins another of them, and CODES keeps it so (40_frequency_and_tree.md R148,
R149): a path becomes a code, or gives way to its two extensions. -/

namespace Sys2Proof.Proofs

open Sys2Proof Sys2Proof.Machine

/-! ### Lists in which no bit string begins another (00_scope.md R11) -/

/-- Neither bit string begins the other. -/
def Apart (a b : Bits) : Prop := ¬ a <+: b ∧ ¬ b <+: a

theorem Apart.symm {a b : Bits} (h : Apart a b) : Apart b a := ⟨h.2, h.1⟩

/-- What is apart from a path is apart from its extensions. -/
theorem Apart.concat {a x : Bits} (h : Apart a x) (b : Bool) : Apart (a ++ [b]) x := by
  obtain ⟨hax, hxa⟩ := h
  refine ⟨fun hp => hax ((List.prefix_append a [b]).trans hp), fun hp => ?_⟩
  rcases List.prefix_concat_iff.1 hp with rfl | hp
  · exact hax (List.prefix_append a [b])
  · exact hxa hp

/-- The two extensions of a path are apart. -/
theorem apart_siblings (a : Bits) : Apart (a ++ [false]) (a ++ [true]) := by
  constructor <;> simp [List.prefix_append_right_inj]

theorem prefixFree_of_perm {l l' : List Bits} (hperm : l.Perm l') (h : PrefixFree l) : PrefixFree l' :=
  (hperm.pairwise_iff fun hab => ⟨hab.2, hab.1⟩).1 h

theorem prefixFree_cons {a : Bits} {l : List Bits} : PrefixFree (a :: l) ↔ (∀ x ∈ l, Apart a x) ∧ PrefixFree l :=
  List.pairwise_cons

/-- A path gives way to its two extensions (R148). -/
theorem prefixFree_extend {codes rest : List Bits} {path : Bits} (h : PrefixFree (codes ++ path :: rest)) :
    PrefixFree (codes ++ (path ++ [false]) :: (path ++ [true]) :: rest) := by
  obtain ⟨hpath, hothers⟩ := prefixFree_cons.1 (prefixFree_of_perm List.perm_middle h)
  have hright : PrefixFree ((path ++ [true]) :: (codes ++ rest)) :=
    prefixFree_cons.2 ⟨fun x hx => (hpath x hx).concat true, hothers⟩
  have hboth : PrefixFree ((path ++ [false]) :: (path ++ [true]) :: (codes ++ rest)) := by
    refine prefixFree_cons.2 ⟨fun x hx => ?_, hright⟩
    rcases List.mem_cons.1 hx with rfl | hx
    · exact apart_siblings path
    · exact (hpath x hx).concat false
  exact prefixFree_of_perm ((List.perm_middle.trans (List.perm_middle.cons _)).symm) hboth

/-- A write puts its value in, and of the others keeps all but perhaps one. -/
theorem put_values {κ α : Type} (rank : κ → Nat) (k : κ) (v : α) (t : Table κ α) :
    ∃ kept, ((Table.put rank k v t).map Prod.snd).Perm (v :: kept) ∧ kept.Sublist (t.map Prod.snd) := by
  induction t with
  | nil => exact ⟨[], .refl _, .refl _⟩
  | cons e rest ih =>
    obtain ⟨a, u⟩ := e
    rw [Table.put]
    split
    · exact ⟨_, .refl _, .refl _⟩
    · split
      · exact ⟨rest.map Prod.snd, .refl _, List.sublist_cons_self ..⟩
      · obtain ⟨kept, hperm, hsub⟩ := ih
        exact ⟨u :: kept, (hperm.cons u).trans (.swap v u kept), hsub.cons_cons u⟩

/-- A path becomes a code, perhaps in place of another one. -/
theorem prefixFree_put {codes : Table Scalar Bits} {rest : List Bits} {path : Bits} (c : Scalar)
    (h : PrefixFree (codes.map Prod.snd ++ path :: rest)) :
    PrefixFree ((Table.put BitVec.toNat c path codes).map Prod.snd ++ rest) := by
  obtain ⟨kept, hperm, hsub⟩ := put_values BitVec.toNat c path codes
  have hall : PrefixFree (path :: (codes.map Prod.snd ++ rest)) := prefixFree_of_perm List.perm_middle h
  have hkept : PrefixFree (path :: (kept ++ rest)) :=
    List.Pairwise.sublist ((hsub.append (List.Sublist.refl rest)).cons_cons path) hall
  exact prefixFree_of_perm (hperm.append_right rest).symm hkept

/-! ### The steps -/

section Steps

variable {s t : State}

/-- The stages from CODES on. -/
def codedStages : List Seq := [.codes, .size, .serTree, .encText, .pad]

theorem codesOk_iff : CodesOk s ↔
    (s.seq ∈ codedStages → PrefixFree (s.hid.codes.map Prod.snd ++ s.hid.walk.map Prod.snd)) := by
  simp [CodesOk, codedStages]

theorem codesOk_of_not_coded (h : t.seq ∉ codedStages) : CodesOk t := codesOk_iff.2 fun ht => absurd ht h

/-- Where codes and walk stay, they stay sound. -/
theorem codesOk_of_same (h : CodesOk s) (hseq : s.seq ∈ codedStages) (hcodes : t.hid.codes = s.hid.codes)
    (hwalk : t.hid.walk = s.hid.walk) : CodesOk t := by
  rw [codesOk_iff, hcodes, hwalk]
  exact fun _ => codesOk_iff.1 h hseq

theorem takeRoot_codesOk (s : State) : NextSatisfies CodesOk (takeRoot s) := by
  unfold takeRoot
  split
  · trivial
  · exact fun _ => List.pairwise_singleton ..

theorem mergeStep_codesOk (hseq : s.seq = .build) : NextSatisfies CodesOk (mergeStep s) := by
  unfold mergeStep
  split
  · trivial
  · next a t ht =>
    split
    · trivial
    · next b u hu =>
      rw [extractMin_frame hu, extractMin_frame ht]
      exact codesOk_of_not_coded (by simp [mergeNodes, hseq, codedStages])

theorem buildStep_codesOk (hseq : s.seq = .build) : NextSatisfies CodesOk (buildStep s) := by
  unfold buildStep
  split
  · split
    · exact codesOk_of_idle rfl
    · exact codesOk_of_not_coded (by simp [makeLeaves, hseq, codedStages])
  · split
    · exact mergeStep_codesOk hseq
    · exact takeRoot_codesOk s

theorem codesStep_codesOk (h : CodesOk s) (hseq : s.seq = .codes) : NextSatisfies CodesOk (codesStep s) := by
  have hfree := codesOk_iff.1 h (by simp [hseq, codedStages])
  unfold codesStep
  split
  · exact fun _ => hfree
  · next i path rest hwalk =>
    rw [hwalk, List.map_cons] at hfree
    split
    · trivial
    · exact fun _ => prefixFree_put _ hfree
    · exact fun _ => prefixFree_extend hfree

theorem emit_codesOk (bits : Bits) {h' : Hidden} (h : CodesOk s) (hseq : s.seq ∈ codedStages)
    (hcodes : h'.codes = s.hid.codes) (hwalk : h'.walk = s.hid.walk) :
    NextSatisfies CodesOk (emit bits { s with hid := h' }) := by
  refine emit_satisfies ?_
  rw [emitBits_frame]
  exact codesOk_of_same h hseq hcodes hwalk

theorem sizeStep_codesOk (h : CodesOk s) (hseq : s.seq ∈ codedStages) : NextSatisfies CodesOk (sizeStep s) := by
  unfold sizeStep
  split
  · trivial
  · trivial
  · extract_lets total
    split
    · exact codesOk_of_idle rfl
    · exact codesOk_of_same h hseq rfl rfl

theorem serStep_codesOk (h : CodesOk s) (hseq : s.seq ∈ codedStages) : NextSatisfies CodesOk (serStep s) := by
  unfold serStep
  split
  · exact emit_codesOk _ h hseq rfl rfl
  · split
    · exact codesOk_of_same h hseq rfl rfl
    · split
      · trivial
      · exact emit_codesOk _ h hseq rfl rfl
      · exact emit_codesOk _ h hseq rfl rfl

theorem encTextStep_codesOk (h : CodesOk s) (hseq : s.seq ∈ codedStages) : NextSatisfies CodesOk (encTextStep s) := by
  unfold encTextStep
  split
  · exact codesOk_of_same h hseq rfl rfl
  · split
    · trivial
    · split
      · trivial
      · exact emit_codesOk _ h hseq rfl rfl

/-- The stages from CODES on follow BUILD and each other only. -/
theorem codedStages_of_follows (a : Seq) : ∀ b ∈ nextStages a, b ∈ codedStages → a = .build ∨ a ∈ codedStages := by
  cases a <;> decide

/-- Before BUILD, and outside an ENCODE, no turn leads to CODES. -/
theorem coreStep_codesOk_of_not_coded (hbuild : s.seq ≠ .build) (h : s.seq ∉ codedStages) :
    NextSatisfies CodesOk (coreStep s) := by
  cases hstep : coreStep s with
  | next t =>
    rcases seq_of_coreTurn (coreTurn_of_coreStep hstep) with hidle | hnext
    · exact codesOk_of_idle hidle
    · exact codesOk_of_not_coded fun ht => (codedStages_of_follows s.seq t.seq hnext ht).elim hbuild h
  | fault | refused => trivial

theorem coreStep_codesOk (h : CodesOk s) : NextSatisfies CodesOk (coreStep s) := by
  cases hseq : s.seq with
  | build => exact coreStep_build hseq ▸ buildStep_codesOk hseq
  | codes => exact coreStep_codes hseq ▸ codesStep_codesOk h hseq
  | size => exact coreStep_size hseq ▸ sizeStep_codesOk h (by simp [hseq, codedStages])
  | serTree => exact coreStep_serTree hseq ▸ serStep_codesOk h (by simp [hseq, codedStages])
  | encText => exact coreStep_encText hseq ▸ encTextStep_codesOk h (by simp [hseq, codedStages])
  | pad => exact coreStep_pad hseq ▸ codesOk_of_idle rfl
  | idle | count | hdr | deserTree | decText =>
    exact coreStep_codesOk_of_not_coded (by simp [hseq]) (by simp [hseq, codedStages])

theorem codesOk_of_hostTurn (h : CodesOk s) (hturn : HostTurn s t) : CodesOk t := by
  cases hturn with
  | registers | symWrite | artWrite | illegal => exact h
  | accepts v stage rest idle first =>
    exact codesOk_of_not_coded (by rcases first with rfl | rfl <;> simp [codedStages])
  | reset rest => exact codesOk_of_idle rfl

end Steps

/-- Settles O40: in CODES the invariant is kept path by path, and BUILD's end starts it with the empty path alone. -/
theorem codesPrefixFree : Obligations.CodesPrefixFree := by
  unfold Obligations.CodesPrefixFree
  intro s t h hstep
  refine step_keeps (P := fun _ => CodesOk) hstep (fun t => codesOk_of_hostTurn h) fun rest t hcore => ?_
  have hnext := coreStep_codesOk (s := { s with inputs := rest }) h
  rwa [hcore] at hnext

end Sys2Proof.Proofs
end

section
/-! PROOF. A DECODE stays sound (41_tree_codec.md R184 to R190, 42_text_codec.md R212 to R216): the tree being read is whole
but for the nodes the stack's frames wait for, and a token adds such a node or completes the one on top. -/

namespace Sys2Proof.Proofs

open Sys2Proof Sys2Proof.Machine

/-! ### The tree being read, with any stack -/

/-- NODES holds a tree that is whole but for the parents these frames wait to complete. -/
structure ReadTree (frames : List Frame) (s : State) : Prop where
  closed : Closed s
  present_lt : ∀ i, Present s i → i < s.hid.ncount
  parent_lt : ∀ f ∈ frames, f.parent < s.hid.ncount
  written : ∀ i, i < s.hid.ncount → Present s i ∨ ∃ f ∈ frames, f.parent = i
  left_present : ∀ p l, Frame.awaitRight p l ∈ frames → Present s l

section ReadTrees

variable {s : State} {frames rest : List Frame} {f : Frame} {i p : Nat}

theorem treeReading_iff : TreeReading s ↔ ReadTree s.hid.deser s ∧ (s.hid.ncount = 0 ∨ s.hid.deser ≠ []) :=
  ⟨fun ⟨closed, present, parent, written, left, pending⟩ => ⟨⟨closed, present, parent, written, left⟩, pending⟩,
    fun ⟨⟨closed, present, parent, written, left⟩, pending⟩ => ⟨closed, present, parent, written, left, pending⟩⟩

theorem present_writeNode (i j : Nat) (node : Node) (s : State) :
    Present (writeNode i node s) j ↔ j = i ∨ Present s j := by
  by_cases hj : j = i
  · simp [Present, hj, nodeAt_writeNode_same]
  · simp [Present, hj, nodeAt_writeNode_other hj]

/-- Writing a node whose children are there leaves every node's children there. -/
theorem closed_writeNode {node : Node} (h : Closed s)
    (hchildren : ∀ l r, node = .internal l r → Present s l ∧ Present s r) : Closed (writeNode i node s) := by
  intro j l r hnode
  simp only [present_writeNode]
  have hthere : Present s l ∧ Present s r := by
    by_cases hj : j = i
    · rw [hj, nodeAt_writeNode_same] at hnode
      exact hchildren l r (Option.some.inj hnode)
    · rw [nodeAt_writeNode_other hj] at hnode
      exact h j l r hnode
  exact ⟨.inr hthere.1, .inr hthere.2⟩

/-- A new node number is one more node to complete (R184). -/
theorem readTree_alloc (deser : List Frame) (h : ReadTree frames s) :
    ReadTree (.awaitLeft s.hid.ncount :: frames)
      { s with hid := { s.hid with ncount := s.hid.ncount + 1, deser := deser } } where
  closed := h.closed
  present_lt i hi := Nat.lt_succ_of_lt (h.present_lt i hi)
  parent_lt f hf := by
    rcases List.mem_cons.1 hf with rfl | hf
    · exact Nat.lt_succ_self _
    · exact Nat.lt_succ_of_lt (h.parent_lt f hf)
  written i hi := by
    rcases Nat.lt_succ_iff_lt_or_eq.1 hi with hlt | rfl
    · exact (h.written i hlt).imp_right fun ⟨f, hf, hp⟩ => ⟨f, List.mem_cons_of_mem _ hf, hp⟩
    · exact .inr ⟨_, List.mem_cons_self, rfl⟩
  left_present p l hmem := by
    rcases List.mem_cons.1 hmem with heq | hmem
    · cases heq
    · exact h.left_present p l hmem

/-- The node on top has its left child (R185). -/
theorem readTree_left (h : ReadTree (.awaitLeft p :: rest) s) (hi : Present s i) :
    ReadTree (.awaitRight p i :: rest) s where
  closed := h.closed
  present_lt := h.present_lt
  parent_lt := List.forall_mem_cons.2 (List.forall_mem_cons.1 h.parent_lt)
  written j hj := by simpa [Frame.parent] using h.written j hj
  left_present q l hmem := by
    rcases List.mem_cons.1 hmem with heq | hmem
    · cases heq
      exact hi
    · exact h.left_present q l (List.mem_cons_of_mem _ hmem)

/-- The node on top is complete (R185, R186). -/
theorem readTree_complete {node : Node} (h : ReadTree (f :: rest) s)
    (hchildren : ∀ l r, node = .internal l r → Present s l ∧ Present s r) :
    ReadTree rest (writeNode f.parent node s) where
  closed := closed_writeNode h.closed hchildren
  present_lt i hi := by
    rcases (present_writeNode f.parent i node s).1 hi with rfl | hi
    · exact h.parent_lt f List.mem_cons_self
    · exact h.present_lt i hi
  parent_lt g hg := h.parent_lt g (List.mem_cons_of_mem _ hg)
  written i hi := by
    rw [present_writeNode]
    rcases h.written i hi with hi | ⟨g, hg, rfl⟩
    · exact .inl (.inr hi)
    · rcases List.mem_cons.1 hg with rfl | hg
      · exact .inl (.inl rfl)
      · exact .inr ⟨g, hg, rfl⟩
  left_present p l hmem := (present_writeNode ..).2 (.inr (h.left_present p l (List.mem_cons_of_mem _ hmem)))

end ReadTrees

/-! ### Soundness by stage -/

section Stages

variable {s t : State}

theorem decodeOk_of_not_decode (h : t.seq ∉ decodeStages) : DecodeOk t := by
  simp only [decodeStages, List.mem_cons, List.not_mem_nil, or_false, not_or] at h
  obtain ⟨hhdr, htree, htext⟩ := h
  exact ⟨fun hs => absurd hs hhdr, fun hs => absurd hs (not_or.2 ⟨htree, htext⟩), fun hs => absurd hs htree,
    fun hs => absurd hs htext⟩

theorem decodeOk_of_deserTree (hseq : t.seq = .deserTree) (hstream : StreamOk t) (htree : TreeReading t) :
    DecodeOk t where
  header hs := nomatch hseq.symm.trans hs
  stream _ := hstream
  tree _ := htree
  text hs := nomatch hseq.symm.trans hs

theorem decodeOk_of_decText (hseq : t.seq = .decText) (hstream : StreamOk t) (htext : TextWalking t) : DecodeOk t where
  header hs := nomatch hseq.symm.trans hs
  stream _ := hstream
  tree hs := nomatch hseq.symm.trans hs
  text _ := htext

/-- Nothing outside the stage, the hidden state and the capacities matters. -/
theorem decodeOk_outside (h : DecodeOk s) (status inLen outLen : Word) (sym : Memory 32) (art : Memory 8)
    (inputs : List Input) (busData : Option BusData) (endShown : Bool) :
    DecodeOk { s with
      status := status, inLen := inLen, outLen := outLen, sym := sym, art := art, inputs := inputs, busData := busData,
      endShown := endShown } where
  header := h.header
  stream hs := by
    obtain ⟨fits, cursor, pos, le, nodes⟩ := h.stream hs
    exact ⟨fits, cursor, pos, le, nodes⟩
  tree hs := by
    obtain ⟨closed, present, parent, written, left, pending⟩ := h.tree hs
    exact ⟨closed, present, parent, written, left, pending⟩
  text hs := by
    obtain ⟨closed, present, root, cur, countdown⟩ := h.text hs
    exact ⟨closed, present, root, cur, countdown⟩

/-- Reading on inside the stream keeps its counts (20_memory.md R66). -/
theorem streamOk_advance (h : StreamOk s) {len k : Nat} (hlen : len ≤ (readAhead k s).length) :
    StreamOk (s.advance len) where
  input_fits := h.input_fits
  cursor_le := by
    have hcursor := h.cursor_le
    rw [readAhead_length] at hlen
    change s.hid.rpos + len ≤ 8 * s.hid.latLen.toNat
    omega
  count_pos := h.count_pos
  count_le := h.count_le
  nodes_le := h.nodes_le

end Stages

/-! ### The header (43_commands.md R247, R248) -/

section Header

variable {s : State}

theorem execHeader_decodeOk (c : Word) (len : Nat) (hfits : s.hid.latLen.toNat ≤ s.caps.artCap)
    (hlen : len ≤ 8 * s.hid.latLen.toNat) (hempty : s.hid.ncount = 0 ∧ s.hid.nodes = [] ∧ s.hid.deser = []) :
    NextSatisfies DecodeOk (execHeader c { s with hid := { s.hid with rpos := len } }) := by
  obtain ⟨hncount, hnodes, hdeser⟩ := hempty
  unfold execHeader
  split
  · exact decodeOk_of_idle rfl
  · next hpos =>
    split
    · exact decodeOk_of_idle rfl
    · next hle =>
      have hnone : ∀ i, nodeAt s i = none := fun i => by rw [nodeAt, hnodes, Table.get_nil]
      refine decodeOk_of_deserTree rfl ⟨hfits, hlen, ?pos, Nat.le_of_not_lt hle, ?room⟩
        (treeReading_iff.2 ⟨⟨fun i l r hi => ?closed, fun i hi => ?present, ?parent, fun i hi => ?written,
          fun p l hmem => ?left⟩, .inl hncount⟩)
      case pos => exact Nat.pos_of_ne_zero fun hzero => hpos (BitVec.eq_of_toNat_eq hzero)
      case room => exact hncount.symm ▸ Nat.zero_le _
      case closed => exact nomatch (hnone i).symm.trans hi
      case present =>
        have hthere : Present s i := hi
        simp [Present, hnone i] at hthere
      case parent => exact hdeser.symm ▸ fun f hf => absurd hf List.not_mem_nil
      case written => exact absurd (hncount ▸ hi) (Nat.not_lt_zero i)
      case left => exact absurd (hdeser ▸ hmem) List.not_mem_nil

theorem coreStep_hdr_decodeOk (h : DecodeOk s) (hseq : s.seq = .hdr) : NextSatisfies DecodeOk (coreStep s) := by
  by_cases hfits : s.hid.latLen.toNat ≤ s.caps.artCap
  · refine coreStep_fetchToken_satisfies ((coreTurn_hdr hseq).trans (headerFetch_of_fits hfits)) ?_ fun i len hi hlen => ?_
    · rw [streamEnd_of_other (by decide)]
      exact decodeOk_of_idle rfl
    · rw [readAhead_length] at hlen
      cases i with
      | header c =>
        have hlen : 0 + len ≤ 8 * s.hid.latLen.toNat := by
          rw [Nat.zero_add]
          exact Nat.le_trans hlen (Nat.le_trans (Nat.min_le_right _ _) (Nat.sub_le _ _))
        exact execHeader_decodeOk c _ hfits hlen (h.header hseq)
      | _ => cases hi
  · rw [coreStep_of_done ((coreTurn_hdr hseq).trans (if_pos (Nat.lt_of_not_le hfits)))]
    exact decodeOk_of_idle rfl

end Header

/-! ### The tree (41_tree_codec.md R184 to R186) -/

section Tree

variable {s : State}

theorem startText_decodeOk {root : Nat} (hstream : StreamOk s) (htree : ReadTree [] s) :
    NextSatisfies DecodeOk (startText root { s with hid := { s.hid with deser := [] } }) := by
  rcases startText_cases root { s with hid := { s.hid with deser := [] } } with
    ⟨c, -, hc⟩ | ⟨l, r, hroot, hc⟩ | ⟨-, hc⟩
  · rw [hc]
    exact decodeOk_of_idle rfl
  · rw [hc]
    refine decodeOk_of_decText rfl
      ⟨hstream.input_fits, hstream.cursor_le, hstream.count_pos, hstream.count_le, hstream.nodes_le⟩
      ⟨htree.closed, fun i => ⟨htree.present_lt i, fun hi => ?_⟩, ⟨root, l, r, rfl, hroot⟩, ⟨l, r, hroot⟩, Nat.add_zero _⟩
    exact (htree.written i hi).resolve_right fun ⟨f, hf, _⟩ => absurd hf List.not_mem_nil
  · rw [hc]
    trivial

/-- A complete node goes up through the parents it completes (R185). -/
theorem returnNode_decodeOk (frames : List Frame) {i : Nat} (hseq : s.seq = .deserTree) (hstream : StreamOk s)
    (htree : ReadTree frames s) (hi : Present s i) : NextSatisfies DecodeOk (returnNode frames i s) := by
  induction frames generalizing i s with
  | nil => exact startText_decodeOk hstream htree
  | cons f rest ih =>
    cases f with
    | awaitLeft p =>
      obtain ⟨closed, present, parent, written, left⟩ := readTree_left htree hi
      exact decodeOk_of_deserTree hseq
        ⟨hstream.input_fits, hstream.cursor_le, hstream.count_pos, hstream.count_le, hstream.nodes_le⟩
        ⟨closed, present, parent, written, left, .inr (List.cons_ne_nil _ _)⟩
    | awaitRight p l =>
      have hl : Present s l := htree.left_present p l List.mem_cons_self
      refine ih hseq ⟨hstream.input_fits, hstream.cursor_le, hstream.count_pos, hstream.count_le, hstream.nodes_le⟩
        (readTree_complete htree fun l' r' hnode => ?_) ((present_writeNode ..).2 (.inl rfl))
      cases hnode
      exact ⟨hl, hi⟩

theorem exec_treeToken_decodeOk {i : Instr} (hi : i.format = .treeToken) (hseq : s.seq = .deserTree)
    (hstream : StreamOk s) (htree : TreeReading s) : NextSatisfies DecodeOk (exec i s) := by
  by_cases hfull : s.hid.ncount = s.caps.nodeCap
  · rw [exec_treeToken_of_full hi hfull]
    exact decodeOk_of_idle rfl
  · have hroom : s.hid.ncount + 1 ≤ s.caps.nodeCap := Nat.lt_of_le_of_ne hstream.nodes_le hfull
    have hread := (treeReading_iff.1 htree).1
    rcases treeToken_cases hi with rfl | ⟨c, hsym⟩ | ⟨b, rfl⟩
    · rw [exec_treeInternal_of_room hfull]
      exact decodeOk_of_deserTree hseq
        ⟨hstream.input_fits, hstream.cursor_le, hstream.count_pos, hstream.count_le, hroom⟩
        (treeReading_iff.2 ⟨readTree_alloc _ hread, .inr (List.cons_ne_nil _ _)⟩)
    · rw [exec_leaf_of_room hsym hfull]
      exact returnNode_decodeOk s.hid.deser hseq
        ⟨hstream.input_fits, hstream.cursor_le, hstream.count_pos, hstream.count_le, hroom⟩
        (readTree_complete (readTree_alloc s.hid.deser hread) nofun) ((present_writeNode ..).2 (.inl rfl))
    · rw [exec_treeLeafInvalid_of_room b hfull]
      exact decodeOk_of_idle rfl

theorem coreStep_deserTree_decodeOk (h : DecodeOk s) (hseq : s.seq = .deserTree) :
    NextSatisfies DecodeOk (coreStep s) := by
  obtain ⟨closed, present, parent, written, left, pending⟩ := h.tree hseq
  refine coreStep_fetchToken_satisfies (coreTurn_deserTree hseq) ?_ fun i len hi hlen =>
    exec_treeToken_decodeOk hi hseq (streamOk_advance (h.stream (.inl hseq)) hlen)
      ⟨closed, present, parent, written, left, pending⟩
  rcases streamEnd_cases .treeToken s with hend | hend
  · exact hend ▸ decodeOk_of_idle rfl
  · exact hend ▸ decodeOk_of_idle rfl

end Tree

/-! ### The text (42_text_codec.md R213 to R215) -/

section Text

variable {s : State}

/-- The pointer moves on, or a symbol is emitted and counted down and the pointer is back at the root. -/
theorem moveTo_decodeOk {i : Nat} (hseq : s.seq = .decText) (hstream : StreamOk s) (htext : TextWalking s)
    (hremain : s.hid.remain ≠ 0#32) : NextSatisfies DecodeOk (moveTo i s) := by
  obtain ⟨closed, present, ⟨root, l, r, hroot, hnode⟩, -, countdown⟩ := htext
  obtain ⟨fits, cursor, pos, le, nodes⟩ := hstream
  unfold moveTo
  split
  · unfold emitSymbol
    split
    · trivial
    · split
      · trivial
      · next root' hroot' =>
        obtain rfl : root = root' := Option.some.inj (hroot.symm.trans hroot')
        refine decodeOk_of_decText hseq ⟨fits, cursor, pos, le, nodes⟩
          ⟨closed, present, ⟨root, l, r, hroot, hnode⟩, ⟨l, r, hnode⟩, ?_⟩
        have hpos : s.hid.remain.toNat ≠ 0 := fun hzero => hremain (BitVec.eq_of_toNat_eq hzero)
        have hlt := s.hid.remain.isLt
        change (s.hid.remain - 1#32).toNat + (s.hid.outidx + 1) = s.hid.count.toNat
        rw [BitVec.toNat_sub, BitVec.toNat_ofNat]
        omega
  · next a b hi =>
    exact decodeOk_of_decText hseq ⟨fits, cursor, pos, le, nodes⟩
      ⟨closed, present, ⟨root, l, r, hroot, hnode⟩, ⟨a, b, hi⟩, countdown⟩
  · trivial

theorem coreStep_decText_decodeOk (h : DecodeOk s) (hseq : s.seq = .decText) : NextSatisfies DecodeOk (coreStep s) := by
  by_cases hremain : s.hid.remain = 0#32
  · rw [coreStep_of_done ((coreTurn_decText hseq).trans (if_pos hremain))]
    exact decodeOk_of_idle rfl
  · refine coreStep_fetchToken_satisfies ((coreTurn_decText hseq).trans (textFetch_of_remain hremain)) ?_
      fun i len hi hlen => ?_
    · rw [streamEnd_of_other (by decide)]
      exact decodeOk_of_idle rfl
    · obtain ⟨b, rfl⟩ := exists_textToken hi
      rcases exec_textToken_cases b (s.advance len) with ⟨l, r, hcur⟩ | hfault
      · rw [exec_textToken_of_internal b hcur]
        exact moveTo_decodeOk hseq (streamOk_advance (h.stream (.inr hseq)) hlen) (textWalking_advance (h.text hseq) len)
          hremain
      · rw [hfault]
        trivial

end Text

/-! ### Any step -/

section Steps

variable {s t : State}

/-- Outside a DECODE no turn leads into one (10_state.md R31). -/
theorem coreStep_decodeOk_of_not_decode (h : s.seq ∉ decodeStages) : NextSatisfies DecodeOk (coreStep s) := by
  cases hstep : coreStep s with
  | next t =>
    rcases seq_of_coreTurn (coreTurn_of_coreStep hstep) with hidle | hnext
    · exact decodeOk_of_idle hidle
    · exact decodeOk_of_not_decode fun ht => h (decodeStages_of_follows s.seq t.seq hnext ht)
  | fault | refused => trivial

theorem coreStep_decodeOk (h : DecodeOk s) : NextSatisfies DecodeOk (coreStep s) := by
  by_cases hstage : s.seq ∈ decodeStages
  · simp only [decodeStages, List.mem_cons, List.not_mem_nil, or_false] at hstage
    rcases hstage with hseq | hseq | hseq
    · exact coreStep_hdr_decodeOk h hseq
    · exact coreStep_deserTree_decodeOk h hseq
    · exact coreStep_decText_decodeOk h hseq
  · exact coreStep_decodeOk_of_not_decode hstage

theorem decodeOk_of_hostTurn (h : DecodeOk s) (hturn : HostTurn s t) : DecodeOk t := by
  cases hturn with
  | registers | symWrite | artWrite | illegal => exact decodeOk_outside h _ _ _ _ _ _ _ _
  | accepts v stage rest idle first =>
    rcases first with rfl | rfl
    · exact decodeOk_of_not_decode (by simp [decodeStages])
    · exact ⟨fun _ => ⟨rfl, rfl, rfl⟩, fun hs => by simp at hs, nofun, nofun⟩
  | reset rest => exact decodeOk_of_idle rfl

end Steps

/-- Settles O49: the header starts an empty tree, each token keeps it, and DEC_TEXT only moves over the finished one. -/
theorem decodeInvariant : Obligations.DecodeInvariant := by
  unfold Obligations.DecodeInvariant
  intro s t h hstep
  refine step_keeps (P := fun _ => DecodeOk) hstep (fun t => decodeOk_of_hostTurn h) fun rest t hcore => ?_
  have hnext := coreStep_decodeOk (decodeOk_outside h s.status s.inLen s.outLen s.sym s.art rest s.busData s.endShown)
  rwa [hcore] at hnext

end Sys2Proof.Proofs
end

section
/-! PROOF. Hidden state that a stage writes before it reads it influences nothing (10_state.md R40): a step from a state and
a step from the same state with only its live hidden registers have the same outcome. -/

namespace Sys2Proof.Proofs

open Sys2Proof Sys2Proof.Machine

/-! ### Outcomes that differ in no live register -/

/-- An outcome with only the live hidden registers of the next state. -/
def liveOutcome : Outcome → Outcome
  | .next t => .next t.live
  | .fault r => .fault r
  | .refused r => .refused r

theorem sameOutcome_iff {o p : Outcome} : sameOutcome o p ↔ liveOutcome o = liveOutcome p := by
  cases o <;> cases p <;> simp [sameOutcome, liveOutcome]

theorem liveOutcome_ite {c : Prop} [Decidable c] {o o' p p' : Outcome} (ho : c → liveOutcome o = liveOutcome o')
    (hp : ¬ c → liveOutcome p = liveOutcome p') :
    liveOutcome (if c then o else p) = liveOutcome (if c then o' else p') := by
  split
  · exact ho ‹_›
  · exact hp ‹_›

/-- At a stage, two hidden states with the same live registers are the same outcome. -/
theorem liveOutcome_hid {s : State} {stage : Seq} {h h' : Hidden} (hseq : s.seq = stage)
    (hlive : liveHidden stage h = liveHidden stage h') :
    liveOutcome (.next { s with hid := h }) = liveOutcome (.next { s with hid := h' }) := by
  subst hseq
  simp only [liveOutcome, State.live, hlive]

/-- The state with the hidden registers that the stage `stage` may still read. -/
def withLive (stage : Seq) (s : State) : State := { s with hid := liveHidden stage s.hid }

section Live

variable {s : State}

theorem liveHidden_liveHidden (stage : Seq) (h : Hidden) : liveHidden stage (liveHidden stage h) = liveHidden stage h := by
  cases stage <;> rfl

theorem live_eq {stage : Seq} (hseq : s.seq = stage) : s.live = withLive stage s := by
  subst hseq
  rfl

/-! ### What the stages compute from the state -/

theorem smallest_withLive (l : List Nat) : smallest (withLive .build s) l = smallest s l := by
  induction l with
  | nil => rfl
  | cons i rest ih =>
    rw [smallest, smallest, ih]
    rfl

theorem textLength_withLive (freq : Table Scalar Count) : textLength (withLive .size s) freq = textLength s freq := by
  induction freq with
  | nil => rfl
  | cons e rest ih =>
    rw [textLength, textLength, ih]
    rfl

theorem emitBits_art_congr (bits : Bits) {s t : State} (hart : t.art = s.art) (hwpos : t.hid.wpos = s.hid.wpos) :
    (emitBits bits t).art = (emitBits bits s).art := by
  induction bits generalizing s t with
  | nil => exact hart
  | cons b bits ih =>
    refine ih ?_ (by rw [emitBit_wpos, emitBit_wpos, hwpos])
    have hbyte : readArt t (s.hid.wpos / 8) = readArt s (s.hid.wpos / 8) := by rw [readArt, readArt, hart]
    simp only [emitBit, writeArt, hart, hwpos, hbyte]

theorem readAhead_congr (k : Nat) {s t : State} (hart : t.art = s.art) (hlat : t.hid.latLen = s.hid.latLen)
    (hrpos : t.hid.rpos = s.hid.rpos) : readAhead k t = readAhead k s := by
  have hbit : streamBit t = streamBit s := by
    funext p
    rw [streamBit, streamBit, readArt, readArt, hart]
  rw [readAhead_eq, readAhead_eq, hbit, hlat, hrpos]

/-! ### The stages of ENCODE -/

theorem countSymbol_live (hseq : s.seq = .count) : liveOutcome (.next (countSymbol (withLength s)))
    = liveOutcome (.next (countSymbol (withLength (withLive .count s)))) := by
  cases hscalar : isScalar (readSym s s.hid.idx).toNat with
  | false =>
    rw [countSymbol_of_not_scalar (s := withLength s) hscalar,
      countSymbol_of_not_scalar (s := withLength (withLive .count s)) hscalar]
    rfl
  | true =>
    cases hold : Table.get BitVec.toNat ((readSym s s.hid.idx).setWidth 21) s.hid.freq with
    | some m =>
      rw [countSymbol_of_counted (s := withLength s) hscalar hold,
        countSymbol_of_counted (s := withLength (withLive .count s)) hscalar hold]
      exact liveOutcome_hid (s := s) hseq rfl
    | none =>
      by_cases hfull : s.hid.freq.length = s.caps.leafCap
      · rw [countSymbol_of_full (s := withLength s) hscalar hold hfull,
          countSymbol_of_full (s := withLength (withLive .count s)) hscalar hold hfull]
        rfl
      · rw [countSymbol_of_new (s := withLength s) hscalar hold hfull,
          countSymbol_of_new (s := withLength (withLive .count s)) hscalar hold hfull]
        exact liveOutcome_hid (s := s) hseq rfl

theorem countStep_live (hseq : s.seq = .count) :
    liveOutcome (countStep s) = liveOutcome (countStep (withLive .count s)) :=
  liveOutcome_ite (fun _ => rfl) fun _ => liveOutcome_ite (fun _ => rfl) fun _ =>
    liveOutcome_ite (fun _ => countSymbol_live hseq) fun _ => rfl

theorem extractMin_withLive : extractMin (withLive .build s) = (extractMin s).map fun p => (p.1, withLive .build p.2) := by
  unfold extractMin
  rw [smallest_withLive]
  change (match smallest s s.hid.pq with | none => _ | some i => _) = _
  cases smallest s s.hid.pq <;> rfl

theorem mergeStep_live (hseq : s.seq = .build) :
    liveOutcome (mergeStep s) = liveOutcome (mergeStep (withLive .build s)) := by
  unfold mergeStep
  rw [extractMin_withLive]
  cases hfirst : extractMin s with
  | none => rfl
  | some p =>
    dsimp only [Option.map_some]
    rw [extractMin_withLive]
    cases hsecond : extractMin p.2 with
    | none => rfl
    | some q =>
      have hstage : q.2.seq = .build := by
        rw [extractMin_frame hsecond, extractMin_frame hfirst]
        exact hseq
      exact liveOutcome_hid (s := q.2) hstage rfl

theorem takeRoot_live : liveOutcome (takeRoot s) = liveOutcome (takeRoot (withLive .build s)) := by
  unfold takeRoot
  rw [extractMin_withLive]
  cases extractMin s <;> rfl

theorem buildStep_live (hseq : s.seq = .build) :
    liveOutcome (buildStep s) = liveOutcome (buildStep (withLive .build s)) :=
  liveOutcome_ite (fun _ => liveOutcome_ite (fun _ => rfl) fun _ => liveOutcome_hid (s := s) hseq rfl)
    fun _ => liveOutcome_ite (fun _ => mergeStep_live hseq) fun _ => takeRoot_live

theorem codesStep_live (hseq : s.seq = .codes) :
    liveOutcome (codesStep s) = liveOutcome (codesStep (withLive .codes s)) := by
  match hwalk : s.hid.walk with
  | [] =>
    rw [codesStep_of_end hwalk, codesStep_of_end (s := withLive .codes s) hwalk]
    rfl
  | (i, path) :: rest =>
    match hnode : nodeAt s i with
    | none =>
      have hnode' : nodeAt (withLive .codes s) i = none := hnode
      have hwalk' : (withLive .codes s).hid.walk = (i, path) :: rest := hwalk
      simp only [codesStep, hwalk, hwalk', hnode, hnode']
    | some (.leaf c) =>
      rw [codesStep_of_leaf hwalk hnode, codesStep_of_leaf (s := withLive .codes s) hwalk hnode]
      exact liveOutcome_hid (s := s) hseq rfl
    | some (.internal l r) =>
      rw [codesStep_of_internal hwalk hnode, codesStep_of_internal (s := withLive .codes s) hwalk hnode]
      exact liveOutcome_hid (s := s) hseq rfl

theorem sizeStep_live : liveOutcome (sizeStep s) = liveOutcome (sizeStep (withLive .size s)) := by
  cases htext : textLength s s.hid.freq with
  | none =>
    have htext' : textLength (withLive .size s) (withLive .size s).hid.freq = none := (textLength_withLive _).trans htext
    simp only [sizeStep, htext, htext']
  | some x =>
    have htext' : textLength (withLive .size s) (withLive .size s).hid.freq = some x := (textLength_withLive _).trans htext
    cases hroot : s.hid.root with
    | none =>
      have hroot' : (withLive .size s).hid.root = none := hroot
      simp only [sizeStep, htext, htext', hroot, hroot']
    | some root =>
      rw [sizeStep_of_text hroot htext rfl, sizeStep_of_text (s := withLive .size s) hroot htext' rfl]
      exact liveOutcome_ite (fun _ => rfl) fun _ => rfl

/-- Emission reads ART and `wpos`, which is live wherever bits are emitted. -/
theorem emit_live {stage : Seq} (bits : Bits) (h : Hidden) (hseq : s.seq = stage)
    (hstage : stage = .serTree ∨ stage = .encText) : liveOutcome (emit bits { s with hid := h })
      = liveOutcome (emit bits { s with hid := liveHidden stage h }) := by
  have hwpos : (liveHidden stage h).wpos = h.wpos := by rcases hstage with rfl | rfl <;> rfl
  have hlive : liveHidden stage { h with wpos := h.wpos + bits.length }
      = liveHidden stage { liveHidden stage h with wpos := (liveHidden stage h).wpos + bits.length } := by
    rcases hstage with rfl | rfl <;> rfl
  have hart := emitBits_art_congr bits (s := { s with hid := h }) (t := { s with hid := liveHidden stage h }) rfl hwpos
  unfold emit
  dsimp only
  rw [hwpos, emitBits_frame bits { s with hid := h }, emitBits_frame bits { s with hid := liveHidden stage h }, hart]
  exact liveOutcome_ite (fun _ => liveOutcome_hid (s := { s with art := _ }) hseq hlive) fun _ => rfl

theorem serStep_live (hseq : s.seq = .serTree) :
    liveOutcome (serStep s) = liveOutcome (serStep (withLive .serTree s)) := by
  refine liveOutcome_ite (fun _ => emit_live _ s.hid hseq (.inl rfl)) fun _ => ?_
  change liveOutcome (match s.hid.ser with | [] => _ | i :: rest => match nodeAt s i with
      | none => _ | some (.leaf c) => _ | some (.internal l r) => _) =
    liveOutcome (match s.hid.ser with | [] => _ | i :: rest => match nodeAt s i with
      | none => _ | some (.leaf c) => _ | some (.internal l r) => _)
  match s.hid.ser with
  | [] => rfl
  | i :: rest =>
    dsimp only
    match nodeAt s i with
    | none => rfl
    | some (.leaf c) => exact emit_live _ { s.hid with ser := rest } hseq (.inl rfl)
    | some (.internal l r) => exact emit_live _ { s.hid with ser := l :: r :: rest } hseq (.inl rfl)

theorem encTextStep_live (hseq : s.seq = .encText) :
    liveOutcome (encTextStep s) = liveOutcome (encTextStep (withLive .encText s)) := by
  refine liveOutcome_ite (fun _ => rfl) fun _ => liveOutcome_ite (fun _ => rfl) fun _ => ?_
  change liveOutcome (match (wordSymbol (readSym s s.hid.idx)).bind (codeOf s) with | none => _ | some code => _) =
    liveOutcome (match (wordSymbol (readSym s s.hid.idx)).bind (codeOf s) with | none => _ | some code => _)
  cases (wordSymbol (readSym s s.hid.idx)).bind (codeOf s) with
  | none => rfl
  | some code => exact emit_live _ { s.hid with idx := s.hid.idx + 1 } hseq (.inr rfl)

/-! ### The stages of DECODE -/

/-- From the same stream a fetch finds the same token, or the same end. -/
theorem fetchToken_same (f : Format) {s t : State} (hart : t.art = s.art) (hcaps : t.caps = s.caps)
    (hlat : t.hid.latLen = s.hid.latLen) (hrpos : t.hid.rpos = s.hid.rpos) :
    (∃ r, fetchToken f s = .done (.fault r) ∧ fetchToken f t = .done (.fault r))
    ∨ (fetchToken f s = .done (.next (streamEnd f s)) ∧ fetchToken f t = .done (.next (streamEnd f t)))
    ∨ ∃ i len, i.format = f ∧ fetchToken f s = .run i (s.advance len) ∧ fetchToken f t = .run i (t.advance len) := by
  unfold fetchToken
  rw [readAhead_congr f.maxLength hart hlat hrpos, hlat, hcaps]
  split
  · exact .inl ⟨_, rfl, rfl⟩
  · split
    · exact .inr (.inr ⟨_, _, (decode_format ‹_›).1, rfl, rfl⟩)
    · exact .inr (.inl ⟨rfl, rfl⟩)

theorem coreStep_fetchToken_live {f : Format} {s s' t t' : State} (hturn : coreTurn s = fetchToken f t)
    (hturn' : coreTurn s' = fetchToken f t') (hart : t'.art = t.art) (hcaps : t'.caps = t.caps)
    (hlat : t'.hid.latLen = t.hid.latLen) (hrpos : t'.hid.rpos = t.hid.rpos)
    (hend : liveOutcome (.next (streamEnd f t)) = liveOutcome (.next (streamEnd f t')))
    (hexec : ∀ (i : Instr) (len : Nat), i.format = f →
      liveOutcome (exec i (t.advance len)) = liveOutcome (exec i (t'.advance len))) :
    liveOutcome (coreStep s) = liveOutcome (coreStep s') := by
  rcases fetchToken_same f hart hcaps hlat hrpos with ⟨r, h, h'⟩ | ⟨h, h'⟩ | ⟨i, len, hi, h, h'⟩
  · rw [coreStep_of_done (hturn.trans h), coreStep_of_done (hturn'.trans h')]
  · rw [coreStep_of_done (hturn.trans h), coreStep_of_done (hturn'.trans h')]
    exact hend
  · rw [coreStep_of_run (hturn.trans h), coreStep_of_run (hturn'.trans h')]
    exact hexec i len hi

theorem coreStep_hdr_live (hseq : s.seq = .hdr) : liveOutcome (coreStep s) = liveOutcome (coreStep (withLive .hdr s)) := by
  have hseq' : (withLive .hdr s).seq = .hdr := hseq
  by_cases hfits : s.hid.latLen.toNat ≤ s.caps.artCap
  · refine coreStep_fetchToken_live ((coreTurn_hdr hseq).trans (headerFetch_of_fits hfits))
      ((coreTurn_hdr hseq').trans (headerFetch_of_fits hfits)) rfl rfl rfl rfl ?_ fun i len hi => ?_
    · rw [streamEnd_of_other (by decide), streamEnd_of_other (by decide)]
      rfl
    · cases i with
      | header c => exact liveOutcome_ite (fun _ => rfl) fun _ => liveOutcome_ite (fun _ => rfl) fun _ => rfl
      | _ => cases hi
  · have hlong := Nat.lt_of_not_le hfits
    rw [coreStep_of_done ((coreTurn_hdr hseq).trans (if_pos hlong)),
      coreStep_of_done ((coreTurn_hdr hseq').trans (if_pos hlong))]
    rfl

theorem returnNode_live (frames : List Frame) (i : Nat) (hseq : s.seq = .deserTree) :
    liveOutcome (returnNode frames i s) = liveOutcome (returnNode frames i (withLive .deserTree s)) := by
  induction frames generalizing i s with
  | nil =>
    change liveOutcome (match nodeAt s i with
        | some (.leaf _) => _ | some (.internal _ _) => _ | none => _) =
      liveOutcome (match nodeAt s i with
        | some (.leaf _) => _ | some (.internal _ _) => _ | none => _)
    match nodeAt s i with
    | none | some (.leaf c) | some (.internal l r) => rfl
  | cons f rest ih =>
    cases f with
    | awaitLeft p => exact liveOutcome_hid (s := s) hseq rfl
    | awaitRight p l => exact ih p (s := writeNode p (.internal l i) s) hseq

theorem exec_treeToken_live {i : Instr} (hi : i.format = .treeToken) (hseq : s.seq = .deserTree) :
    liveOutcome (exec i s) = liveOutcome (exec i (withLive .deserTree s)) := by
  by_cases hfull : s.hid.ncount = s.caps.nodeCap
  · rw [exec_treeToken_of_full hi hfull, exec_treeToken_of_full (s := withLive .deserTree s) hi hfull]
    rfl
  · rcases treeToken_cases hi with rfl | ⟨c, hsym⟩ | ⟨b, rfl⟩
    · rw [exec_treeInternal_of_room hfull, exec_treeInternal_of_room (s := withLive .deserTree s) hfull]
      exact liveOutcome_hid (s := s) hseq rfl
    · rw [exec_leaf_of_room hsym hfull, exec_leaf_of_room (s := withLive .deserTree s) hsym hfull]
      exact returnNode_live s.hid.deser s.hid.ncount hseq
    · rw [exec_treeLeafInvalid_of_room b hfull, exec_treeLeafInvalid_of_room (s := withLive .deserTree s) b hfull]
      rfl

theorem streamEnd_treeToken_live (s : State) :
    streamEnd .treeToken (withLive .deserTree s) = streamEnd .treeToken s := by
  unfold streamEnd
  rw [readAhead_congr 1 (s := s) (t := withLive .deserTree s) rfl rfl rfl]
  rfl

theorem moveTo_live (i : Nat) (hseq : s.seq = .decText) :
    liveOutcome (moveTo i s) = liveOutcome (moveTo i (withLive .decText s)) := by
  change liveOutcome (match nodeAt s i with | some (.leaf _) => _ | some (.internal _ _) => _ | none => _) =
    liveOutcome (match nodeAt s i with | some (.leaf _) => _ | some (.internal _ _) => _ | none => _)
  match nodeAt s i with
  | none => rfl
  | some (.internal l r) => exact liveOutcome_hid (s := s) hseq rfl
  | some (.leaf c) =>
    refine liveOutcome_ite (fun _ => rfl) fun _ => ?_
    change liveOutcome (match s.hid.root with | none => _ | some root => _) =
      liveOutcome (match s.hid.root with | none => _ | some root => _)
    cases s.hid.root with
    | none => rfl
    | some root => exact liveOutcome_hid (s := writeSym s.hid.outidx (symbolWord c) s) hseq rfl

theorem exec_textBit_live {i : Instr} (hi : i.format = .textBit) (hseq : s.seq = .decText) :
    liveOutcome (exec i s) = liveOutcome (exec i (withLive .decText s)) := by
  obtain ⟨b, rfl⟩ := exists_textToken hi
  by_cases hcur : ∃ l r, nodeAt s s.hid.cur = some (.internal l r)
  · obtain ⟨l, r, hcur⟩ := hcur
    rw [exec_textToken_of_internal b hcur, exec_textToken_of_internal (s := withLive .decText s) b hcur]
    exact moveTo_live _ hseq
  · rw [(exec_textToken_cases b s).resolve_left hcur, (exec_textToken_cases b (withLive .decText s)).resolve_left hcur]

theorem coreStep_decText_live (hseq : s.seq = .decText) :
    liveOutcome (coreStep s) = liveOutcome (coreStep (withLive .decText s)) := by
  have hseq' : (withLive .decText s).seq = .decText := hseq
  by_cases hremain : s.hid.remain = 0#32
  · rw [coreStep_of_done ((coreTurn_decText hseq).trans (if_pos hremain)),
      coreStep_of_done ((coreTurn_decText hseq').trans (if_pos hremain))]
    rfl
  · refine coreStep_fetchToken_live ((coreTurn_decText hseq).trans (textFetch_of_remain hremain))
      ((coreTurn_decText hseq').trans (textFetch_of_remain (s := withLive .decText s) hremain)) rfl rfl rfl rfl ?_
      fun i len hi => exec_textBit_live hi hseq
    rw [streamEnd_of_other (by decide), streamEnd_of_other (by decide)]
    rfl

/-! ### Any turn of the core -/

theorem coreStep_live (s : State) : liveOutcome (coreStep s) = liveOutcome (coreStep s.live) := by
  cases hseq : s.seq with
  | idle =>
    rw [live_eq hseq, coreStep_of_done (s := s) (o := .next s) (by simp [coreTurn, hseq]),
      coreStep_of_done (s := withLive .idle s) (o := .next (withLive .idle s)) (by simp [coreTurn, withLive, hseq])]
    exact liveOutcome_hid hseq (liveHidden_liveHidden .idle s.hid).symm
  | count =>
    rw [live_eq hseq, coreStep_count hseq, coreStep_count (s := withLive .count s) hseq]
    exact countStep_live hseq
  | build =>
    rw [live_eq hseq, coreStep_build hseq, coreStep_build (s := withLive .build s) hseq]
    exact buildStep_live hseq
  | codes =>
    rw [live_eq hseq, coreStep_codes hseq, coreStep_codes (s := withLive .codes s) hseq]
    exact codesStep_live hseq
  | size =>
    rw [live_eq hseq, coreStep_size hseq, coreStep_size (s := withLive .size s) hseq]
    exact sizeStep_live
  | serTree =>
    rw [live_eq hseq, coreStep_serTree hseq, coreStep_serTree (s := withLive .serTree s) hseq]
    exact serStep_live hseq
  | encText =>
    rw [live_eq hseq, coreStep_encText hseq, coreStep_encText (s := withLive .encText s) hseq]
    exact encTextStep_live hseq
  | pad =>
    rw [live_eq hseq, coreStep_pad hseq, coreStep_pad (s := withLive .pad s) hseq]
    rfl
  | hdr =>
    rw [live_eq hseq]
    exact coreStep_hdr_live hseq
  | deserTree =>
    rw [live_eq hseq]
    exact coreStep_fetchToken_live (coreTurn_deserTree hseq) (coreTurn_deserTree (s := withLive .deserTree s) hseq) rfl rfl
      rfl rfl (by rw [streamEnd_treeToken_live]) fun i len hi => exec_treeToken_live (s := s.advance len) hi hseq
  | decText =>
    rw [live_eq hseq]
    exact coreStep_decText_live hseq

/-! ### The host's side -/

/-- What the host reads and moves is no hidden state: a next state with the hidden state of `s` stays the same outcome. -/
theorem liveOutcome_outside (t : State) (hseq : t.seq = s.seq) (hhid : t.hid = s.hid) :
    liveOutcome (.next t) = liveOutcome (.next { t with hid := liveHidden s.seq s.hid }) := by
  have h := liveOutcome_hid (s := t) hseq (liveHidden_liveHidden s.seq s.hid).symm
  rwa [← hhid] at h ⊢

theorem hostMemory_live {inside : Prop} [Decidable inside] (outside : Refusal) (moved : State)
    (hseq : moved.seq = s.seq) (hhid : moved.hid = s.hid) : liveOutcome (hostMemory inside outside moved s)
      = liveOutcome (hostMemory inside outside { moved with hid := liveHidden s.seq s.hid } s.live) :=
  liveOutcome_ite (fun _ => rfl) fun _ => liveOutcome_ite (fun _ => rfl) fun _ =>
    liveOutcome_ite (fun _ => liveOutcome_outside moved hseq hhid) fun _ => rfl

/-- A command word writes every register its command reads (43_commands.md R241). -/
theorem exec_command_live {i : Instr} (hi : i.format = .command) : liveOutcome (exec i s) = liveOutcome (exec i s.live) := by
  have hsame := liveOutcome_outside s rfl rfl
  cases i with
  | encode => exact liveOutcome_ite (fun _ => hsame) fun _ => rfl
  | decode => exact liveOutcome_ite (fun _ => hsame) fun _ => rfl
  | illegal w => exact liveOutcome_ite (fun _ => hsame) fun _ => liveOutcome_outside (illegalCommand s) rfl rfl
  | _ => cases hi

theorem hostRegRead_live (offset size : Nat) :
    liveOutcome (hostRegRead offset size s) = liveOutcome (hostRegRead offset size s.live) := by
  refine liveOutcome_ite (fun _ => ?_) fun _ => rfl
  change liveOutcome (match registerRead s offset with | some v => _ | none => _) =
    liveOutcome (match registerRead s offset with | some v => _ | none => _)
  cases registerRead s offset with
  | none => rfl
  | some v => exact liveOutcome_outside (noteRead offset v s) rfl rfl

theorem hostRegWrite_live (offset : Nat) (v : Word) :
    liveOutcome (hostRegWrite offset v s) = liveOutcome (hostRegWrite offset v s.live) := by
  unfold hostRegWrite
  split
  · exact liveOutcome_outside s rfl rfl
  · exact liveOutcome_outside { s with inLen := v } rfl rfl
  · exact liveOutcome_outside s rfl rfl
  · rfl

theorem step_host_live {tx : HostTx} {rest : List Input} (hin : s.inputs = .host tx :: rest) :
    liveOutcome (step s) = liveOutcome (step s.live) := by
  have hin' : s.live.inputs = .host tx :: rest := hin
  cases tx with
  | regWrite offset size v =>
    by_cases hbad : size ≠ 4 ∨ offset ∉ [0x00, 0x04, 0x08, 0x0C]
    · rw [step_regWrite_refused hin hbad, step_regWrite_refused hin' hbad]
    · obtain rfl : size = 4 := not_not.1 fun h => hbad (.inl h)
      by_cases hcmd : offset = 0x00
      · subst hcmd
        rw [step_cmdWrite hin, step_cmdWrite hin']
        exact exec_command_live (decodeCommand_format v)
      · rw [step_regWrite_register hin hcmd, step_regWrite_register hin' hcmd]
        exact hostRegWrite_live offset v
  | regRead offset size =>
    rw [step_regRead hin, step_regRead hin']
    exact hostRegRead_live offset size
  | symWrite i v =>
    rw [step_symWrite hin, step_symWrite hin']
    exact hostMemory_live (s := { s with inputs := rest }) _ _ rfl rfl
  | symRead i =>
    rw [step_symRead hin, step_symRead hin']
    exact hostMemory_live (s := { s with inputs := rest }) _ _ rfl rfl
  | artWrite a b =>
    rw [step_artWrite hin, step_artWrite hin']
    exact hostMemory_live (s := { s with inputs := rest }) _ _ rfl rfl
  | artRead a =>
    rw [step_artRead hin, step_artRead hin']
    exact hostMemory_live (s := { s with inputs := rest }) _ _ rfl rfl

theorem step_live (s : State) : liveOutcome (step s) = liveOutcome (step s.live) := by
  match hin : s.inputs with
  | [] =>
    rw [step_eq_coreStep (nextEvent_none hin), step_eq_coreStep (nextEvent_none (s := s.live) hin)]
    exact coreStep_live s
  | .core :: rest =>
    rw [step_eq_coreStep (nextEvent_core hin), step_eq_coreStep (nextEvent_core (s := s.live) hin)]
    exact coreStep_live { s with inputs := rest }
  | .host tx :: rest => exact step_host_live hin
  | .poll :: rest =>
    rw [step_poll hin, step_poll (s := s.live) hin]
    exact liveOutcome_outside (hostPoll rest s) rfl rfl
  | .reset :: rest =>
    rw [step_reset hin, step_reset (s := s.live) hin]
    rfl

end Live

/-- Settles O53: two states that agree in what is live step as the one state with only that. -/
theorem hiddenStateUnobserved : Obligations.HiddenStateUnobserved := by
  unfold Obligations.HiddenStateUnobserved
  intro s t h
  rw [sameOutcome_iff, step_live s, step_live t, h]

end Sys2Proof.Proofs
end

section
/-! PROOF. Runs of several steps. SER_TREE writes a whole tree (41_tree_codec.md R180 to R183) and DESER_TREE reads one back
(R184 to R189): each by induction over the tree, with the exact state after it. -/

namespace Sys2Proof.Proofs

open Sys2Proof Sys2Proof.Machine

/-! ### Running on -/

/-- The first step of a run, for any machine behind the host's interface. -/
theorem coreRun_succ {M : Host.Core} {k : Nat} {s t : M.State} (h : M.step s = .next t) : M.run (k + 1) s = M.run k t := by
  simp only [Host.Core.run, h]

theorem coreRun_succ_next {M : Host.Core} {k : Nat} {s t : M.State} (h : M.run (k + 1) s = .next t) :
    ∃ u, M.step s = .next u ∧ M.run k u = .next t := by
  cases hstep : M.step s with
  | next u => exact ⟨u, rfl, (coreRun_succ hstep).symm.trans h⟩
  | fault r => simp [Host.Core.run, hstep] at h
  | refused r => simp [Host.Core.run, hstep] at h

theorem coreRun_one {M : Host.Core} (s : M.State) : M.run 1 s = M.step s := by
  simp only [Host.Core.run]
  cases M.step s <;> rfl

theorem run_succ {k : Nat} {s t : State} (h : step s = .next t) : core.run (k + 1) s = core.run k t :=
  coreRun_succ (M := core) h

/-- A run that ends in a state has a first step. -/
theorem run_succ_next {k : Nat} {s t : State} (h : core.run (k + 1) s = .next t) :
    ∃ u, step s = .next u ∧ core.run k u = .next t :=
  coreRun_succ_next (M := core) h

theorem run_one (s : State) : core.run 1 s = step s := coreRun_one (M := core) s

theorem run_add {a b : Nat} {s t : State} (h : core.run a s = .next t) : core.run (a + b) s = core.run b t := by
  induction a generalizing s with
  | zero =>
    rw [Nat.zero_add]
    cases h
    rfl
  | succ a ih =>
    obtain ⟨u, hstep, hrest⟩ := run_succ_next h
    rw [Nat.add_right_comm, run_succ hstep, ih hrest]

/-! ### Trees in NODES -/

section HoldsTrees

variable {s t : State}

/-- A tree stays where every node that is there stays. -/
theorem holdsTree_mono (hkept : ∀ i node, nodeAt s i = some node → nodeAt t i = some node) {i : Nat} {tree : SymTree}
    (htree : HoldsTree s i tree) : HoldsTree t i tree := by
  induction tree generalizing i with
  | leaf c => exact hkept i _ htree
  | node l r ihl ihr =>
    obtain ⟨a, b, hnode, hl, hr⟩ := htree
    exact ⟨a, b, hkept i _ hnode, ihl hl, ihr hr⟩

theorem holdsTree_of_nodes (h : t.hid.nodes = s.hid.nodes) {i : Nat} {tree : SymTree} (htree : HoldsTree s i tree) :
    HoldsTree t i tree :=
  holdsTree_mono (fun i node hnode => by rwa [nodeAt_of_nodes h]) htree

end HoldsTrees

/-! ### SER_TREE -/

section SerTree

variable {s : State}

theorem emitBits_hid (bits : Bits) (s : State) : (emitBits bits s).hid = { s.hid with wpos := s.hid.wpos + bits.length } := by
  rw [emitBits_frame]

theorem emitBits_seq (bits : Bits) (s : State) : (emitBits bits s).seq = s.seq := by rw [emitBits_frame]

theorem emitBits_inputs (bits : Bits) (s : State) : (emitBits bits s).inputs = s.inputs := by rw [emitBits_frame]

/-- The state with this traversal stack of SER_TREE. -/
def withSer (ser : List Nat) (s : State) : State := { s with hid := { s.hid with ser := ser } }

/-- Emission does not look at the stack. -/
theorem withSer_emitBits (ser : List Nat) (bits : Bits) (s : State) :
    withSer ser (emitBits bits s) = emitBits bits (withSer ser s) := by
  induction bits generalizing s with
  | nil => rfl
  | cons b bits ih => exact ih (emitBit b s)

/-- SER_TREE emits a tree's bits in preorder and takes it off its stack, in as many steps as the tree has nodes (R183). -/
theorem run_serTree (tree : SymTree) {i : Nat} {rest : List Nat} (hin : s.inputs = []) (hseq : s.seq = .serTree)
    (hstarted : s.hid.wpos ≠ 0) (hser : s.hid.ser = i :: rest) (htree : HoldsTree s i tree)
    (hfits : s.hid.wpos + tree.bits.length ≤ 8 * s.caps.artCap) :
    core.run tree.size s = .next (emitBits tree.bits (withSer rest s)) := by
  induction tree generalizing s i rest with
  | leaf c =>
    rw [SymTree.size, run_one, step_coreTurn_done hin (coreTurn_serTree hseq)]
    exact serStep_of_leaf hstarted hser htree hfits
  | node l r ihl ihr =>
    obtain ⟨a, b, hnode, hl, hr⟩ := htree
    simp only [SymTree.bits, List.length_cons, List.length_append] at hfits
    have hfirst : step s = .next (emitBits [false] (withSer (a :: b :: rest) s)) := by
      rw [step_coreTurn_done hin (coreTurn_serTree hseq)]
      exact serStep_of_internal hstarted hser hnode (by omega)
    have hleft := ihl (s := emitBits [false] (withSer (a :: b :: rest) s)) (i := a) (rest := b :: rest) hin hseq
      (Nat.succ_ne_zero _) rfl (holdsTree_of_nodes (s := s) (by rfl) hl)
      (by rw [emitBits_wpos, emitBits_caps]; change s.hid.wpos + 1 + _ ≤ 8 * s.caps.artCap; omega)
    rw [withSer_emitBits, ← emitBits_append] at hleft
    have hright := ihr (s := emitBits ([false] ++ l.bits) (withSer (b :: rest) s)) (i := b) (rest := rest)
      (by rw [emitBits_inputs]; exact hin) (by rw [emitBits_seq]; exact hseq)
      (by rw [emitBits_wpos]; exact Nat.ne_of_gt (Nat.add_pos_left (Nat.pos_of_ne_zero hstarted) _))
      (by rw [emitBits_hid]; rfl) (holdsTree_of_nodes (s := s) (by rw [emitBits_hid]; rfl) hr)
      (by
        rw [emitBits_wpos, emitBits_caps]
        change s.hid.wpos + (l.bits.length + 1) + _ ≤ 8 * s.caps.artCap
        omega)
    rw [withSer_emitBits, ← emitBits_append] at hright
    rw [SymTree.size, Nat.add_assoc, Nat.add_comm 1, run_succ hfirst]
    exact (run_add hleft).trans hright

/-- Bits just emitted stand where `wpos` was. -/
theorem spells_emitBits (bits : Bits) (s : State) : Spells (emitBits bits s) s.hid.wpos bits :=
  fun _ hj => streamBit_emitBits_emitted bits s hj

/-- Bits before `wpos` stay. -/
theorem spells_emitBits_before {p : Nat} {xs : Bits} (bits : Bits) (h : Spells s p xs) (hp : p + xs.length ≤ s.hid.wpos) :
    Spells (emitBits bits s) p xs :=
  fun j hj => (streamBit_emitBits_before bits s (by omega)).trans (h j hj)

end SerTree

/-- Settles O43: the state after the tree's nodes is the one that has emitted its bits. -/
theorem serTreeWritesTree : Obligations.SerTreeWritesTree := by
  unfold Obligations.SerTreeWritesTree
  intro tree s i rest hin hseq hstarted hser htree hfits
  refine ⟨_, run_serTree tree hin hseq hstarted hser htree hfits, ?_, ?_, emitBits_wpos _ _,
    spells_emitBits tree.bits (withSer rest s), fun p hp => streamBit_emitBits_before tree.bits (withSer rest s) hp, ?_, ?_, ?_⟩
  all_goals rw [emitBits_frame]
  · exact hseq
  · rfl
  · rfl
  · rfl
  · rfl

end Sys2Proof.Proofs
end

section
/-! PROOF. DESER_TREE reads a whole tree back (41_tree_codec.md R184 to R189), by induction over the tree with the exact
outcome of its last token. -/

namespace Sys2Proof.Proofs

open Sys2Proof Sys2Proof.Machine

/-! ### The NODES store a tree leaves -/

/-- The NODES store after `tree` has been read into it with its root at `i` (R184: preorder numbers). -/
def treeLayout : SymTree → Nat → Table Nat Node → Table Nat Node
  | .leaf c, i, nodes => Table.put id i (.leaf c) nodes
  | .node l r, i, nodes =>
    Table.put id i (.internal (i + 1) (i + 1 + l.size)) (treeLayout r (i + 1 + l.size) (treeLayout l (i + 1) nodes))

theorem size_pos (tree : SymTree) : 0 < tree.size := by
  cases tree with
  | leaf c => exact Nat.one_pos
  | node l r => rw [SymTree.size]; omega

/-- A tree is laid out in as many consecutive indices as it has nodes. -/
theorem get_treeLayout_outside (tree : SymTree) {i j : Nat} (nodes : Table Nat Node) (h : j < i ∨ i + tree.size ≤ j) :
    Table.get id j (treeLayout tree i nodes) = Table.get id j nodes := by
  induction tree generalizing i nodes with
  | leaf c =>
    rw [SymTree.size] at h
    exact Table.get_put_other (by simp only [id_eq]; omega) ..
  | node l r ihl ihr =>
    rw [SymTree.size] at h
    rw [treeLayout, Table.get_put_other (by simp only [id_eq]; omega), ihr _ (by omega), ihl _ (by omega)]

/-- A state that agrees with the layout of a tree on the tree's indices holds the tree. -/
theorem holdsTree_of_layout {s : State} (tree : SymTree) {i : Nat} (nodes : Table Nat Node)
    (h : ∀ j, i ≤ j → j < i + tree.size → nodeAt s j = Table.get id j (treeLayout tree i nodes)) :
    HoldsTree s i tree := by
  induction tree generalizing i nodes with
  | leaf c => exact (h i (Nat.le_refl i) (Nat.lt_succ_self i)).trans (Table.get_put_same ..)
  | node l r ihl ihr =>
    have hinner : ∀ j, i + 1 ≤ j → j < i + 1 + l.size + r.size → nodeAt s j =
        Table.get id j (treeLayout r (i + 1 + l.size) (treeLayout l (i + 1) nodes)) := fun j hj hj' =>
      (h j (by omega) (by rw [SymTree.size]; omega)).trans (Table.get_put_other (by simp only [id_eq]; omega) ..)
    refine ⟨i + 1, i + 1 + l.size, (h i (Nat.le_refl i) (Nat.lt_add_of_pos_right (size_pos _))).trans (Table.get_put_same ..),
      ihl nodes fun j hj hj' => ?_, ihr (treeLayout l (i + 1) nodes) fun j hj hj' => hinner j (by omega) hj'⟩
    rw [hinner j hj (by omega), get_treeLayout_outside r _ (by omega)]

/-! ### Reading one token -/

section Tokens

variable {s : State}

/-- A leaf token in the stream is fetched and run (R186). -/
theorem step_leafToken {i : Instr} {c : Scalar} (hcarries : LeafCarries i c) (hin : s.inputs = []) (hseq : s.seq = .deserTree)
    (hfits : s.hid.latLen.toNat ≤ s.caps.artCap) (hthere : s.hid.rpos + (leafToken c).length ≤ 8 * s.hid.latLen.toNat)
    (hspells : Spells s s.hid.rpos (leafToken c)) : step s = exec i (s.advance (leafToken c).length) := by
  have htoken : leafToken c = encode i := by
    rw [leafToken, utf8Encode_of_leafCarries hcarries, encode_of_leafCarries hcarries]
  have hshort : (encode i).length ≤ 33 := by cases hcarries <;> exact Nat.le_of_ble_eq_true rfl
  rw [htoken] at hthere hspells ⊢
  obtain ⟨rest, hrest⟩ := readAhead_of_spells hspells hthere hshort
  have hdec : decode .treeToken (readAhead 33 s) = .ok (i, (encode i).length) := by
    rw [hrest, encode_length]
    exact decodeTree_of_leafCarries hcarries rest
  exact step_run ((nextEvent_none hin).trans (coreTurn_deserTree_of_decode hfits hseq hdec))

/-- An internal token in the stream is fetched and run (R185). -/
theorem step_internalToken (hin : s.inputs = []) (hseq : s.seq = .deserTree) (hfits : s.hid.latLen.toNat ≤ s.caps.artCap)
    (hthere : s.hid.rpos + 1 ≤ 8 * s.hid.latLen.toNat) (hspells : Spells s s.hid.rpos [false]) :
    step s = exec .treeInternal (s.advance 1) := by
  obtain ⟨rest, hrest⟩ := readAhead_of_spells (k := 33) hspells hthere (Nat.le_of_ble_eq_true rfl)
  have hdec : decode .treeToken (readAhead 33 s) = .ok (.treeInternal, 1) := by rw [hrest]; rfl
  exact step_run ((nextEvent_none hin).trans (coreTurn_deserTree_of_decode hfits hseq hdec))

/-- Returning a node does not look at the stack register: the frames stand for it. -/
theorem returnNode_deser (frames d : List Frame) (i : Nat) (s : State) :
    returnNode frames i { s with hid := { s.hid with deser := d } } = returnNode frames i s := by
  induction frames generalizing i s with
  | nil => rfl
  | cons f rest ih =>
    cases f with
    | awaitLeft p => rfl
    | awaitRight p l => exact ih p (writeNode p (.internal l i) s)

end Tokens

/-! ### Reading a tree -/

/-- The state in which `tree` has just been read: its root is the node to return. -/
def treeRead (tree : SymTree) (s : State) : State :=
  { s with
    hid := { s.hid with
      rpos := s.hid.rpos + tree.bits.length
      ncount := s.hid.ncount + tree.size
      nodes := treeLayout tree s.hid.ncount s.hid.nodes } }

section Reading

variable {s : State}

/-- The state after an internal token: its left child is read next. -/
def internalRead (s : State) : State :=
  { s with
    hid := { s.hid with
      rpos := s.hid.rpos + 1
      ncount := s.hid.ncount + 1
      deser := .awaitLeft s.hid.ncount :: s.hid.deser } }

/-- The state after the left subtree of the node at `i`: its right child is read next. -/
def leftRead (i : Nat) (frames : List Frame) (l : SymTree) (s : State) : State :=
  { treeRead l s with hid := { (treeRead l s).hid with deser := .awaitRight i s.hid.ncount :: frames } }

/-- Over as many steps as the tree has nodes DESER_TREE reads the tree its bits spell, and returns its root (R184 to R186). -/
theorem run_deserTree (tree : SymTree) (hscalars : tree.scalars) (hin : s.inputs = []) (hseq : s.seq = .deserTree)
    (hfits : s.hid.latLen.toNat ≤ s.caps.artCap) (hroom : s.hid.ncount + tree.size ≤ s.caps.nodeCap)
    (hthere : s.hid.rpos + tree.bits.length ≤ 8 * s.hid.latLen.toNat) (hspells : Spells s s.hid.rpos tree.bits) :
    core.run tree.size s = returnNode s.hid.deser s.hid.ncount (treeRead tree s) := by
  induction tree generalizing s with
  | leaf c =>
    obtain ⟨i, hi⟩ := exists_leafCarries hscalars
    rw [SymTree.size] at hroom ⊢
    rw [run_one, step_leafToken hi hin hseq hfits hthere hspells]
    exact exec_leaf_of_room (s := s.advance (leafToken c).length) (leafCarries_iff.1 hi).2 (Nat.ne_of_lt hroom)
  | node l r ihl ihr =>
    obtain ⟨hl, hr⟩ := hscalars
    rw [SymTree.size] at hroom
    rw [SymTree.bits, List.length_cons, List.length_append] at hthere
    obtain ⟨hhead, hboth⟩ := spells_append (xs := [false]).1 hspells
    obtain ⟨hleft, hright⟩ := spells_append.1 hboth
    have hfirst : step s = .next (internalRead s) := by
      rw [step_internalToken hin hseq hfits (by omega) hhead]
      exact exec_treeInternal_of_room (s := s.advance 1) (show s.hid.ncount ≠ s.caps.nodeCap by omega)
    have hrunl : core.run l.size (internalRead s) = .next (leftRead s.hid.ncount s.hid.deser l (internalRead s)) :=
      ihl (s := internalRead s) hl hin hseq hfits (show s.hid.ncount + 1 + l.size ≤ s.caps.nodeCap by omega)
        (show s.hid.rpos + 1 + _ ≤ 8 * s.hid.latLen.toNat by omega) hleft
    have hrunr := ihr (s := leftRead s.hid.ncount s.hid.deser l (internalRead s)) hr hin hseq hfits
      (show s.hid.ncount + 1 + l.size + r.size ≤ s.caps.nodeCap by omega)
      (show s.hid.rpos + 1 + l.bits.length + _ ≤ 8 * s.hid.latLen.toNat by omega) hright
    rw [SymTree.size, Nat.add_assoc, Nat.add_comm 1, run_succ hfirst, run_add hrunl, hrunr]
    have hend : writeNode s.hid.ncount (.internal (s.hid.ncount + 1) (s.hid.ncount + 1 + l.size))
        (treeRead r (leftRead s.hid.ncount s.hid.deser l (internalRead s))) = { treeRead (.node l r) s with
          hid := { (treeRead (.node l r) s).hid with
            deser := .awaitRight s.hid.ncount (s.hid.ncount + 1) :: s.hid.deser } } := by
      have hrpos : s.hid.rpos + 1 + l.bits.length + r.bits.length = s.hid.rpos + (SymTree.node l r).bits.length := by
        rw [SymTree.bits, List.length_cons, List.length_append]; omega
      have hncount : s.hid.ncount + 1 + l.size + r.size = s.hid.ncount + (SymTree.node l r).size := by
        rw [SymTree.size]; omega
      simp only [writeNode, treeRead, leftRead, internalRead, hrpos, hncount, treeLayout]
    exact (congrArg (returnNode s.hid.deser s.hid.ncount) hend).trans (returnNode_deser ..)

/-- The state at the start of DEC_TEXT, its tree just read. -/
def textStarted (tree : SymTree) (s : State) : State :=
  { treeRead tree s with
    seq := .decText
    hid := { (treeRead tree s).hid with
      deser := [], root := some s.hid.ncount, cur := s.hid.ncount, remain := s.hid.count, outidx := 0 } }

theorem holdsTree_textStarted (tree : SymTree) (s : State) : HoldsTree (textStarted tree s) s.hid.ncount tree :=
  holdsTree_of_layout tree s.hid.nodes fun _ _ _ => rfl

/-- With no parent waiting the tree read is the whole tree, and DEC_TEXT starts at its root (R189, R212). -/
theorem run_deserTree_root {l r : SymTree} (hscalars : (SymTree.node l r).scalars) (hin : s.inputs = [])
    (hseq : s.seq = .deserTree) (hfits : s.hid.latLen.toNat ≤ s.caps.artCap)
    (hroom : s.hid.ncount + (SymTree.node l r).size ≤ s.caps.nodeCap)
    (hthere : s.hid.rpos + (SymTree.node l r).bits.length ≤ 8 * s.hid.latLen.toNat)
    (hspells : Spells s s.hid.rpos (SymTree.node l r).bits) (hdeser : s.hid.deser = []) :
    core.run (SymTree.node l r).size s = .next (textStarted (.node l r) s) := by
  rw [run_deserTree _ hscalars hin hseq hfits hroom hthere hspells, hdeser]
  obtain ⟨a, b, hroot, -, -⟩ := holdsTree_textStarted (.node l r) s
  exact startText_of_internal
    (s := { treeRead (.node l r) s with hid := { (treeRead (.node l r) s).hid with deser := [] } }) hroot

end Reading

/-- Settles O54: the state after the tree's nodes is the one at the start of DEC_TEXT. -/
theorem deserReadsTree : Obligations.DeserReadsTree := by
  unfold Obligations.DeserReadsTree
  intro l r s hl hr hin hseq hncount _ hdeser hfits hroom hthere hspells
  refine ⟨textStarted (.node l r) s,
    run_deserTree_root ⟨hl, hr⟩ hin hseq hfits (by omega) hthere hspells hdeser, rfl, congrArg some hncount, ?_, ?_, rfl,
    hncount, rfl, rfl, rfl, rfl⟩
  · have htree := holdsTree_textStarted (.node l r) s
    rwa [hncount] at htree
  · exact (congrArg (· + _) hncount).trans (Nat.zero_add _)

end Sys2Proof.Proofs
end

section
/-! PROOF. A command runs to its end (70_reset_and_hazards.md R330, R331): what every command's end is, and the bound of a
DECODE, each of whose steps past the header reads at least one bit. -/

namespace Sys2Proof.Proofs

open Sys2Proof Sys2Proof.Machine

/-- The command has ended: the sequencer is idle, BUSY is 0 and DONE 1 (10_state.md R23). -/
structure Ended (s : State) : Prop where
  seq : s.seq = .idle
  busy : s.busy = false
  done : s.done = true

@[simp] theorem statusSucceeded_done : statusSucceeded.getLsbD 1 = true := by decide
@[simp] theorem statusFailed_done (e : CommandError) : (statusFailed e).getLsbD 1 = true := by cases e <;> decide

section Ends

variable {s t : State}

theorem ended_raise (out : OutputMemory) (e : CommandError) (s : State) : Ended (raise out e s) :=
  ⟨rfl, statusFailed_busy e, statusFailed_done e⟩

theorem ended_succeed (len : Word) (s : State) : Ended (succeed len s) := ⟨rfl, statusSucceeded_busy, statusSucceeded_done⟩

/-- The core leaves its stages only by ending the command. -/
theorem ended_of_coreTurn (hrun : s.seq ≠ .idle) (hidle : t.seq = .idle) (h : CoreTurn s t) : Ended t := by
  cases h with
  | rests idle => exact absurd idle hrun
  | fails out e h => exact ended_raise out e _
  | succeeds len h => exact ended_succeed len _
  | emptyInput h => exact ended_succeed 4#32 _
  | goesOn stage h follows => exact absurd hidle (nextStages_running follows).2
  | emits bits h emitting fits => exact absurd ((emitBits_seq bits _).symm.trans hidle) hrun
  | writesSym i v h inText inside => exact absurd hidle hrun

theorem coreTurn_of_step (hin : s.inputs = []) (hstep : step s = .next t) : CoreTurn s t :=
  coreTurn_of_coreStep ((step_eq_coreStep (nextEvent_none hin)).symm.trans hstep)

end Ends

/-! ### DECODE -/

section Decode

variable {s : State}

/-- A DECODE past its header: the next token can be read. -/
structure Reading (s : State) : Prop where
  sound : DecodeOk s
  inputs : s.inputs = []
  stage : s.seq = .deserTree ∨ s.seq = .decText

theorem reading_decodeStages (h : Reading s) : s.seq ∈ decodeStages := by
  rcases h.stage with hseq | hseq <;> simp [decodeStages, hseq]

theorem reading_cursor_le (h : Reading s) : s.hid.rpos ≤ 8 * s.hid.latLen.toNat := (h.sound.stream h.stage).cursor_le

/-- Past the header a step ends the command or reads at least one bit (R330). -/
theorem reading_step (h : Reading s) : ∃ t, step s = .next t ∧
    (Ended t ∨ Reading t ∧ t.hid.latLen = s.hid.latLen ∧ s.hid.rpos < t.hid.rpos) := by
  obtain ⟨t, hstep⟩ := decodeNeverStops s h.sound h.inputs (reading_decodeStages h)
  have hturn := coreTurn_of_step h.inputs hstep
  refine ⟨t, hstep, ?_⟩
  rcases seq_of_coreTurn hturn with hidle | hnext
  · have hrun : s.seq ≠ .idle := by rcases h.stage with hseq | hseq <;> simp [hseq]
    exact .inl (ended_of_coreTurn hrun hidle hturn)
  · obtain ⟨-, -, houtside, hgoes⟩ := decodeStageFrame s t h.inputs (reading_decodeStages h) hstep
    obtain ⟨-, -, -, hlen, -, -, hrpos⟩ := hgoes (nextStages_running hnext).2
    have hstage : t.seq = .deserTree ∨ t.seq = .decText := by
      rcases h.stage with hseq | hseq <;> rw [hseq] at hnext
      · simpa [nextStages] using hnext
      · exact .inr (by simpa [nextStages] using hnext)
    exact .inr ⟨⟨decodeInvariant s t h.sound hstep, houtside.inputs.trans h.inputs, hstage⟩, hlen,
      hrpos (by rcases h.stage with hseq | hseq <;> simp [hseq])⟩

/-- A DECODE past its header ends one step after the last bit at the latest. -/
theorem reading_ends (left : Nat) (h : Reading s) (hleft : 8 * s.hid.latLen.toNat ≤ s.hid.rpos + left) :
    ∃ k ≤ left + 1, ∃ u, core.run k s = .next u ∧ Ended u := by
  induction left generalizing s with
  | zero =>
    obtain ⟨t, hstep, hended | ⟨hreading, hlen, hrpos⟩⟩ := reading_step h
    · exact ⟨1, Nat.le_refl 1, t, (run_one s).trans hstep, hended⟩
    · have := reading_cursor_le hreading
      rw [hlen] at this
      omega
  | succ left ih =>
    obtain ⟨t, hstep, hended | ⟨hreading, hlen, hrpos⟩⟩ := reading_step h
    · exact ⟨1, by omega, t, (run_one s).trans hstep, hended⟩
    · obtain ⟨k, hk, u, hrun, hended⟩ := ih hreading (by rw [hlen]; omega)
      exact ⟨k + 1, by omega, u, (run_succ hstep).trans hrun, hended⟩

/-- The state once the host's DECODE has been accepted (R241). -/
theorem decode_accepted (hbusy : s.busy = false) (hin : s.inputs = [wrCmd 0x00000002#32]) :
    step s = .next (accept 0x00000002#32 .hdr { s with inputs := [] }) := by
  have hidle : ({ s with inputs := [] } : State).busy = false := hbusy
  rw [step_cmdWrite hin]
  exact if_neg (by simp [hidle])

/-- From its header a DECODE ends within `8L + 2` steps (R330). -/
theorem header_ends (hseq : s.seq = .hdr) (hok : DecodeOk s) (hin : s.inputs = []) :
    ∃ k ≤ 8 * s.hid.latLen.toNat + 2, ∃ u, core.run k s = .next u ∧ Ended u := by
  have hstage : s.seq ∈ decodeStages := by simp [decodeStages, hseq]
  obtain ⟨t, hstep⟩ := decodeNeverStops s hok hin hstage
  have hturn := coreTurn_of_step hin hstep
  rcases seq_of_coreTurn hturn with hidle | hnext
  · exact ⟨1, by omega, t, (run_one s).trans hstep, ended_of_coreTurn (by simp [hseq]) hidle hturn⟩
  · obtain ⟨-, -, houtside, hgoes⟩ := decodeStageFrame s t hin hstage hstep
    obtain ⟨-, -, -, hlen, -, -, -⟩ := hgoes (nextStages_running hnext).2
    have htree : t.seq = .deserTree := by rw [hseq] at hnext; simpa [nextStages] using hnext
    obtain ⟨k, hk, u, hrun, hended⟩ := reading_ends (8 * t.hid.latLen.toNat)
      ⟨decodeInvariant s t hok hstep, houtside.inputs.trans hin, .inl htree⟩ (Nat.le_add_left ..)
    exact ⟨k + 1, by rw [hlen] at hk; omega, u, (run_succ hstep).trans hrun, hended⟩

end Decode

/-- Settles O56: the accepted DECODE stands at its header, from which it ends. -/
theorem decodeEnds : Obligations.DecodeEnds := by
  unfold Obligations.DecodeEnds
  intro s hbusy hin
  have haccepted : DecodeOk (accept 0x00000002#32 .hdr { s with inputs := [] }) :=
    ⟨fun _ => ⟨rfl, rfl, rfl⟩, nofun, nofun, nofun⟩
  obtain ⟨k, hk, u, hrun, hended⟩ := header_ends rfl haccepted rfl
  exact ⟨k, u, hk, (run_succ (decode_accepted hbusy hin)).trans hrun, hended.seq, hended.busy, hended.done⟩

end Sys2Proof.Proofs
end

section
/-! PROOF. An ENCODE up to its codes (40_frequency_and_tree.md): COUNT counts the input's symbols, BUILD joins the trees of its
queue into one over all of them, and CODES gives every symbol the path to its leaf. Every stage ends, in an error or in a
state of the next one. -/

namespace Sys2Proof.Proofs

open Sys2Proof Sys2Proof.Machine

/-! ### Running to a state of some kind -/

/-- Some number of steps leads from `s` to `t`. -/
def Reaches (s t : State) : Prop := ∃ k, core.run k s = .next t

/-- The command has ended in an error and nothing is pending. -/
structure EndsInError (s : State) : Prop where
  ended : Ended s
  inputs : s.inputs = []
  status : s.status ≠ 0x00000002#32

/-- The run from `s` ends in an error or comes to a state with `P`. -/
def Arrives (P : State → Prop) (s : State) : Prop := ∃ t, Reaches s t ∧ (EndsInError t ∨ P t)

section Running

variable {P Q : State → Prop} {s t u : State}

theorem reaches_of_step (h : step s = .next t) : Reaches s t := ⟨1, (run_one s).trans h⟩

theorem reaches_trans (h : Reaches s t) (h' : Reaches t u) : Reaches s u := by
  obtain ⟨a, ha⟩ := h
  obtain ⟨b, hb⟩ := h'
  exact ⟨a + b, (run_add ha).trans hb⟩

theorem arrives_here (h : P s) : Arrives P s := ⟨s, ⟨0, rfl⟩, .inr h⟩

theorem arrives_of_reaches (h : Reaches s t) (ht : Arrives P t) : Arrives P s := by
  obtain ⟨u, hu, hend⟩ := ht
  exact ⟨u, reaches_trans h hu, hend⟩

theorem arrives_of_step (h : step s = .next t) (ht : Arrives P t) : Arrives P s := arrives_of_reaches (reaches_of_step h) ht

theorem arrives_bind (h : Arrives P s) (hP : ∀ t, P t → Arrives Q t) : Arrives Q s := by
  obtain ⟨t, hst, herr | ht⟩ := h
  · exact ⟨t, hst, .inl herr⟩
  · exact arrives_of_reaches hst (hP t ht)

theorem statusFailed_ne (e : CommandError) : statusFailed e ≠ 0x00000002#32 := by cases e <;> decide

theorem endsInError_raise (out : OutputMemory) (e : CommandError) (hin : s.inputs = []) : EndsInError (raise out e s) where
  ended := ended_raise out e s
  inputs := by cases out <;> exact hin
  status := statusFailed_ne e

theorem arrives_of_raise {out : OutputMemory} {e : CommandError} {h : Hidden} (hin : s.inputs = [])
    (hstep : step s = .next (raise out e { s with hid := h })) : Arrives P s :=
  ⟨_, reaches_of_step hstep, .inl (endsInError_raise out e hin)⟩

/-- A loop whose every turn leads on or makes a measure smaller arrives. -/
theorem arrives_of_loop {Inv : State → Prop} (measure : State → Nat)
    (hturn : ∀ s, Inv s → Arrives P s ∨ ∃ t, step s = .next t ∧ Inv t ∧ measure t < measure s) (h : Inv s) :
    Arrives P s := by
  induction hm : measure s using Nat.strong_induction_on generalizing s with
  | _ m ih =>
    rcases hturn s h with hdone | ⟨t, hstep, hinv, hless⟩
    · exact hdone
    · exact arrives_of_step hstep (ih (measure t) (hm ▸ hless) hinv rfl)

end Running

/-! ### COUNT -/

/-- FREQ is the alphabet of this input: its keys are the input's symbols, once each, with their numbers of occurrences
(R141). -/
structure Alphabet (xs : List Scalar) (freq : Table Scalar Count) : Prop where
  mem_keys : ∀ c, c ∈ freq.map Prod.fst ↔ c ∈ xs
  sums : ∀ f : Scalar → Nat, (freq.map fun e => e.2.toNat * f e.1).sum = (xs.map f).sum

/-- COUNT has counted this input (R140, R141). -/
structure Counted (xs : List Scalar) (s : State) : Prop where
  inputs : s.inputs = []
  words : ∀ i (h : i < xs.length), readSym s i = symbolWord xs[i]
  room : xs.length ≤ s.caps.symCap
  length : s.hid.n = xs.length
  keys_counted : s.hid.k = s.hid.freq.length
  alphabet : Alphabet xs s.hid.freq
  leaves_le : s.hid.freq.length ≤ s.caps.leafCap

/-- Two states of one ENCODE after COUNT: what COUNT has left is the same. -/
structure SameCount (s t : State) : Prop where
  inputs : t.inputs = s.inputs
  sym : t.sym = s.sym
  caps : t.caps = s.caps
  n : t.hid.n = s.hid.n
  k : t.hid.k = s.hid.k
  freq : t.hid.freq = s.hid.freq

section Count

variable {xs : List Scalar} {s t : State}

theorem readSym_of_sym (h : t.sym = s.sym) : readSym t = readSym s := by
  funext i
  rw [readSym, h, ← readSym]

theorem counted_of_same (h : Counted xs s) (hsame : SameCount s t) : Counted xs t where
  inputs := hsame.inputs.trans h.inputs
  words i hi := by rw [readSym_of_sym hsame.sym, h.words i hi]
  room := by rw [hsame.caps]; exact h.room
  length := hsame.n.trans h.length
  keys_counted := by rw [hsame.k, hsame.freq]; exact h.keys_counted
  alphabet := by rw [hsame.freq]; exact h.alphabet
  leaves_le := by rw [hsame.freq, hsame.caps]; exact h.leaves_le

theorem counted_bound (h : Counted xs s) : 2 * s.hid.k - 1 ≤ s.caps.nodeCap := by
  have := h.leaves_le
  have := s.caps.nodeCap_ge
  rw [h.keys_counted]
  omega

/-- COUNT between two turns, on the input of `s₀`. -/
structure CountsInput (s₀ s : State) : Prop where
  inputs : s.inputs = []
  stage : s.seq = .count
  counting : Counting s
  sound : BuildOk s
  sym : s.sym = s₀.sym
  latLen : s.hid.latLen = s₀.hid.latLen

/-- The first `n` words of SYM are the words of these symbols. -/
structure SymbolsIn (xs : List Scalar) (n : Nat) (s : State) : Prop where
  length : xs.length = n
  words : ∀ i (h : i < xs.length), readSym s i = symbolWord xs[i]

/-- What COUNT leaves for BUILD. -/
structure CountLeft (xs : List Scalar) (s : State) : Prop where
  stage : s.seq = .build
  counted : Counted xs s
  started : s.hid.ncount = 0
  sorted : Table.Sorted BitVec.toNat s.hid.freq
  scalars : ∀ x ∈ xs, isScalar x.toNat = true

theorem alphabet_of_counting (h : Counting s) : Alphabet (symbolsRead s s.hid.idx) s.hid.freq where
  mem_keys := mem_freq_keys h
  sums := sum_freq h

theorem isScalar_of_mem_symbolsRead (h : Counting s) : ∀ c ∈ symbolsRead s s.hid.idx, isScalar c.toNat = true := by
  intro c hc
  obtain ⟨i, hi, rfl⟩ := List.mem_map.1 hc
  exact isScalar_setWidth (h.scalars i (List.mem_range.1 hi))

theorem symbolsIn_symbolsRead {m : Nat} (hscalars : ∀ i, i < m → isScalar (readSym s i).toNat = true) :
    SymbolsIn (symbolsRead s m) m s := by
  refine ⟨by simp [symbolsRead], fun i hi => ?_⟩
  have hm : i < m := by simpa [symbolsRead] using hi
  simp only [symbolsRead, List.getElem_map, List.getElem_range]
  exact (symbolWord_setWidth (hscalars i hm)).symm

/-- The last turn of COUNT (R140, R141). -/
theorem countLeft_of_end {s₀ : State} (h : CountsInput s₀ s) (inRange : s.hid.latLen.toNat ≤ s.caps.symCap)
    (last : s.hid.latLen.toNat ≤ s.hid.idx) : ∃ xs, SymbolsIn xs s₀.hid.latLen.toNat s₀ ∧
    CountLeft xs { s with seq := .build, hid := { s.hid with n := s.hid.latLen.toNat, k := s.hid.freq.length } } := by
  have hidx : s.hid.idx = s.hid.latLen.toNat := Nat.le_antisymm h.counting.idx_le last
  have hin := symbolsIn_symbolsRead h.counting.scalars
  have hlength : (symbolsRead s s.hid.idx).length = s.hid.latLen.toNat := hin.length.trans hidx
  obtain ⟨hncount, -, -, -, hsorted⟩ := h.sound.count h.stage
  refine ⟨symbolsRead s s.hid.idx, ⟨by rw [hlength, h.latLen], fun i hi => ?_⟩, rfl, ?_, hncount, hsorted,
    isScalar_of_mem_symbolsRead h.counting⟩
  · rw [← readSym_of_sym h.sym, hin.words i hi]
  · exact ⟨h.inputs, hin.words, hlength ▸ inRange, hlength.symm, rfl, alphabet_of_counting h.counting, h.counting.size_le⟩

/-- COUNT ends: in an error, or with a non-empty input counted. -/
theorem count_arrives {s₀ : State} (hnonempty : s₀.hid.latLen ≠ 0#32) (h : CountsInput s₀ s) :
    Arrives (fun t => ∃ xs, SymbolsIn xs s₀.hid.latLen.toNat s₀ ∧ CountLeft xs t) s := by
  refine arrives_of_loop (fun s => s.hid.latLen.toNat - s.hid.idx) (fun s h => ?_) h
  obtain ⟨t, hcount, hturn⟩ := countStep_turn s
  have hstep : step s = .next t := (step_coreTurn_done h.inputs (coreTurn_count h.stage)).trans hcount
  have hsound : BuildOk t := buildOk_of_countTurn h.sound h.stage hturn
  have hok : CountOk t := countOk_of_countTurn h.counting hturn
  cases hturn with
  | fails e h' => exact .inl (arrives_of_raise h.inputs hstep)
  | empty zero => exact absurd (h.latLen.symm.trans zero) hnonempty
  | counts c m inRange more scalar word old room =>
    refine .inr ⟨_, hstep, ⟨h.inputs, h.stage, hok h.stage, hsound, h.sym, h.latLen⟩, ?_⟩
    exact Nat.sub_lt_sub_left more (Nat.lt_succ_self s.hid.idx)
  | ends inRange nonempty last =>
    exact .inl (arrives_of_step hstep (arrives_here (countLeft_of_end h inRange last)))

end Count

/-! ### Trees and their leaves -/

/-- The symbols at a tree's leaves, from left to right. -/
def treeLeaves : SymTree → List Scalar
  | .leaf c => [c]
  | .node l r => treeLeaves l ++ treeLeaves r

/-- The path `code` leads from the root of the tree to a leaf with the symbol `c` (R148: left is 0, right is 1). -/
inductive Leads : SymTree → Bits → Scalar → Prop where
  | leaf (c : Scalar) : Leads (.leaf c) [] c
  | left {l r : SymTree} {code : Bits} {c : Scalar} (h : Leads l code c) : Leads (.node l r) (false :: code) c
  | right {l r : SymTree} {code : Bits} {c : Scalar} (h : Leads r code c) : Leads (.node l r) (true :: code) c

theorem size_of_leaves (tree : SymTree) : tree.size + 1 = 2 * (treeLeaves tree).length := by
  induction tree with
  | leaf c => rfl
  | node l r ihl ihr =>
    rw [SymTree.size, treeLeaves, List.length_append]
    omega

theorem treeBits_length (tree : SymTree) :
    tree.bits.length = tree.size + 8 * ((treeLeaves tree).map fun c => (utf8Encode c).length).sum := by
  induction tree with
  | leaf c => simp [SymTree.bits, SymTree.size, treeLeaves, leafToken, leafBits_length]
  | node l r ihl ihr =>
    simp only [SymTree.bits, SymTree.size, treeLeaves, List.length_cons, List.length_append, List.map_append, List.sum_append]
    omega

theorem scalars_of_leaves {tree : SymTree} (h : ∀ c ∈ treeLeaves tree, isScalar c.toNat = true) : tree.scalars := by
  induction tree with
  | leaf c => exact h c (List.mem_singleton_self c)
  | node l r ihl ihr =>
    exact ⟨ihl fun c hc => h c (List.mem_append_left _ hc), ihr fun c hc => h c (List.mem_append_right _ hc)⟩

/-! ### BUILD -/

/-- PQ holds the roots of trees whose leaves together are FREQ's keys. -/
def Forest (trees : Nat → SymTree) (s : State) : Prop :=
  (∀ i ∈ s.hid.pq, HoldsTree s i (trees i)) ∧
    (s.hid.pq.flatMap fun i => treeLeaves (trees i)).Perm (s.hid.freq.map Prod.fst)

/-- BUILD between two merges, on a counted input. -/
structure Merges (xs : List Scalar) (s : State) : Prop where
  stage : s.seq = .build
  counted : Counted xs s
  merging : Merging s
  forest : ∃ trees, Forest trees s

/-- What BUILD leaves for CODES: one tree over FREQ's keys, the walk at its root. -/
structure BuildLeft (xs : List Scalar) (s : State) : Prop where
  stage : s.seq = .codes
  counted : Counted xs s
  two_symbols : 2 ≤ s.hid.k
  tree : ∃ root tree, s.hid.root = some root ∧ s.hid.walk = [(root, [])] ∧ s.hid.codes = [] ∧ HoldsTree s root tree ∧
    (treeLeaves tree).Perm (s.hid.freq.map Prod.fst)

section Build

variable {xs : List Scalar} {s : State} {a b : Nat}

/-- The leaf of FREQ's key number `i`. -/
def keyLeaf (freq : Table Scalar Count) (i : Nat) : SymTree := .leaf (((freq.map Prod.fst)[i]?).getD 0#21)

theorem forest_makeLeaves (hkeys : s.hid.k = s.hid.freq.length) : Forest (keyLeaf s.hid.freq) (makeLeaves s) := by
  refine ⟨fun i hi => ?_, ?_⟩
  · have hi : i < s.hid.freq.length := hkeys ▸ List.mem_range.1 hi
    rw [keyLeaf, HoldsTree, nodeAt_makeLeaves]
    simp [hi]
  · change ((List.range s.hid.k).flatMap fun i => [((s.hid.freq.map Prod.fst)[i]?).getD 0#21]).Perm (s.hid.freq.map Prod.fst)
    refine List.Perm.of_eq ?_
    rw [← List.map_eq_flatMap, hkeys]
    refine List.ext_getElem (by simp) fun i hi hi' => ?_
    simp [show i < s.hid.freq.length by simpa using hi']

theorem forest_merged {trees : Nat → SymTree} (h : Forest trees s) (hmerging : Merging s) (ha : a ∈ s.hid.pq)
    (hb : b ∈ s.hid.pq) (hne : a ≠ b) :
    Forest (Function.update trees s.hid.ncount (.node (trees a) (trees b))) (merged a b s) := by
  obtain ⟨hholds, hperm⟩ := h
  have hold : ∀ i ∈ s.hid.pq, Function.update trees s.hid.ncount (.node (trees a) (trees b)) i = trees i := fun i hi =>
    Function.update_of_ne (Nat.ne_of_lt (hmerging.pq_below i hi)) ..
  have hkept : ∀ i node, nodeAt s i = some node → nodeAt (merged a b s) i = some node := fun i node hnode => by
    rw [nodeAt_merged_old, hnode]
    rintro rfl
    rw [nodeAt_of_ge hmerging.built (Nat.le_refl _)] at hnode
    cases hnode
  refine ⟨fun i hi => ?_, ?_⟩
  · rw [merged_pq] at hi
    rcases List.mem_append.1 hi with hi | hi
    · have hi := List.mem_of_mem_filter hi
      rw [hold i hi]
      exact holdsTree_mono hkept (hholds i hi)
    · rw [List.mem_singleton.1 hi, Function.update_self]
      exact ⟨a, b, nodeAt_merged_new a b s, holdsTree_mono hkept (hholds a ha), holdsTree_mono hkept (hholds b hb)⟩
  · rw [merged_pq, List.flatMap_append, List.flatMap_singleton, Function.update_self]
    have hrest : ((s.hid.pq.filter fun j => decide (j ≠ a ∧ j ≠ b)).flatMap fun i =>
        treeLeaves (Function.update trees s.hid.ncount (.node (trees a) (trees b)) i)) =
        (s.hid.pq.filter fun j => decide (j ≠ a ∧ j ≠ b)).flatMap fun i => treeLeaves (trees i) :=
      List.flatMap_congr fun i hi => by rw [hold i (List.mem_of_mem_filter hi)]
    have hsplit := (perm_of_two hmerging.pq_rising.nodup ha hb hne).flatMap_right fun i => treeLeaves (trees i)
    rw [List.flatMap_cons, List.flatMap_cons, ← List.append_assoc] at hsplit
    rw [hrest]
    exact List.perm_append_comm.trans (hsplit.symm.trans hperm)

theorem merges_ncount (h : Merges xs s) : s.hid.ncount ≠ 0 := by
  have := h.merging.built.two_symbols
  have := h.merging.built.leaves_made
  omega

/-- The one tree left is the root's. -/
theorem buildLeft_rootTaken (h : Merges xs s) (hone : ¬ 2 ≤ s.hid.pq.length) {r : Nat} (hr : r ∈ s.hid.pq) :
    BuildLeft xs (rootTaken r s) := by
  obtain ⟨trees, hholds, hperm⟩ := h.forest
  have hpos := List.length_pos_of_mem hr
  obtain ⟨x, hx⟩ := List.length_eq_one_iff.1 (show s.hid.pq.length = 1 by omega)
  obtain rfl : r = x := List.mem_singleton.1 (hx ▸ hr)
  rw [hx, List.flatMap_singleton] at hperm
  exact ⟨rfl, counted_of_same h.counted ⟨rfl, rfl, rfl, rfl, rfl, rfl⟩, h.merging.built.two_symbols,
    r, trees r, rfl, rfl, rfl, holdsTree_of_nodes (s := s) (by rfl) (hholds r hr), hperm⟩

theorem merges_arrives (h : Merges xs s) : Arrives (BuildLeft xs) s := by
  refine arrives_of_loop (fun s => s.hid.pq.length) (fun s h => ?_) h
  have hbuild : step s = buildStep s := step_coreTurn_done h.counted.inputs (coreTurn_build h.stage)
  by_cases htwo : 2 ≤ s.hid.pq.length
  · obtain ⟨a, b, ha, hb, hne, -, -, hmerge⟩ := mergeStep_of_two h.merging.pq_rising.nodup htwo
    obtain ⟨trees, hforest⟩ := h.forest
    have hstep : step s = .next (merged a b s) := hbuild.trans ((buildStep_of_merge (merges_ncount h) htwo).trans hmerge)
    refine .inr ⟨_, hstep, ⟨h.stage, counted_of_same h.counted ⟨rfl, rfl, rfl, rfl, rfl, rfl⟩,
      merging_merged h.merging ha hb hne, _, forest_merged hforest h.merging ha hb hne⟩, ?_⟩
    have hlen := (perm_of_two h.merging.pq_rising.nodup ha hb hne).length_eq
    simp only [merged_pq, List.length_append, List.length_cons, List.length_nil] at hlen ⊢
    omega
  · obtain ⟨r, hr, htake⟩ := takeRoot_of_mem h.merging.newest
    have hroot : buildStep s = takeRoot s := by simp only [buildStep, if_neg (merges_ncount h), if_neg htwo]
    exact .inl (arrives_of_step (hbuild.trans (hroot.trans htake)) (arrives_here (buildLeft_rootTaken h htwo hr)))

/-- BUILD ends: in DegenerateAlphabet, or with one tree over FREQ's keys (R142 to R145). -/
theorem build_arrives (h : CountLeft xs s) : Arrives (BuildLeft xs) s := by
  have hbuild : step s = buildStep s := step_coreTurn_done h.counted.inputs (coreTurn_build h.stage)
  by_cases hk : s.hid.k < 2
  · exact arrives_of_raise (h := s.hid) h.counted.inputs (hbuild.trans (buildStep_of_degenerate h.started hk))
  · have hk : 2 ≤ s.hid.k := Nat.le_of_not_lt hk
    have hkeys := h.counted.keys_counted
    refine arrives_of_step (hbuild.trans (buildStep_of_start h.started hk)) (merges_arrives ?_)
    exact ⟨h.stage, counted_of_same h.counted ⟨rfl, rfl, rfl, rfl, rfl, rfl⟩, merging_makeLeaves hk hkeys h.sorted,
      _, forest_makeLeaves hkeys⟩

end Build

/-! ### CODES -/

/-- The CODES store after the walk over a tree that stands at this path (R148). -/
def putCodes : SymTree → Bits → Table Scalar Bits → Table Scalar Bits
  | .leaf c, path, codes => Table.put BitVec.toNat c path codes
  | .node l r, path, codes => putCodes r (path ++ [true]) (putCodes l (path ++ [false]) codes)

theorem get_putCodes_other {c : Scalar} (tree : SymTree) (hc : c ∉ treeLeaves tree) (path : Bits) (codes : Table Scalar Bits) :
    Table.get BitVec.toNat c (putCodes tree path codes) = Table.get BitVec.toNat c codes := by
  induction tree generalizing path codes with
  | leaf d => exact Table.get_put_other (fun h => hc (List.mem_singleton.2 (BitVec.eq_of_toNat_eq h))) ..
  | node l r ihl ihr =>
    rw [treeLeaves, List.mem_append, not_or] at hc
    rw [putCodes, ihr hc.2, ihl hc.1]

/-- A leaf's symbol has the path that leads to it as its code. -/
theorem get_putCodes {c : Scalar} (tree : SymTree) (hc : c ∈ treeLeaves tree) (path : Bits) (codes : Table Scalar Bits) :
    ∃ code, Leads tree code c ∧ Table.get BitVec.toNat c (putCodes tree path codes) = some (path ++ code) := by
  induction tree generalizing path codes with
  | leaf d =>
    obtain rfl : c = d := List.mem_singleton.1 hc
    exact ⟨[], .leaf c, by rw [putCodes, Table.get_put_same, List.append_nil]⟩
  | node l r ihl ihr =>
    by_cases hr : c ∈ treeLeaves r
    · obtain ⟨code, hleads, hget⟩ := ihr hr (path ++ [true]) (putCodes l (path ++ [false]) codes)
      exact ⟨true :: code, .right hleads, by rw [putCodes, hget, List.append_assoc, List.singleton_append]⟩
    · obtain ⟨code, hleads, hget⟩ := ihl ((List.mem_append.1 hc).resolve_right hr) (path ++ [false]) codes
      exact ⟨false :: code, .left hleads,
        by rw [putCodes, get_putCodes_other r hr, hget, List.append_assoc, List.singleton_append]⟩

/-- CODES walks a tree off its stack, in as many steps as the tree has nodes (R148). -/
theorem run_codes (tree : SymTree) {s : State} {i : Nat} {path : Bits} {rest : List (Nat × Bits)} (hin : s.inputs = [])
    (hseq : s.seq = .codes) (hwalk : s.hid.walk = (i, path) :: rest) (htree : HoldsTree s i tree) :
    core.run tree.size s = .next { s with hid := { s.hid with walk := rest, codes := putCodes tree path s.hid.codes } } := by
  induction tree generalizing s i path rest with
  | leaf c =>
    rw [SymTree.size, run_one, step_coreTurn_done hin (coreTurn_codes hseq)]
    exact codesStep_of_leaf hwalk htree
  | node l r ihl ihr =>
    obtain ⟨a, b, hnode, hl, hr⟩ := htree
    have hfirst := (step_coreTurn_done hin (coreTurn_codes hseq)).trans (codesStep_of_internal hwalk hnode)
    have hleft := ihl (s := { s with hid := { s.hid with walk := (a, path ++ [false]) :: (b, path ++ [true]) :: rest } })
      hin hseq rfl (holdsTree_of_nodes (s := s) (by rfl) hl)
    have hright := ihr (s := { s with
      hid := { s.hid with walk := (b, path ++ [true]) :: rest, codes := putCodes l (path ++ [false]) s.hid.codes } })
      hin hseq rfl (holdsTree_of_nodes (s := s) (by rfl) hr)
    rw [SymTree.size, Nat.add_assoc, Nat.add_comm 1, run_succ hfirst]
    exact (run_add hleft).trans hright

/-- What a code table of the input is good for: every symbol's code leads to it in the tree. -/
structure Coding (xs : List Scalar) (tree : SymTree) (code : Scalar → Bits) : Prop where
  leads : ∀ x ∈ xs, Leads tree (code x) x
  two_leaves : 2 ≤ (treeLeaves tree).length
  leaves : ∀ c ∈ treeLeaves tree, c ∈ xs

/-- What CODES leaves for SIZE. -/
structure CodesLeft (xs : List Scalar) (tree : SymTree) (code : Scalar → Bits) (s : State) : Prop where
  stage : s.seq = .size
  counted : Counted xs s
  keys : (treeLeaves tree).Perm (s.hid.freq.map Prod.fst)
  root : ∃ root, s.hid.root = some root ∧ HoldsTree s root tree
  codes : ∀ x ∈ xs, codeOf s x = some (code x)

/-- The code each symbol takes from a walk over the whole tree. -/
def treeCode (tree : SymTree) (c : Scalar) : Bits := (Table.get BitVec.toNat c (putCodes tree [] [])).getD []

theorem treeCode_of_leaf {c : Scalar} (tree : SymTree) (hc : c ∈ treeLeaves tree) :
    Leads tree (treeCode tree c) c ∧ Table.get BitVec.toNat c (putCodes tree [] []) = some (treeCode tree c) := by
  obtain ⟨code, hleads, hget⟩ := get_putCodes tree hc [] []
  rw [List.nil_append] at hget
  rw [treeCode, hget]
  exact ⟨hleads, rfl⟩

/-- The state at the end of the walk over a whole tree. -/
def codesMade (tree : SymTree) (s : State) : State :=
  { s with hid := { s.hid with walk := [], codes := putCodes tree [] s.hid.codes } }

/-- CODES ends, with every symbol's code in place (R148). -/
theorem codes_arrives {xs : List Scalar} {s : State} (h : BuildLeft xs s) :
    Arrives (fun t => ∃ tree code, Coding xs tree code ∧ CodesLeft xs tree code t) s := by
  obtain ⟨root, tree, hroot, hwalk, hcodes, htree, hperm⟩ := h.tree
  have hleaf : ∀ c, c ∈ treeLeaves tree ↔ c ∈ xs := fun c => hperm.mem_iff.trans (h.counted.alphabet.mem_keys c)
  have hlength : (treeLeaves tree).length = s.hid.k := by
    rw [hperm.length_eq, List.length_map, h.counted.keys_counted]
  have hrun : Reaches s (codesMade tree s) := ⟨_, run_codes tree h.counted.inputs h.stage hwalk htree⟩
  have hend : step (codesMade tree s) = .next { codesMade tree s with seq := .size } :=
    (step_coreTurn_done (s := codesMade tree s) h.counted.inputs (coreTurn_codes h.stage)).trans (codesStep_of_end rfl)
  refine arrives_of_reaches hrun (arrives_of_step hend (arrives_here ⟨tree, treeCode tree, ?coding, ?left⟩))
  case coding =>
    exact ⟨fun x hx => (treeCode_of_leaf tree ((hleaf x).2 hx)).1, hlength ▸ h.two_symbols, fun c => (hleaf c).1⟩
  case left =>
    refine ⟨rfl, counted_of_same h.counted ⟨rfl, rfl, rfl, rfl, rfl, rfl⟩, hperm,
      ⟨root, hroot, holdsTree_of_nodes (s := s) (by rfl) htree⟩, fun x hx => ?_⟩
    have hget : codeOf { codesMade tree s with seq := .size } x = Table.get BitVec.toNat x (putCodes tree [] s.hid.codes) := rfl
    rw [hget, hcodes]
    exact (treeCode_of_leaf tree ((hleaf x).2 hx)).2

end Sys2Proof.Proofs
end

section
/-! PROOF. An ENCODE from its codes to its end (41_tree_codec.md, 42_text_codec.md R210, 43_commands.md R244, R245): SIZE finds
the exact length, SER_TREE and ENC_TEXT emit exactly the artifact's bits, and PAD ends the command. -/

namespace Sys2Proof.Proofs

open Sys2Proof Sys2Proof.Machine

/-- The artifact header of an input of `n` symbols (30_encoding.md R103). -/
def headerBits (n : Nat) : Bits := bitsOf (BitVec.ofNat 32 n)

/-- The bits of the artifact before its padding: the header, the tree, the text (43_commands.md R245). -/
def artifactBits (xs : List Scalar) (tree : SymTree) (code : Scalar → Bits) : Bits :=
  headerBits xs.length ++ tree.bits ++ xs.flatMap code

/-- An ENCODE past SIZE, with what the emitting stages read and the room they need. -/
structure Emitting (xs : List Scalar) (tree : SymTree) (code : Scalar → Bits) (s : State) : Prop where
  inputs : s.inputs = []
  words : ∀ i (h : i < xs.length), readSym s i = symbolWord xs[i]
  scalars : ∀ x ∈ xs, isScalar x.toNat = true
  length : s.hid.n = xs.length
  room : xs.length ≤ s.caps.symCap
  nodes : tree.size ≤ s.caps.nodeCap
  codes : ∀ x ∈ xs, codeOf s x = some (code x)
  total : s.hid.totalBits = (artifactBits xs tree code).length
  fits : bytesFor (artifactBits xs tree code).length ≤ s.caps.artCap

/-- Two states of one ENCODE past SIZE. -/
structure SameEmission (s t : State) : Prop where
  inputs : t.inputs = s.inputs
  sym : t.sym = s.sym
  caps : t.caps = s.caps
  n : t.hid.n = s.hid.n
  codes : t.hid.codes = s.hid.codes
  totalBits : t.hid.totalBits = s.hid.totalBits

/-- These bits are what has been emitted so far. -/
def Emitted (bits : Bits) (s : State) : Prop := s.hid.wpos = bits.length ∧ Spells s 0 bits

section Emission

variable {xs : List Scalar} {tree : SymTree} {code : Scalar → Bits} {s t : State}

theorem emitting_of_same (h : Emitting xs tree code s) (hsame : SameEmission s t) : Emitting xs tree code t where
  inputs := hsame.inputs.trans h.inputs
  words i hi := by rw [readSym_of_sym hsame.sym, h.words i hi]
  scalars := h.scalars
  length := hsame.n.trans h.length
  room := by rw [hsame.caps]; exact h.room
  nodes := by rw [hsame.caps]; exact h.nodes
  codes x hx := by rw [codeOf, hsame.codes]; exact h.codes x hx
  total := hsame.totalBits.trans h.total
  fits := by rw [hsame.caps]; exact h.fits

theorem sameEmission_emitBits (bits : Bits) (s : State) : SameEmission s (emitBits bits s) := by
  rw [emitBits_frame]
  exact ⟨rfl, rfl, rfl, rfl, rfl, rfl⟩

theorem emitted_emitBits {bits : Bits} (more : Bits) (h : Emitted bits s) : Emitted (bits ++ more) (emitBits more s) := by
  obtain ⟨hwpos, hspells⟩ := h
  refine ⟨by rw [emitBits_wpos, hwpos, List.length_append], spells_append.2 ⟨?_, ?_⟩⟩
  · exact spells_emitBits_before more hspells (by omega)
  · rw [Nat.zero_add, ← hwpos]
    exact spells_emitBits more s

theorem natBits_eq_headerBits {n : Nat} (h : n < 2 ^ 32) : natBits 32 n = headerBits n := by
  rw [headerBits, bitsOf, BitVec.toNat_ofNat, Nat.mod_eq_of_lt h]

theorem headerBits_length (n : Nat) : (headerBits n).length = 32 := bitsOf_length _

/-- The artifact's bits fill no more than ART. -/
theorem artifact_fits (h : Emitting xs tree code s) : (artifactBits xs tree code).length ≤ 8 * s.caps.artCap := by
  have := h.fits
  unfold bytesFor at this
  omega

theorem length_lt_of_room (h : xs.length ≤ s.caps.symCap) : xs.length < 2 ^ 32 := by
  have := s.caps.symCap_le
  omega

end Emission

/-! ### SIZE -/

section Size

variable {xs : List Scalar} {tree : SymTree} {code : Scalar → Bits} {s : State}

/-- What SIZE leaves for SER_TREE: emission starts at bit 0 with the whole tree to serialize. -/
structure SizeLeft (xs : List Scalar) (tree : SymTree) (code : Scalar → Bits) (s : State) : Prop where
  stage : s.seq = .serTree
  emitting : Emitting xs tree code s
  start : s.hid.wpos = 0
  root : ∃ root, s.hid.ser = [root] ∧ HoldsTree s root tree

/-- A tree over FREQ's keys has `2k - 1` nodes (R145). -/
theorem size_of_keys (h : CodesLeft xs tree code s) : tree.size = 2 * s.hid.k - 1 := by
  have hsize := size_of_leaves tree
  have hkeys := h.keys.length_eq
  rw [List.length_map, ← h.counted.keys_counted] at hkeys
  omega

/-- SIZE's total is the artifact's length (R244): the sums over FREQ are sums over the tree's leaves and over the input. -/
theorem total_of_keys (h : CodesLeft xs tree code s) :
    32 + (2 * s.hid.k - 1 + 8 * (s.hid.freq.map fun e => (utf8Encode e.1).length).sum)
      + (s.hid.freq.map fun e => e.2.toNat * ((codeOf s e.1).getD []).length).sum = (artifactBits xs tree code).length := by
  have hleaves : (s.hid.freq.map fun e => (utf8Encode e.1).length).sum =
      ((treeLeaves tree).map fun c => (utf8Encode c).length).sum := by
    rw [(h.keys.map _).sum_eq, List.map_map]
    rfl
  have htext : (xs.map fun x => ((codeOf s x).getD []).length).sum = (xs.flatMap code).length := by
    rw [List.length_flatMap]
    exact congrArg List.sum (List.map_congr_left fun x hx => by rw [h.codes x hx, Option.getD_some])
  rw [h.counted.alphabet.sums fun c => ((codeOf s c).getD []).length, hleaves, htext, artifactBits, List.length_append,
    List.length_append, headerBits_length, treeBits_length, size_of_keys h]

/-- SIZE ends: in CapacityExceeded, or with room for the whole artifact (R244). -/
theorem size_arrives (h : CodesLeft xs tree code s) (hscalars : ∀ x ∈ xs, isScalar x.toNat = true) :
    Arrives (SizeLeft xs tree code) s := by
  obtain ⟨root, hroot, htree⟩ := h.root
  have hcodes : ∀ e ∈ s.hid.freq, (codeOf s e.1).isSome = true := fun e he => by
    rw [h.codes e.1 ((h.counted.alphabet.mem_keys e.1).1 (List.mem_map_of_mem he))]
    rfl
  have hstep : step s = sizeStep s := step_coreTurn_done h.counted.inputs (coreTurn_size h.stage)
  have hsize := sizeStep_of_text hroot (textLength_of_codes hcodes) rfl
  rw [payloadLength_eq_sum, total_of_keys h] at hsize
  by_cases hfits : bytesFor (artifactBits xs tree code).length ≤ s.caps.artCap
  · rw [if_neg (Nat.not_lt_of_le hfits)] at hsize
    have hnodes : tree.size ≤ s.caps.nodeCap := size_of_keys h ▸ counted_bound h.counted
    exact arrives_of_step (hstep.trans hsize) (arrives_here ⟨rfl, ⟨h.counted.inputs, h.counted.words, hscalars, h.counted.length,
      h.counted.room, hnodes, h.codes, rfl, hfits⟩, rfl, root, rfl, holdsTree_of_nodes (s := s) (by rfl) htree⟩)
  · rw [if_pos (Nat.lt_of_not_le hfits)] at hsize
    exact arrives_of_raise (h := s.hid) h.counted.inputs (hstep.trans hsize)

end Size

/-! ### SER_TREE and ENC_TEXT -/

section Text

variable {xs : List Scalar} {tree : SymTree} {code : Scalar → Bits} {s : State}

/-- ENC_TEXT between two symbols: `done` of the input's symbols are encoded (R210). -/
structure EncodingText (xs : List Scalar) (tree : SymTree) (code : Scalar → Bits) (done : List Scalar) (s : State) :
    Prop where
  stage : s.seq = .encText
  emitting : Emitting xs tree code s
  index : s.hid.idx = done.length
  emitted : Emitted (headerBits xs.length ++ tree.bits ++ done.flatMap code) s

/-- The state of SER_TREE with the header and the whole tree emitted. -/
def treeEmitted (n : Nat) (tree : SymTree) (s : State) : State :=
  emitBits tree.bits (withSer [] (emitBits (headerBits n) s))

theorem reaches_treeEmitted (h : SizeLeft xs tree code s) : Reaches s (treeEmitted xs.length tree s) := by
  obtain ⟨root, hser, htree⟩ := h.root
  have hin := h.emitting.inputs
  have hroom := artifact_fits h.emitting
  rw [artifactBits, List.length_append, List.length_append, headerBits_length] at hroom
  have hheader : step s = .next (emitBits (headerBits xs.length) s) := by
    rw [step_coreTurn_done hin (coreTurn_serTree h.stage), serStep_of_header h.start, h.emitting.length,
      natBits_eq_headerBits (length_lt_of_room h.emitting.room)]
  have hwpos : (emitBits (headerBits xs.length) s).hid.wpos = 32 := by
    rw [emitBits_wpos, h.start, headerBits_length]
  have hrun := run_serTree tree (s := emitBits (headerBits xs.length) s) (i := root) (rest := [])
    ((emitBits_inputs ..).trans hin) ((emitBits_seq ..).trans h.stage) (by rw [hwpos]; decide)
    (by rw [emitBits_hid]; exact hser) (holdsTree_of_nodes (s := s) (by rw [emitBits_hid]) htree)
    (by rw [hwpos, emitBits_caps]; omega)
  exact reaches_trans (reaches_of_step hheader) ⟨_, hrun⟩

theorem emitting_treeEmitted (h : Emitting xs tree code s) (n : Nat) : Emitting xs tree code (treeEmitted n tree s) := by
  have hheader := emitting_of_same h (sameEmission_emitBits (headerBits n) s)
  have hser : Emitting xs tree code (withSer [] (emitBits (headerBits n) s)) :=
    emitting_of_same hheader ⟨rfl, rfl, rfl, rfl, rfl, rfl⟩
  exact emitting_of_same hser (sameEmission_emitBits tree.bits _)

theorem emitted_treeEmitted (hstart : s.hid.wpos = 0) (n : Nat) :
    Emitted (headerBits n ++ tree.bits) (treeEmitted n tree s) := by
  have hempty : Emitted [] s := ⟨hstart, nofun⟩
  exact emitted_emitBits (s := withSer [] (emitBits (headerBits n) s)) tree.bits (emitted_emitBits _ hempty)

/-- SER_TREE ends with the header and the tree emitted (R180 to R183). -/
theorem serTree_arrives (h : SizeLeft xs tree code s) : Arrives (EncodingText xs tree code []) s := by
  have hemitting := emitting_treeEmitted h.emitting xs.length
  have hemitted := emitted_treeEmitted (tree := tree) h.start xs.length
  have hstage : (treeEmitted xs.length tree s).seq = .serTree := by
    rw [treeEmitted, emitBits_seq]
    exact (emitBits_seq ..).trans h.stage
  have hser : (treeEmitted xs.length tree s).hid.ser = [] := by
    rw [treeEmitted, emitBits_hid]
    rfl
  have hstarted : (treeEmitted xs.length tree s).hid.wpos ≠ 0 := by
    rw [hemitted.1, List.length_append, headerBits_length]
    omega
  have hend := (step_coreTurn_done hemitting.inputs (coreTurn_serTree hstage)).trans (serStep_of_end hstarted hser)
  refine arrives_of_reaches (reaches_treeEmitted h) (arrives_of_step hend (arrives_here ⟨rfl,
    emitting_of_same hemitting ⟨rfl, rfl, rfl, rfl, rfl, rfl⟩, rfl, ?_⟩))
  rw [List.flatMap_nil, List.append_nil]
  exact hemitted

/-- What ENC_TEXT leaves for PAD: the whole artifact is in ART. -/
structure TextLeft (xs : List Scalar) (tree : SymTree) (code : Scalar → Bits) (s : State) : Prop where
  stage : s.seq = .pad
  emitting : Emitting xs tree code s
  spells : Spells s 0 (artifactBits xs tree code)

/-- ENC_TEXT emits one more symbol's code (R210). -/
theorem encodingText_next {done rest : List Scalar} {x : Scalar} (hxs : xs = done ++ x :: rest)
    (h : EncodingText xs tree code done s) :
    ∃ t, step s = .next t ∧ EncodingText xs tree code (done ++ [x]) t := by
  have hx : x ∈ xs := by simp [hxs]
  have hindex : s.hid.idx < xs.length := by rw [h.index, hxs]; simp
  have hword : readSym s s.hid.idx = symbolWord x := by
    rw [h.emitting.words _ hindex]
    simp [h.index, hxs]
  have hfits : s.hid.wpos + (code x).length ≤ 8 * s.caps.artCap := by
    refine Nat.le_trans ?_ (artifact_fits h.emitting)
    rw [h.emitted.1, artifactBits, hxs]
    simp only [List.flatMap_append, List.flatMap_cons, List.length_append]
    omega
  have hstep : step s = .next (emitBits (code x) { s with hid := { s.hid with idx := s.hid.idx + 1 } }) :=
    (step_coreTurn_done h.emitting.inputs (coreTurn_encText h.stage)).trans
      (encTextStep_of_code (h.emitting.length ▸ hindex) (Nat.lt_of_lt_of_le hindex h.emitting.room)
        (by rw [hword, wordSymbol_symbolWord (h.emitting.scalars x hx)]) (h.emitting.codes x hx) hfits)
  refine ⟨_, hstep, (emitBits_seq ..).trans h.stage, ?_, ?_, ?_⟩
  · have hmoved : Emitting xs tree code { s with hid := { s.hid with idx := s.hid.idx + 1 } } :=
      emitting_of_same h.emitting ⟨rfl, rfl, rfl, rfl, rfl, rfl⟩
    exact emitting_of_same hmoved (sameEmission_emitBits _ _)
  · rw [emitBits_hid, List.length_append]
    exact congrArg (· + 1) h.index
  · rw [List.flatMap_append, List.flatMap_singleton, ← List.append_assoc]
    exact emitted_emitBits (s := { s with hid := { s.hid with idx := s.hid.idx + 1 } }) (code x) h.emitted

/-- ENC_TEXT ends with the whole artifact emitted (R210). -/
theorem encText_arrives {done rest : List Scalar} (hxs : xs = done ++ rest) (h : EncodingText xs tree code done s) :
    Arrives (TextLeft xs tree code) s := by
  induction rest generalizing done s with
  | nil =>
    rw [List.append_nil] at hxs
    have hlast : s.hid.n ≤ s.hid.idx := by rw [h.emitting.length, h.index, hxs]
    have hend := (step_coreTurn_done h.emitting.inputs (coreTurn_encText h.stage)).trans (encTextStep_of_end hlast)
    exact arrives_of_step hend (arrives_here ⟨rfl, emitting_of_same h.emitting ⟨rfl, rfl, rfl, rfl, rfl, rfl⟩,
      by rw [artifactBits]; exact hxs ▸ h.emitted.2⟩)
  | cons x rest ih =>
    obtain ⟨t, hstep, ht⟩ := encodingText_next hxs h
    exact arrives_of_step hstep (ih (by rw [hxs, List.append_assoc, List.singleton_append]) ht)

end Text

/-! ### The end of an ENCODE -/

/-- A successful ENCODE has left an artifact that begins with these bits (43_commands.md R245, R251). -/
structure ArtifactWritten (bits : Bits) (s : State) : Prop where
  ended : Ended s
  inputs : s.inputs = []
  whole : bits.length ≤ 8 * s.outLen.toNat
  inside : s.outLen.toNat ≤ s.caps.artCap
  spells : Spells s 0 bits

/-- What a successful ENCODE of this input leaves: the header of an empty artifact (R243), or the artifact of a coding. -/
inductive Encoded (xs : List Scalar) (s : State) : Prop where
  | empty (nil : xs = []) (written : ArtifactWritten (headerBits 0) s)
  | coded (tree : SymTree) (code : Scalar → Bits) (coding : Coding xs tree code)
      (scalars : ∀ x ∈ xs, isScalar x.toNat = true) (room : xs.length ≤ s.caps.symCap)
      (nodes : tree.size ≤ s.caps.nodeCap) (written : ArtifactWritten (artifactBits xs tree code) s)

section Encode

variable {xs : List Scalar} {s : State}

theorem pad_arrives {tree : SymTree} {code : Scalar → Bits} (hcoding : Coding xs tree code) (h : TextLeft xs tree code s) :
    Arrives (Encoded xs) s := by
  have hlen : (BitVec.ofNat 32 (bytesFor s.hid.totalBits)).toNat = bytesFor (artifactBits xs tree code).length := by
    have hcap := s.caps.artCap_le
    have hfits := h.emitting.fits
    rw [h.emitting.total, BitVec.toNat_ofNat, Nat.mod_eq_of_lt (by omega)]
  have hwhole : (artifactBits xs tree code).length ≤ 8 * bytesFor (artifactBits xs tree code).length := by
    unfold bytesFor
    omega
  refine arrives_of_step (step_coreTurn_done h.emitting.inputs (coreTurn_pad h.stage)) (arrives_here
    (.coded tree code hcoding h.emitting.scalars h.emitting.room h.emitting.nodes ⟨ended_succeed _ s, h.emitting.inputs, ?_, ?_,
      h.spells⟩))
  · exact hlen.symm ▸ hwhole
  · exact hlen.symm ▸ h.emitting.fits

/-- The empty input's artifact is the header 0 (R243). -/
theorem encoded_encodeEmpty (hin : s.inputs = []) : Encoded [] (encodeEmpty s) := by
  have hzero : ∀ a, a < 4 → readArt (encodeEmpty s) a = 0x00#8 := fun a ha => by rw [readArt_encodeEmpty, if_pos ha]
  refine .empty rfl ⟨ended_succeed _ _, hin, ?_, s.caps.artCap_ge, spells_bigEndian ?_⟩
  · rw [headerBits_length]
    exact Nat.le_refl 32
  · rw [hzero 0 (by decide), hzero 1 (by decide), hzero 2 (by decide), hzero 3 (by decide)]
    decide

/-- An ENCODE just accepted ends: in an error, or with its input encoded (R242 to R245). -/
theorem encode_arrives (hin : s.inputs = []) :
    Arrives (fun t => ∃ xs, SymbolsIn xs s.inLen.toNat s ∧ Encoded xs t) (accept 0x00000001#32 .count s) := by
  by_cases hempty : s.inLen = 0#32
  · have hstep : step (accept 0x00000001#32 .count s) = .next (encodeEmpty (withLength (accept 0x00000001#32 .count s))) :=
      (step_coreTurn_done (s := accept 0x00000001#32 .count s) hin rfl).trans (countStep_of_empty hempty)
    exact arrives_of_step hstep (arrives_here ⟨[], ⟨by rw [hempty]; rfl, nofun⟩, encoded_encodeEmpty (by exact hin)⟩)
  · have hstart : CountsInput (accept 0x00000001#32 .count s) (accept 0x00000001#32 .count s) :=
      ⟨hin, rfl, counting_accept _ s, buildOk_of_count rfl ⟨rfl, rfl, rfl, rfl, List.Pairwise.nil⟩, rfl, rfl⟩
    refine arrives_bind (count_arrives hempty hstart) fun t ⟨xs, hxs, hcount⟩ => ?_
    refine arrives_bind (build_arrives hcount) fun t hbuild => ?_
    refine arrives_bind (codes_arrives hbuild) fun t ⟨tree, code, hcoding, hcodes⟩ => ?_
    refine arrives_bind (size_arrives hcodes hcount.scalars) fun t hsize => ?_
    refine arrives_bind (serTree_arrives hsize) fun t htree => ?_
    refine arrives_bind (encText_arrives (done := []) rfl htree) fun t htext => ?_
    exact arrives_bind (pad_arrives hcoding htext) fun t hencoded => arrives_here ⟨xs, ⟨hxs.length, hxs.words⟩, hencoded⟩

/-- The state once the host's ENCODE has been accepted (R241). -/
theorem encode_accepted (hbusy : s.busy = false) (hin : s.inputs = [wrCmd 0x00000001#32]) :
    step s = .next (accept 0x00000001#32 .count { s with inputs := [] }) := by
  have hidle : ({ s with inputs := [] } : State).busy = false := hbusy
  rw [step_cmdWrite hin]
  exact if_neg (by simp [hidle])

theorem ended_of_encoded (h : Encoded xs s) : Ended s := by
  cases h with
  | empty nil written => exact written.ended
  | coded tree code coding scalars room nodes written => exact written.ended

theorem inputs_of_encoded (h : Encoded xs s) : s.inputs = [] := by
  cases h with
  | empty nil written => exact written.inputs
  | coded tree code coding scalars room nodes written => exact written.inputs

end Encode

/-- Settles O55: from COUNT on every stage ends, and so does the command. -/
theorem encodeEnds : Obligations.EncodeEnds := by
  unfold Obligations.EncodeEnds
  intro s hbusy hin
  obtain ⟨u, ⟨k, hrun⟩, hend⟩ := encode_arrives (s := { s with inputs := [] }) rfl
  have hended : Ended u := hend.elim EndsInError.ended fun ⟨_, _, hencoded⟩ => ended_of_encoded hencoded
  exact ⟨k, u, (run_succ (encode_accepted hbusy hin)).trans hrun, hended.seq, hended.busy, hended.done⟩

end Sys2Proof.Proofs
end

section
/-! PROOF. The round trip (43_commands.md R253): DEC_TEXT walks each symbol's code from the root to its leaf, so a DECODE of an
encoded input writes the input back. -/

namespace Sys2Proof.Proofs

open Sys2Proof Sys2Proof.Machine

/-- These bits stand in the stream from the read cursor on, before its end (20_memory.md R66). -/
structure InStream (bits : Bits) (s : State) : Prop where
  there : s.hid.rpos + bits.length ≤ 8 * s.hid.latLen.toNat
  spells : Spells s s.hid.rpos bits

section Stream

variable {s : State} {xs ys : Bits}

theorem inStream_left (h : InStream (xs ++ ys) s) : InStream xs s := by
  obtain ⟨hthere, hspells⟩ := h
  rw [List.length_append] at hthere
  exact ⟨by omega, (spells_append.1 hspells).1⟩

theorem inStream_right (h : InStream (xs ++ ys) s) : InStream ys (s.advance xs.length) := by
  obtain ⟨hthere, hspells⟩ := h
  rw [List.length_append] at hthere
  exact ⟨show s.hid.rpos + xs.length + ys.length ≤ 8 * s.hid.latLen.toNat by omega, (spells_append.1 hspells).2⟩

end Stream

/-! ### One symbol of the text -/

/-- DEC_TEXT with symbols to go and room for them (42_text_codec.md R213). -/
structure ReadsText (top : Nat) (s : State) : Prop where
  inputs : s.inputs = []
  stage : s.seq = .decText
  remain : s.hid.remain ≠ 0#32
  root : s.hid.root = some top
  room : s.hid.outidx < s.caps.symCap
  fits : s.hid.latLen.toNat ≤ s.caps.artCap

section Walk

variable {s : State} {root : Nat}

/-- A code's first bit selects a child, to which the rest of the code belongs. -/
theorem leads_cons {tree : SymTree} {b : Bool} {code : Bits} {c : Scalar} (h : Leads tree (b :: code) c) :
    ∃ l r, tree = .node l r ∧ Leads (if b then r else l) code c := by
  cases h with
  | left h => exact ⟨_, _, rfl, h⟩
  | right h => exact ⟨_, _, rfl, h⟩

/-- With the walk at the root of a tree and a code of it in the stream, the next bit moves the walk to a child (R213). -/
theorem step_code_bit {tree : SymTree} {b : Bool} {code : Bits} {c : Scalar} (h : ReadsText root s)
    (htree : HoldsTree s s.hid.cur tree) (hleads : Leads tree (b :: code) c) (hcode : InStream (b :: code) s) :
    ∃ i child, step s = moveTo i (s.advance 1) ∧ HoldsTree (s.advance 1) i child ∧ Leads child code c := by
  obtain ⟨l, r, rfl, hchild⟩ := leads_cons hleads
  obtain ⟨x, y, hcur, hl, hr⟩ := htree
  have hbit : streamBit s s.hid.rpos = b := hcode.spells 0 (Nat.succ_pos _)
  have hleft : s.hid.rpos < 8 * s.hid.latLen.toNat := Nat.lt_of_lt_of_le (Nat.lt_add_of_pos_right (Nat.succ_pos _)) hcode.there
  have hstep : step s = moveTo (if b then y else x) (s.advance 1) := by
    rw [step_decText_of_bit h.inputs h.stage h.remain h.fits hleft, hbit]
    exact exec_textToken_of_internal (s := s.advance 1) b hcur
  refine ⟨_, _, hstep, holdsTree_of_nodes (s := s) (by rfl) ?_, hchild⟩
  cases b with
  | false => exact hl
  | true => exact hr

/-- The pointer has moved to `i`, the root of the tree to which the rest of the code belongs: the walk emits the symbol. -/
theorem run_code_rest {code : Bits} {c : Scalar} {s₀ : State} {i : Nat} {tree : SymTree} (hleads : Leads tree code c)
    (hstep : step s₀ = moveTo i s) (h : ReadsText root s) (htree : HoldsTree s i tree) (hcode : InStream code s) :
    core.run (code.length + 1) s₀ = .next (afterEmit root c (s.advance code.length)) := by
  induction code generalizing tree s₀ s i with
  | nil =>
    cases hleads
    exact (run_one s₀).trans (hstep.trans (moveTo_of_leaf htree h.root h.room))
  | cons b code ih =>
    obtain ⟨l, r, rfl, -⟩ := leads_cons hleads
    have ⟨x, y, hnode, _, _⟩ := htree
    have hmoved := hstep.trans (moveTo_of_internal hnode)
    obtain ⟨j, child, hbit, hholds, hchild⟩ := step_code_bit (s := { s with hid := { s.hid with cur := i } })
      ⟨h.inputs, h.stage, h.remain, h.root, h.room, h.fits⟩ (holdsTree_of_nodes (s := s) (by rfl) htree) hleads
      ⟨hcode.there, hcode.spells⟩
    have hrest := inStream_right (xs := [b]) hcode
    have hend := ih hchild hbit ⟨h.inputs, h.stage, h.remain, h.root, h.room, h.fits⟩ hholds ⟨hrest.there, hrest.spells⟩
    refine (run_succ hmoved).trans (hend.trans ?_)
    simp only [State.advance, afterEmit, List.length_cons, Nat.add_assoc, Nat.add_comm 1]

/-- Over as many steps as a code has bits DEC_TEXT walks from the root to the code's leaf and emits its symbol (R213, R214). -/
theorem run_code {code : Bits} {c : Scalar} {tree : SymTree} (hleads : Leads tree code c) (hbits : code ≠ [])
    (h : ReadsText root s) (htree : HoldsTree s s.hid.cur tree) (hcode : InStream code s) :
    core.run code.length s = .next (afterEmit root c (s.advance code.length)) := by
  obtain ⟨b, code, rfl⟩ := List.exists_cons_of_ne_nil hbits
  obtain ⟨i, child, hbit, hholds, hchild⟩ := step_code_bit h htree hleads hcode
  have hrest := inStream_right (xs := [b]) hcode
  have hend := run_code_rest hchild hbit ⟨h.inputs, h.stage, h.remain, h.root, h.room, h.fits⟩ hholds hrest
  refine hend.trans ?_
  simp only [State.advance, afterEmit, List.length_cons, Nat.add_assoc, Nat.add_comm 1]

end Walk

/-! ### The whole text -/

/-- DEC_TEXT between two symbols of a coded text: these symbols are still to be read. -/
structure DecodingText (tree : SymTree) (code : Scalar → Bits) (top : Nat) (rest : List Scalar) (s : State) : Prop where
  inputs : s.inputs = []
  stage : s.seq = .decText
  root : s.hid.root = some top
  cur : s.hid.cur = top
  holds : HoldsTree s top tree
  remain : s.hid.remain = BitVec.ofNat 32 rest.length
  room : s.hid.outidx + rest.length ≤ s.caps.symCap
  fits : s.hid.latLen.toNat ≤ s.caps.artCap
  stream : InStream (rest.flatMap code) s

/-- A DECODE from `s` has ended in success with these symbols written from `outidx` on. -/
structure TextWritten (rest : List Scalar) (s u : State) : Prop where
  status : u.status = 0x00000002#32
  outLen : u.outLen = s.hid.count
  written : ∀ i (h : i < rest.length), readSym u (s.hid.outidx + i) = symbolWord rest[i]
  kept : ∀ i, i < s.hid.outidx → readSym u i = readSym s i

section Text

variable {tree : SymTree} {code : Scalar → Bits} {root : Nat} {rest : List Scalar} {s : State}

theorem readSym_afterEmit_same (c : Scalar) (s : State) :
    readSym (afterEmit root c s) s.hid.outidx = symbolWord c := readSym_writeSym_same s.hid.outidx (symbolWord c) s

theorem readSym_afterEmit_other {i : Nat} (hi : i ≠ s.hid.outidx) (c : Scalar) :
    readSym (afterEmit root c s) i = readSym s i := readSym_writeSym_other hi (symbolWord c) s

/-- A symbol has been read from its code: the rest of the text is still to be read. -/
theorem decodingText_next {c : Scalar} (h : DecodingText tree code root (c :: rest) s) :
    DecodingText tree code root rest (afterEmit root c (s.advance (code c).length)) := by
  have hstream := h.stream
  rw [List.flatMap_cons] at hstream
  have hrest := inStream_right hstream
  have hroom := h.room
  rw [List.length_cons] at hroom
  refine ⟨h.inputs, h.stage, h.root, rfl, holdsTree_of_nodes (s := s) (by rfl) h.holds, ?_,
    show s.hid.outidx + 1 + rest.length ≤ s.caps.symCap by omega, h.fits, hrest.there, hrest.spells⟩
  change s.hid.remain - 1#32 = _
  rw [h.remain, List.length_cons]
  bv_omega

/-- Where the codes are not empty DEC_TEXT reads the whole text and ends the command (R213 to R215). -/
theorem text_ends (hleads : ∀ c ∈ rest, Leads tree (code c) c) (hbits : ∀ c ∈ rest, code c ≠ [])
    (h : DecodingText tree code root rest s) : ∃ u, Reaches s u ∧ TextWritten rest s u := by
  induction rest generalizing s with
  | nil =>
    exact ⟨textDone s, reaches_of_step (step_decText_of_done h.inputs h.stage h.remain), rfl, rfl, nofun, fun _ _ => rfl⟩
  | cons c rest ih =>
    obtain ⟨hc, hrest⟩ := List.forall_mem_cons.1 hleads
    obtain ⟨hcbits, hrestbits⟩ := List.forall_mem_cons.1 hbits
    have hroom := h.room
    rw [List.length_cons] at hroom
    have hremain : s.hid.remain ≠ 0#32 := by
      have := s.caps.symCap_le
      rw [h.remain, List.length_cons]
      bv_omega
    have hstream := h.stream
    rw [List.flatMap_cons] at hstream
    have hrun := run_code hc hcbits ⟨h.inputs, h.stage, hremain, h.root, by omega, h.fits⟩
      (h.cur.symm ▸ h.holds) (inStream_left hstream)
    obtain ⟨u, hu, hwritten⟩ := ih hrest hrestbits (decodingText_next h)
    refine ⟨u, reaches_trans ⟨_, hrun⟩ hu, hwritten.status, hwritten.outLen, fun i hi => ?_, fun i hi => ?_⟩
    · cases i with
      | zero =>
        rw [Nat.add_zero, hwritten.kept s.hid.outidx (Nat.lt_succ_self _)]
        exact readSym_afterEmit_same c (s.advance (code c).length)
      | succ i =>
        have hindex : s.hid.outidx + (i + 1) = s.hid.outidx + 1 + i := by omega
        exact (congrArg (readSym u) hindex).trans (hwritten.written i (Nat.lt_of_succ_lt_succ hi))
    · rw [hwritten.kept i (Nat.lt_succ_of_lt hi)]
      exact readSym_afterEmit_other (s := s.advance (code c).length) (Nat.ne_of_lt hi) c

end Text

/-! ### A DECODE of an encoded input -/

/-- A DECODE stands at its header, with these bits at the front of its stream. -/
structure HeaderReady (bits : Bits) (s : State) : Prop where
  inputs : s.inputs = []
  stage : s.seq = .hdr
  cleared : s.hid.ncount = 0 ∧ s.hid.deser = []
  fits : s.hid.latLen.toNat ≤ s.caps.artCap
  there : bits.length ≤ 8 * s.hid.latLen.toNat
  spells : Spells s 0 bits

section Decode

variable {xs : List Scalar} {tree : SymTree} {code : Scalar → Bits} {s : State}

/-- The header is read: `n` is the count (R248). -/
theorem step_headerBits {n : Nat} {rest : Bits} (h : HeaderReady (headerBits n ++ rest) s) :
    step s = exec (.header (BitVec.ofNat 32 n)) { s with hid := { s.hid with rpos := 32 } } := by
  have hthere := h.there
  rw [List.length_append, headerBits_length] at hthere
  exact step_hdr_of_word h.inputs h.stage h.fits (by omega) (spells_append.1 h.spells).1

/-- DECODE of the empty artifact succeeds with an empty output (R249). -/
theorem decode_empty (h : HeaderReady (headerBits 0) s) :
    ∃ u, Reaches s u ∧ u.status = 0x00000002#32 ∧ u.outLen = 0x00000000#32 := by
  have hstep := (step_headerBits (n := 0) (rest := []) (by rwa [List.append_nil])).trans (exec_header_zero _)
  exact ⟨_, reaches_of_step hstep, rfl, rfl⟩

/-- The state at the start of DESER_TREE, the header just read. -/
def headerRead (n : Nat) (s : State) : State :=
  { s with seq := .deserTree, hid := { s.hid with rpos := 32, count := BitVec.ofNat 32 n } }

theorem reaches_textStarted {l r : SymTree} (hscalars : (SymTree.node l r).scalars) (hpos : xs ≠ [])
    (hroom : xs.length ≤ s.caps.symCap) (hnodes : (SymTree.node l r).size ≤ s.caps.nodeCap)
    (h : HeaderReady (artifactBits xs (.node l r) code) s) :
    Reaches s (textStarted (.node l r) (headerRead xs.length s)) := by
  obtain ⟨hncount, hdeser⟩ := h.cleared
  have hlt := length_lt_of_room hroom
  have hword : (BitVec.ofNat 32 xs.length).toNat = xs.length := by rw [BitVec.toNat_ofNat, Nat.mod_eq_of_lt hlt]
  have hcount : BitVec.ofNat 32 xs.length ≠ 0#32 := fun hzero => by
    rw [hzero] at hword
    exact hpos (List.length_eq_zero_iff.1 hword.symm)
  have hbits : artifactBits xs (.node l r) code = headerBits xs.length ++ ((SymTree.node l r).bits ++ xs.flatMap code) := by
    rw [artifactBits, List.append_assoc]
  rw [hbits] at h
  have hheader : step s = .next (headerRead xs.length s) :=
    (step_headerBits h).trans (exec_header_of_fits hcount (hword.symm ▸ hroom))
  have hthere := h.there
  rw [List.length_append, List.length_append, headerBits_length] at hthere
  have hspells := (spells_append.1 (spells_append.1 h.spells).2).1
  rw [headerBits_length] at hspells
  have hrun := run_deserTree_root (s := headerRead xs.length s) hscalars h.inputs rfl h.fits
    (show s.hid.ncount + _ ≤ s.caps.nodeCap by omega) (show 32 + _ ≤ 8 * s.hid.latLen.toNat by omega) hspells hdeser
  exact reaches_trans (reaches_of_step hheader) ⟨_, hrun⟩

/-- DECODE of the artifact of a coding writes the coded symbols (R253). -/
theorem decode_artifact (hcoding : Coding xs tree code) (hscalars : ∀ x ∈ xs, isScalar x.toNat = true)
    (hroom : xs.length ≤ s.caps.symCap) (hnodes : tree.size ≤ s.caps.nodeCap)
    (h : HeaderReady (artifactBits xs tree code) s) :
    ∃ u, Reaches s u ∧ u.status = 0x00000002#32 ∧ u.outLen = BitVec.ofNat 32 xs.length ∧ SymbolsIn xs xs.length u := by
  cases tree with
  | leaf c => exact absurd hcoding.two_leaves (by simp [treeLeaves])
  | node l r =>
    have hpos : xs ≠ [] := by
      obtain ⟨c, hc⟩ := List.exists_mem_of_length_pos (Nat.lt_of_lt_of_le Nat.two_pos hcoding.two_leaves)
      exact List.ne_nil_of_mem (hcoding.leaves c hc)
    have hbits : ∀ x ∈ xs, code x ≠ [] := fun x hx hnil => by
      have hleads := hcoding.leads x hx
      rw [hnil] at hleads
      cases hleads
    have htree := scalars_of_leaves fun c hc => hscalars c (hcoding.leaves c hc)
    have hstart := reaches_textStarted htree hpos hroom hnodes h
    have hthere := h.there
    rw [artifactBits, List.length_append, List.length_append, headerBits_length] at hthere
    have hspells := (spells_append.1 h.spells).2
    rw [List.length_append, headerBits_length, Nat.zero_add] at hspells
    have htext : DecodingText (.node l r) code s.hid.ncount xs (textStarted (.node l r) (headerRead xs.length s)) :=
      ⟨h.inputs, rfl, rfl, rfl, holdsTree_textStarted (.node l r) (headerRead xs.length s), rfl,
        show 0 + xs.length ≤ s.caps.symCap by omega, h.fits,
        show 32 + _ + _ ≤ 8 * s.hid.latLen.toNat by omega, hspells⟩
    obtain ⟨u, hu, hwritten⟩ := text_ends hcoding.leads hbits htext
    refine ⟨u, reaches_trans hstart hu, hwritten.status, hwritten.outLen, rfl, fun i hi => ?_⟩
    have hword := hwritten.written i hi
    rwa [show (textStarted (.node l r) (headerRead xs.length s)).hid.outidx = 0 from rfl, Nat.zero_add] at hword

end Decode

/-! ### The end state of a run is one -/

section Determined

variable {s t u : State}

/-- Nothing is pending and the core is idle. -/
theorem run_of_rest (hin : s.inputs = []) (hidle : s.seq = .idle) (k : Nat) : core.run k s = .next s := by
  induction k with
  | zero => rfl
  | succ k ih =>
    have hturn : coreTurn s = .done (.next s) := by simp only [coreTurn, hidle]
    exact (run_succ (step_coreTurn_done hin hturn)).trans ih

/-- Two runs from one state that come to rest come to the same state. -/
theorem rest_unique (ht : Reaches s t) (hu : Reaches s u) (htin : t.inputs = []) (htidle : t.seq = .idle)
    (huin : u.inputs = []) (huidle : u.seq = .idle) : t = u := by
  obtain ⟨a, ha⟩ := ht
  obtain ⟨b, hb⟩ := hu
  have hboth := (run_add (b := b) ha).symm.trans ((congrArg (core.run · s) (Nat.add_comm a b)).trans (run_add (b := a) hb))
  rw [run_of_rest htin htidle, run_of_rest huin huidle] at hboth
  exact Host.Outcome.next.inj hboth

theorem inputs_of_coreTurn (h : CoreTurn s t) : t.inputs = s.inputs := by
  cases h with
  | rests | succeeds | emptyInput | goesOn | writesSym => rfl
  | fails out e h => cases out <;> rfl
  | emits bits h emitting fits => rw [emitBits_inputs]

/-- A run with nothing pending keeps the registers sound (10_state.md R23, R31). -/
theorem registersOk_of_run {k : Nat} (hok : RegistersOk s) (hin : s.inputs = []) (hrun : core.run k s = .next t) :
    RegistersOk t ∧ t.inputs = [] := by
  induction k generalizing s with
  | zero =>
    cases hrun
    exact ⟨hok, hin⟩
  | succ k ih =>
    obtain ⟨u, hstep, hrest⟩ := run_succ_next hrun
    exact ih (registersInvariant s u hok hstep) ((inputs_of_coreTurn (coreTurn_of_step hin hstep)).trans hin) hrest

theorem registersOk_accept (v : Word) {stage : Seq} (hstage : stage ≠ .idle) (s : State) : RegistersOk (accept v stage s) where
  status_legal := by simp [accept, legalStatus, statusRunning]
  idle_iff := iff_of_false hstage (by simp [accept, State.busy])
  outLen_zero _ := rfl
  end_unseen _ := rfl

end Determined

/-- The artifact a successful ENCODE has left is what the DECODE accepted next finds at its header. -/
theorem headerReady_of_written {bits : Bits} {t : State} (h : ArtifactWritten bits t) (sym : Memory 32) :
    HeaderReady bits (accept 0x00000002#32 .hdr { t with inLen := t.outLen, sym := sym, inputs := [] }) :=
  ⟨rfl, rfl, ⟨rfl, rfl⟩, h.inside, h.whole, h.spells⟩

/-- DECODE of an encoded input writes the input's symbols (R253). -/
theorem decode_encoded {xs : List Scalar} {t : State} (h : Encoded xs t) (sym : Memory 32) :
    ∃ u, Reaches (accept 0x00000002#32 .hdr { t with inLen := t.outLen, sym := sym, inputs := [] }) u ∧
      u.status = 0x00000002#32 ∧ u.outLen = BitVec.ofNat 32 xs.length ∧ SymbolsIn xs xs.length u := by
  cases h with
  | empty nil written =>
    subst nil
    obtain ⟨u, hu, hstatus, hlen⟩ := decode_empty (headerReady_of_written written sym)
    exact ⟨u, hu, hstatus, hlen, rfl, nofun⟩
  | coded tree code coding scalars room nodes written =>
    exact decode_artifact coding scalars room nodes (headerReady_of_written written sym)

/-- A successful ENCODE ends as `encode_arrives` says: the state it ends in is the only one its run comes to rest in. -/
theorem encoded_of_success {k : Nat} {s t : State} (hin : s.inputs = [])
    (hrun : core.run k (accept 0x00000001#32 .count s) = .next t) (hsuccess : t.status = 0x00000002#32) :
    Ended t ∧ ∃ xs, SymbolsIn xs s.inLen.toNat s ∧ Encoded xs t := by
  obtain ⟨hok, htin⟩ := registersOk_of_run (registersOk_accept _ (by decide) s) (by exact hin) hrun
  have htidle : t.seq = .idle := hok.idle_iff.2 (by rw [State.busy, hsuccess]; decide)
  obtain ⟨u, hu, herr | ⟨xs, hxs, hencoded⟩⟩ := encode_arrives hin
  · obtain rfl := rest_unique ⟨k, hrun⟩ hu htin htidle herr.inputs herr.ended.seq
    exact absurd hsuccess herr.status
  · have huin : u.inputs = [] := inputs_of_encoded hencoded
    obtain rfl := rest_unique ⟨k, hrun⟩ hu htin htidle huin (ended_of_encoded hencoded).seq
    exact ⟨ended_of_encoded hencoded, xs, hxs, hencoded⟩

/-- Settles O57: the ENCODE's end state holds the input's artifact, and the DECODE writes the symbols of the artifact. -/
theorem roundTrip : Obligations.RoundTrip := by
  unfold Obligations.RoundTrip
  intro s t k sym hbusy hin hrun hsuccess
  rw [run_succ (encode_accepted hbusy hin)] at hrun
  obtain ⟨hended, xs, hxs, hencoded⟩ := encoded_of_success rfl hrun hsuccess
  obtain ⟨u, ⟨m, hu⟩, hstatus, hlen, -, hwords⟩ := decode_encoded hencoded sym
  have haccepted := decode_accepted (s := { t with inLen := t.outLen, sym := sym, inputs := [wrCmd 0x00000002#32] })
    hended.busy rfl
  refine ⟨m, u, (run_succ haccepted).trans hu, hstatus, ?_, fun i hi => ?_⟩
  · rw [hlen, hxs.length, BitVec.ofNat_toNat, BitVec.setWidth_eq]
  · have hi : i < xs.length := hxs.length.symm ▸ hi
    exact (hwords i hi).trans (hxs.words i hi).symm

end Sys2Proof.Proofs
end
